-- ==== Sys2Proof/Word.lean ====
section
/-! DEFINITION. The widths of the block's ports and latches (spec/00_scope.md R11): a bus byte is 8 bits, a
pointer or command word 32 bits, a chip address 24 bits of which 22 reach the wire (R49). The bit-field and
byte-order helpers stand in Sys2Proof/Machine/Operands.lean. -/
namespace Sys2Proof

/-- One byte on the bus (R11). -/
abbrev Byte := BitVec 8

/-- A pointer, a register value or a command word (R11). -/
abbrev Word := BitVec 32

/-- A chip address as a request holds it (R11, R48). -/
abbrev Addr := BitVec 24

/-- The part of a chip address that reaches the bus (R49). -/
abbrev WireAddr := BitVec 22

end Sys2Proof
end

