-- ==== Sys2Proof/Config.lean ====
section
/-! DEFINITION. The parameters of spec/00_scope.md R10, the test configuration TC of
spec/92_eei_decisions.md D26, and the values nobody fixes (opaque constants: nothing can be proved of them).
Which configurations are valid (R142) is `configValid` in Sys2Proof/Machine/Operands.lean. -/
namespace Sys2Proof

/-- DIVERGENCE_POLICY (R10, R109). `unknown` is any value that is none of the three: a configuration that
holds it is refused when reset is released (R142). -/
inductive DivergencePolicy where
  | fault
  | reject
  | wrap32
  | unknown (code : Nat)
deriving DecidableEq, Repr

/-- The parameters a configuration chooses (R10). They are naturals, so that a configuration that breaks a
constraint of R10 can be written down and refused (R142). The quantities the source fixes are constants of
Sys2Proof/Machine/Operands.lean. -/
structure Config where
  /-- CMD_BUF_BASE: first chip address of the ring window (R38, R50). -/
  cmdBufBase : Nat
  /-- REG_CMD_READ_ADDR: chip address of `read_offset` (R36). -/
  regCmdRead : Nat
  /-- REG_CMD_WRITE_ADDR: chip address of `write_offset` (R37). -/
  regCmdWrite : Nat
  /-- REG_ID_ADDR: chip address of the device-ID register (R39). -/
  regId : Nat
  /-- REG_TOUCH_TAG_ADDR: chip address of the touch-tag register, never used by the block itself (R40). -/
  regTouchTag : Nat
  /-- RETRY_BUDGET: the most attempts one enqueue makes (R10, D11). -/
  retryBudget : Nat
  /-- DIVERGENCE_POLICY (R109, D10). -/
  policy : DivergencePolicy
  /-- ABORT_ON_GAVEUP (R134, D13). -/
  abortOnGaveup : Bool
deriving DecidableEq, Repr

/-- The test configuration TC (D26). DESIGN CHOICE (log 3), unsafe: the addresses are OPEN in R10; no
statement rests on them, every statement quantifies over the configuration. -/
def Config.tc : Config where
  cmdBufBase := 0x108000
  regCmdRead := 0x1024E4
  regCmdWrite := 0x1024E8
  regId := 0x102400
  regTouchTag := 0x102470
  retryBudget := 255
  policy := .fault
  abortOnGaveup := false

/-- Free value (log 7): the byte received in the `k`-th exchange that neither the environment's script nor
chip memory answers. R153: the environment chooses it. -/
opaque Config.freeByte (k : Nat) : Byte

/-- Free value (log 12): what PACK reports as the number of words when that number does not fit the 32-bit
`value` of a result (R35, R131). -/
opaque Config.packCount (n : Nat) : Word

end Sys2Proof
end

