-- ==== Sys2Proof/Syntax.lean ====
section
/-! DEFINITION. Requests as the requester issues them (spec/10_state.md R21, spec/30_encoding.md R80) and
the instructions: one constructor per row of spec/opcode_table.json, the sixteen request operations (R81)
and the five wire transactions (R89). -/
namespace Sys2Proof

/-- A request: the 64-bit word `{op, addr, data}` of R80 and the two lists of R21. -/
structure Request where
  q : BitVec 64
  inbytes : List Byte
  inwords : List Word
deriving DecidableEq, Repr

/-- An instruction: an operation with the operands it uses (R81, R82). -/
inductive Instr where
  /-- RDB (R94): read `count` bytes at `addr`. -/
  | rdb (addr : Addr) (count : Word)
  /-- WRB (R95): write a byte list at `addr`. -/
  | wrb (addr : Addr) (inbytes : List Byte)
  /-- RD8 (R96). -/
  | rd8 (addr : Addr)
  /-- RD16 (R97). -/
  | rd16 (addr : Addr)
  /-- RD32 (R98). -/
  | rd32 (addr : Addr)
  /-- WR8 (R99): `data[7:0]`. -/
  | wr8 (addr : Addr) (value : BitVec 8)
  /-- WR16 (R100): `data[15:0]`. -/
  | wr16 (addr : Addr) (value : BitVec 16)
  /-- WR32 (R101). -/
  | wr32 (addr : Addr) (value : Word)
  /-- HOSTCMD (R102): `code = data[7:0]`. -/
  | hostcmd (code : Byte)
  /-- WAKE (R103). -/
  | wake
  /-- CHKID (R104). -/
  | chkid
  /-- TRYENQ (R114). -/
  | tryenq (word : Word)
  /-- ENQ (R116). -/
  | enq (word : Word)
  /-- IDLE (R118). -/
  | idle
  /-- PACK (R131). -/
  | pack (inbytes : List Byte)
  /-- TEXTCMD (R133). -/
  | textcmd (inwords : List Word) (inbytes : List Byte)
  /-- WIRE_READ (R73): the read transaction of `count` bytes. -/
  | wireRead (addr : WireAddr) (count : Nat)
  /-- WIRE_WRITE (R74): the write transaction of a byte list. -/
  | wireWrite (addr : WireAddr) (bytes : List Byte)
  /-- WIRE_HOSTCMD (R75): marker 01 and the low six bits of the code. -/
  | wireHostcmd (code : BitVec 6)
  /-- WIRE_HOSTCMD_M11 (R77): marker 11 and the low six bits of the code. -/
  | wireHostcmdM11 (code : BitVec 6)
  /-- WIRE_WAKE (R76). -/
  | wireWake
deriving DecidableEq, Repr

end Sys2Proof
end

