-- ==== Sys2Proof/Machine/Operands.lean ====
section
/-! DEFINITION. Operand forms: byte lists and byte order (spec/00_scope.md R14, spec/20_memory.md R53, R54),
the framing prefix and the byte lists of the four transaction kinds (spec/30_encoding.md R70 to R76), ring
addresses (R51), the packer (spec/42_payload.md R124 to R127), and the constants the source fixes
(spec/00_scope.md R10). -/
namespace Sys2Proof.Machine

/-- RING_SIZE (R10): bytes in the command ring. -/
def ringSize : Nat := 4096

/-- HEADROOM (R10, R110): a word is accepted iff more bytes than this are free. -/
def headroom : Word := 4#32

/-- WORD_BYTES (R10): how far an accepted word advances `write_offset` (R113). -/
def wordBytes : Word := 4#32

/-- DEVICE_ID_EXPECTED (R10, R104). -/
def deviceId : Byte := 0x7C#8

/-- The number of chip addresses that reach the wire, 2^22 (R49). -/
def chipSpace : Nat := 2 ^ 22

/-- Whether a configuration meets every constraint of R10. One that does not enters FAULT with
CONFIG_INVALID when reset is released (R142, D9). -/
def configValid (c : Config) : Bool :=
  decide (c.cmdBufBase + 4095 < chipSpace) && decide (c.regCmdRead < chipSpace)
    && decide (c.regCmdWrite < chipSpace) && decide (c.regId < chipSpace)
    && decide (c.regTouchTag < chipSpace) && decide (c.regCmdRead ≠ c.regCmdWrite)
    && decide (c.retryBudget ≤ 65535)
    && (match c.policy with
        | .fault => true
        | .reject => true
        | .wrap32 => true
        | .unknown _ => false)

/-- `LE_n(v)` (R14): the `n` low bytes of `v`, least significant first. -/
def leBytes : Nat → Nat → List Byte
  | 0, _ => []
  | n + 1, v => BitVec.ofNat 8 v :: leBytes n (v / 256)

/-- `LEval(s)` (R14): the number whose little-endian bytes are `s`. -/
def leVal : List Byte → Nat
  | [] => 0
  | b :: s => b.toNat + 256 * leVal s

/-- The four bytes of a word, least significant first (R53, R54). -/
def le4 (w : Word) : List Byte := leBytes 4 w.toNat

/-- The received bytes of a register read as a 32-bit value, zero-extended (R35, R53). -/
def leWord (s : List Byte) : Word := BitVec.ofNat 32 (leVal s)

/-- `Prefix(a, m)` (R71): the marker and `a[21:16]`, then `a[15:8]`, then `a[7:0]`. The order of the last two
bytes is D3's choice (spec/92_eei_decisions.md). Bits 23:22 of the address are dropped (R49). -/
def framePrefix (a : Addr) (m : BitVec 2) : List Byte :=
  [m ++ a.extractLsb' 16 6, a.extractLsb' 8 8, a.extractLsb' 0 8]

/-- Marker of a read (R72). -/
def markRead : BitVec 2 := 0b00#2

/-- Marker of a write (R72). -/
def markWrite : BitVec 2 := 0b10#2

/-- Marker of a host command (R72). -/
def markHost : BitVec 2 := 0b01#2

/-- Marker with no meaning in the source, sent only for a code with bit 7 set (R77). -/
def markReserved : BitVec 2 := 0b11#2

/-- The bytes of a read of `n` bytes at `a` (R73): prefix, dummy byte, `n` zero bytes. -/
def txRead (a : Addr) (n : Nat) : List Byte :=
  framePrefix a markRead ++ 0#8 :: List.replicate n 0#8

/-- The index of the first captured byte of a read (R73). -/
def readCap : Nat := 4

/-- The bytes of a write of `s` at `a` (R74): prefix and data, no dummy byte. -/
def txWrite (a : Addr) (s : List Byte) : List Byte :=
  framePrefix a markWrite ++ s

/-- The bytes of a host command (R75): the OR is literal, no bit of the code is masked. -/
def txHost (code : Byte) : List Byte := [code ||| 0x40#8, 0#8, 0#8]

/-- The bytes of an active wake (R76). -/
def txWake : List Byte := [0#8, 0#8, 0#8]

/-- A parameter address as a chip address. -/
def paramAddr (n : Nat) : Addr := BitVec.ofNat 24 n

/-- `ring_addr(wo)` (R51): ring base plus the pointer modulo the ring size. -/
def ringAddr (c : Config) (wo : Word) : Addr :=
  BitVec.ofNat 24 (c.cmdBufBase + wo.toNat % ringSize)

/-- `ceil(L / 4)` (R124). -/
def packLen (n : Nat) : Nat := (n + 3) / 4

/-- `Pack(s)` (R124 to R127): four bytes a word, little-endian, the last word zero-padded. -/
def pack : List Byte → List Word
  | b0 :: b1 :: b2 :: b3 :: s => leWord [b0, b1, b2, b3] :: pack s
  | [] => []
  | [b0] => [leWord [b0]]
  | [b0, b1] => [leWord [b0, b1]]
  | [b0, b1, b2] => [leWord [b0, b1, b2]]

/-- The bytes the ring receives for a word list (R135). -/
def unpack (ws : List Word) : List Byte := ws.flatMap le4

/-- The words of a text command (R132). -/
def textWords (inwords : List Word) (inbytes : List Byte) : List Word := inwords ++ pack inbytes

/-- A WRB whose byte list is short enough not to be refused (R84, R95). -/
def wrbFits (inbytes : List Byte) : Bool := decide (inbytes.length < 2 ^ 32)

/-- A TEXTCMD whose word count is small enough not to be refused (R84, R133). -/
def textFits (inwords : List Word) (inbytes : List Byte) : Bool :=
  decide (inwords.length + packLen inbytes.length ≤ 65535)

end Sys2Proof.Machine
end

