-- ==== Sys2Proof/WellFormed.lean ====
section
/-! DEFINITION. Which instructions are well-formed: the lists a request may carry (spec/30_encoding.md R84)
and the counts a wire transaction may have (spec/20_memory.md R60). An ill-formed WRB or TEXTCMD is refused
at ACCEPT with ILLEGAL (R140); the tests show a refused term for each check. -/
namespace Sys2Proof

/-- Why an instruction is ill-formed. -/
inductive IllFormed where
  /-- WRB with 2^32 bytes or more (R84). -/
  | oversizeWrb
  /-- TEXTCMD with more than 65535 words (R84). -/
  | oversizeText
  /-- A wire read of 2^32 bytes or more (R60). -/
  | oversizeWireRead
  /-- A wire write of 2^32 bytes or more (R60). -/
  | oversizeWireWrite
deriving DecidableEq, Repr

/-- The check of one instruction: `none` if it is well-formed, else the reason. -/
def Instr.illFormed : Instr → Option IllFormed
  | .rdb _ _ => none
  | .wrb _ bs => if Machine.wrbFits bs then none else some .oversizeWrb
  | .rd8 _ => none
  | .rd16 _ => none
  | .rd32 _ => none
  | .wr8 _ _ => none
  | .wr16 _ _ => none
  | .wr32 _ _ => none
  | .hostcmd _ => none
  | .wake => none
  | .chkid => none
  | .tryenq _ => none
  | .enq _ => none
  | .idle => none
  | .pack _ => none
  | .textcmd ws bs => if Machine.textFits ws bs then none else some .oversizeText
  | .wireRead _ n => if n < 2 ^ 32 then none else some .oversizeWireRead
  | .wireWrite _ bs => if bs.length < 2 ^ 32 then none else some .oversizeWireWrite
  | .wireHostcmd _ => none
  | .wireHostcmdM11 _ => none
  | .wireWake => none

/-- An instruction the spec admits. -/
def Instr.wf (i : Instr) : Bool := i.illFormed.isNone

end Sys2Proof
end

