-- ==== Sys2Proof/Decode.lean ====
section
/-! DEFINITION. The decoder of request words (spec/30_encoding.md R80 to R85) and of wire transactions
(R70 to R79, R89), total and rejecting by name, then the encoder, then `decodeTableWord`. -/
namespace Sys2Proof

/-- Why a word or a byte list is no instruction. -/
inductive Reject where
  /-- A reserved operation code (R84). -/
  | reservedOp (op : BitVec 8)
  /-- Fewer than three bytes: no transaction is that short (R70). -/
  | shortTransaction
  /-- Three bytes with marker 00 that are not all zero: a read sends at least four bytes (R78). -/
  | shortRead
  /-- A read that sends a nonzero dummy or data-phase byte (R73). -/
  | readSendsData
  /-- Marker 01 or 11 with nonzero bytes 1 and 2, or not exactly three bytes (R75, R89). -/
  | hostcmdShape
deriving DecidableEq, Repr

/-- `q[63:56]` (R80). -/
def reqOp (q : BitVec 64) : BitVec 8 := q.extractLsb' 56 8

/-- `q[55:32]` (R80). -/
def reqAddr (q : BitVec 64) : Addr := q.extractLsb' 32 24

/-- `q[31:0]` (R80). -/
def reqData (q : BitVec 64) : Word := q.extractLsb' 0 32

/-- The request word of its three fields (R80). -/
def reqWord (op : BitVec 8) (addr : Addr) (data : Word) : BitVec 64 := op ++ addr ++ data

/-- The operation and operands of a request (R81 to R83). A field the operation does not use is ignored
(R82). List sizes are checked at ACCEPT, not here (R84, R85). -/
def decodeRequest (r : Request) : Except Reject Instr :=
  let op := reqOp r.q
  let addr := reqAddr r.q
  let data := reqData r.q
  if op = 0x01#8 then .ok (.rdb addr data)
  else if op = 0x02#8 then .ok (.wrb addr r.inbytes)
  else if op = 0x03#8 then .ok (.rd8 addr)
  else if op = 0x04#8 then .ok (.rd16 addr)
  else if op = 0x05#8 then .ok (.rd32 addr)
  else if op = 0x06#8 then .ok (.wr8 addr (data.extractLsb' 0 8))
  else if op = 0x07#8 then .ok (.wr16 addr (data.extractLsb' 0 16))
  else if op = 0x08#8 then .ok (.wr32 addr data)
  else if op = 0x09#8 then .ok (.hostcmd (data.extractLsb' 0 8))
  else if op = 0x0A#8 then .ok .wake
  else if op = 0x0B#8 then .ok .chkid
  else if op = 0x10#8 then .ok (.tryenq data)
  else if op = 0x11#8 then .ok (.enq data)
  else if op = 0x12#8 then .ok .idle
  else if op = 0x20#8 then .ok (.pack r.inbytes)
  else if op = 0x21#8 then .ok (.textcmd r.inwords r.inbytes)
  else .error (.reservedOp op)

/-- The wire address in the three bytes of a framing prefix (R71). -/
def prefixAddr (b0 b1 b2 : Byte) : WireAddr := b0.extractLsb' 0 6 ++ b1 ++ b2

/-- The marker in the first byte of a transaction (R71). -/
def prefixMarker (b0 : Byte) : BitVec 2 := b0.extractLsb' 6 2

/-- Whether every byte of a list is 0x00. -/
def allZero (s : List Byte) : Bool := s.all (· == 0#8)

/-- The wire row of a complete transaction's bytes (R89). A wake and a read of address 0 are told apart by
the length alone (R78). -/
def decodeWire : List Byte → Except Reject Instr
  | b0 :: b1 :: b2 :: rest =>
    if prefixMarker b0 = Machine.markWrite then .ok (.wireWrite (prefixAddr b0 b1 b2) rest)
    else if prefixMarker b0 = Machine.markRead then
      match rest with
      | [] => if allZero [b0, b1, b2] then .ok .wireWake else .error .shortRead
      | _ :: zs =>
        if allZero rest then .ok (.wireRead (prefixAddr b0 b1 b2) zs.length)
        else .error .readSendsData
    else if rest.isEmpty && allZero [b1, b2] then
      if prefixMarker b0 = Machine.markHost then .ok (.wireHostcmd (b0.extractLsb' 0 6))
      else .ok (.wireHostcmdM11 (b0.extractLsb' 0 6))
    else .error .hostcmdShape
  | _ => .error .shortTransaction

/-- What an instruction is encoded as: a request, or the bytes of a wire transaction. -/
inductive Encoded where
  | request (r : Request)
  | wire (bytes : List Byte)
deriving DecidableEq, Repr

/-- The decoder of both encodings. -/
def decode : Encoded → Except Reject Instr
  | .request r => decodeRequest r
  | .wire bytes => decodeWire bytes

/-- A request of the three fields with no lists. -/
def plainRequest (op : BitVec 8) (addr : Addr) (data : Word) : Request :=
  { q := reqWord op addr data, inbytes := [], inwords := [] }

/-- The encoding of an instruction (R81, R89): unused fields and lists are zero and empty. -/
def encode : Instr → Encoded
  | .rdb a n => .request (plainRequest 0x01#8 a n)
  | .wrb a bs => .request { plainRequest 0x02#8 a 0#32 with inbytes := bs }
  | .rd8 a => .request (plainRequest 0x03#8 a 0#32)
  | .rd16 a => .request (plainRequest 0x04#8 a 0#32)
  | .rd32 a => .request (plainRequest 0x05#8 a 0#32)
  | .wr8 a v => .request (plainRequest 0x06#8 a (v.setWidth 32))
  | .wr16 a v => .request (plainRequest 0x07#8 a (v.setWidth 32))
  | .wr32 a v => .request (plainRequest 0x08#8 a v)
  | .hostcmd c => .request (plainRequest 0x09#8 0#24 (c.setWidth 32))
  | .wake => .request (plainRequest 0x0A#8 0#24 0#32)
  | .chkid => .request (plainRequest 0x0B#8 0#24 0#32)
  | .tryenq w => .request (plainRequest 0x10#8 0#24 w)
  | .enq w => .request (plainRequest 0x11#8 0#24 w)
  | .idle => .request (plainRequest 0x12#8 0#24 0#32)
  | .pack bs => .request { plainRequest 0x20#8 0#24 0#32 with inbytes := bs }
  | .textcmd ws bs =>
    .request { plainRequest 0x21#8 0#24 0#32 with inwords := ws, inbytes := bs }
  | .wireRead a n => .wire (Machine.txRead (a.setWidth 24) n)
  | .wireWrite a bs => .wire (Machine.txWrite (a.setWidth 24) bs)
  | .wireHostcmd c => .wire [Machine.markHost ++ c, 0#8, 0#8]
  | .wireHostcmdM11 c => .wire [Machine.markReserved ++ c, 0#8, 0#8]
  | .wireWake => .wire Machine.txWake

/-- The operation code of a request operation (R81); a wire transaction has none. -/
def Instr.opcode : Instr → Option (BitVec 8)
  | .rdb _ _ => some 0x01#8
  | .wrb _ _ => some 0x02#8
  | .rd8 _ => some 0x03#8
  | .rd16 _ => some 0x04#8
  | .rd32 _ => some 0x05#8
  | .wr8 _ _ => some 0x06#8
  | .wr16 _ _ => some 0x07#8
  | .wr32 _ _ => some 0x08#8
  | .hostcmd _ => some 0x09#8
  | .wake => some 0x0A#8
  | .chkid => some 0x0B#8
  | .tryenq _ => some 0x10#8
  | .enq _ => some 0x11#8
  | .idle => some 0x12#8
  | .pack _ => some 0x20#8
  | .textcmd _ _ => some 0x21#8
  | .wireRead _ _ => none
  | .wireWrite _ _ => none
  | .wireHostcmd _ => none
  | .wireHostcmdM11 _ => none
  | .wireWake => none

/-- The bytes of the transaction that starts with the 24-bit big-endian value `p` and whose later bytes are
zero (R89): three bytes, and for a read, marker 00 and not all zero, the dummy byte (R73, R78). -/
def tableWire (p : BitVec 24) : List Byte :=
  let b : List Byte := [p.extractLsb' 16 8, p.extractLsb' 8 8, p.extractLsb' 0 8]
  if p.extractLsb' 22 2 = Machine.markRead ∧ p ≠ 0#24 then b ++ [0#8] else b

/-- The encoding whose table bits are `w`, `nbits` of them: a WIRE row has 24 bits, the first three bytes
sent, first byte most significant; a REQ64 row has the 64 bits of the request word, lists empty. -/
def tableEncoded (nbits w : Nat) : Encoded :=
  if nbits ≤ 32 then .wire (tableWire (BitVec.ofNat 24 w))
  else .request { q := BitVec.ofNat 64 w, inbytes := [], inwords := [] }

/-- The instruction the decoder reads from a row's word of spec/opcode_table.json. -/
def decodeTableWord (nbits w : Nat) : Option Instr :=
  match decode (tableEncoded nbits w) with
  | .ok i => some i
  | .error _ => none

end Sys2Proof
end

