-- ==== Sys2Proof/Machine/Flags.lean ====
section
/-! DEFINITION. The block has no flags and no condition codes (spec/10_state.md R43); what decides is here:
the free-space arithmetic and the acceptance test of the ring controller (spec/41_ring_buffer.md R108 to
R111), the identity match (R104), and the bits of the fault register (spec/10_state.md R33). -/
namespace Sys2Proof.Machine

/-- Bit 0 of `fault`, ILLEGAL_REQUEST (R33, R140). -/
def faultIllegal : BitVec 4 := 0b0001#4

/-- Bit 1 of `fault`, POINTER_DIVERGENCE (R33, R141). -/
def faultDivergence : BitVec 4 := 0b0010#4

/-- Bit 2 of `fault`, CONFIG_INVALID (R33, R142). -/
def faultConfig : BitVec 4 := 0b0100#4

/-- Occupied space (R108, C1): the unsigned 32-bit difference of the raw pointers. -/
def occupied (wo ro : Word) : Word := wo - ro

/-- `FreeOf(occ)` (R109): `none` is "raise Fault(POINTER_DIVERGENCE)". An unknown policy never operates
(R142); it is treated as the model default `fault`. -/
def freeOf (p : DivergencePolicy) (occ : Word) : Option Word :=
  if occ.toNat ≤ ringSize then some (BitVec.ofNat 32 ringSize - occ)
  else match p with
    | .reject => some 0#32
    | .wrap32 => some (BitVec.ofNat 32 ringSize - occ)
    | .fault => none
    | .unknown _ => none

/-- The acceptance test `free > 4`, strict and unsigned (R110, C6). -/
def accepts (free : Word) : Bool := decide (headroom.toNat < free.toNat)

/-- The pointer after an accepted word (R113, R122): plus 4 modulo 2^32, never modulo 4096. -/
def advance (wo : Word) : Word := wo + wordBytes

/-- IDLE's comparison (R118): 32-bit equality of the raw pointers. -/
def drained (ro wo : Word) : Word := if ro = wo then 1#32 else 0#32

/-- CHKID's value (R35, R104): 23 zeros, match, id. -/
def idValue (id : Byte) : Word := (0#23 ++ BitVec.ofBool (decide (id = deviceId))) ++ id

end Sys2Proof.Machine
end

