-- ==== Sys2Proof/Machine/State.lean ====
section
/-! DEFINITION. The state of the block with its ports, the observation and the environment, all plain data,
the reasons a step can stop, and the state after reset (spec/10_state.md). -/
namespace Sys2Proof.Machine

/-- Program points (R29); no other exists. -/
inductive Pc where
  /-- IDLE: no request is in progress. -/
  | idle
  /-- F_X: the single transaction of a framing operation. -/
  | fx
  /-- Q_RO: reading `read_offset` for an attempt. -/
  | qro
  /-- Q_WO: reading `write_offset` for an attempt. -/
  | qwo
  /-- Q_WW: writing the command word into the ring. -/
  | qww
  /-- Q_WP: writing the advanced `write_offset`. -/
  | qwp
  /-- I_RO: reading `read_offset` for IDLE. -/
  | iro
  /-- I_WO: reading `write_offset` for IDLE. -/
  | iwo
  /-- FAULT: stopped on a fault (R143). -/
  | fault
deriving DecidableEq, Repr

/-- Result status (R34). -/
inductive Status where
  | done
  | enqueued
  | rejected
  | delivered
  | gaveup
  | skipped
  | illegal
  | faulted
deriving DecidableEq, Repr

/-- A result (R23). -/
structure Result where
  status : Status
  value : Word
  outbytes : List Byte
  outwords : List Word
deriving DecidableEq, Repr

/-- A bus event (R16): select, exchange of a sent and a received byte, deselect. -/
inductive BusEvent where
  | sel
  | x (o i : Byte)
  | desel
deriving DecidableEq, Repr

/-- One turn of an agent (R20, R157, R163). -/
inductive Turn where
  /-- The block takes its next step. -/
  | block
  /-- The requester issues a request (R21). -/
  | request (r : Request)
  /-- The requester takes the oldest result from the result port (R20). -/
  | take
  /-- The environment fixes its answer to one coming exchange (R153). -/
  | answer (i : Byte)
  /-- The chip changes one byte of its own address space (R154). -/
  | poke (a : WireAddr) (b : Byte)
  /-- The chip consumes one command word from the ring (R65, R154). -/
  | consume
  /-- The chip moves `read_offset` in another way (R154, R159). -/
  | advance (ro : Word)
  /-- Reset is asserted and released (R163, R142). -/
  | reset
deriving DecidableEq, Repr

/-- Chip memory: (address, byte) pairs, addresses strictly rising; an unlisted address holds no known byte
(R39, I18). -/
abbrev Memory := List Host.Cell

/-- The names of the latches that reset leaves without a value (R25, R45). -/
inductive Latch where
  | op
  | addr
  | data
  | inbytes
  | inwords
  | roL
  | woL
  | occ
  | free
  | attempts
  | words
  | widx
  | ndeliv
  | ngaveup
  | rx
  | txs
  | txcap
  | txi
deriving DecidableEq, Repr

/-- Why the machine stops. No run of a reset block meets one of these (`Inv` of Sys2Proof/Safety.lean); each
is safe. The faults of R140 to R142 are not among them: those are bits of `State.fault` in a next state. -/
inductive Fault where
  /-- Raised by every operation that reads a latch which holds no value: R26 says "Reading it faults in the
  model", and R15 says the same of `x[n]`. Safe. -/
  | latchNoValue (l : Latch)
  /-- Raised by an operation at a program point its procedure does not have (R29). Safe. -/
  | badPoint
  /-- Raised by TEXTCMD when `widx` is not an index of `words` (R107). Safe. -/
  | wordOutOfRange
deriving DecidableEq, Repr

/-- Why a step has no meaning. -/
inductive Refusal where
  /-- Raised by an arm of `exec` for an instruction with no meaning yet. Safe. -/
  | notModelled (mnemonic : String)
  /-- Raised by the step when the bytes placed in the engine are no row of R89; the block itself never sends
  such bytes (R77). Safe. -/
  | noWireRow
deriving DecidableEq, Repr

/-- The machine's state. A latch is `none` while it holds no value, which is the reset value that the
table of R45 gives it (R163, D20). -/
structure State where
  /-- The parameters, fixed for the run (R10, R27). -/
  cfg : Config
  /-- Requests issued and not yet accepted, oldest first; the head is on the request port (R21, R24). -/
  reqs : List Request
  /-- Results on the result port, not yet taken, oldest first (R23). -/
  resp : List Result
  /-- Program point (R28). -/
  pc : Pc
  /-- Copy of the request's `op` (R25). -/
  op : Option (BitVec 8)
  /-- Copy of the request's `addr` (R25). -/
  addr : Option Addr
  /-- Copy of the request's `data` (R25). -/
  data : Option Word
  /-- Copy of the request's `inbytes` (R25). -/
  inbytes : Option (List Byte)
  /-- Copy of the request's `inwords` (R25). -/
  inwords : Option (List Word)
  /-- ro_l: `read_offset` as fetched in the current attempt (R25). -/
  roL : Option Word
  /-- wo_l: `write_offset` as fetched in the current attempt (R25). -/
  woL : Option Word
  /-- Occupied space (R25, R108). -/
  occ : Option Word
  /-- Free space (R25, R109). -/
  free : Option Word
  /-- Attempts made by the current enqueue (R25). -/
  attempts : Option (BitVec 16)
  /-- Word sequence of a text command (R25). -/
  words : Option (List Word)
  /-- Index of the word being enqueued (R25). -/
  widx : Option (BitVec 17)
  /-- Words delivered (R25). -/
  ndeliv : Option (BitVec 16)
  /-- Words given up (R25). -/
  ngaveup : Option (BitVec 16)
  /-- Captured bytes of the current transaction (R25, R30). -/
  rx : Option (List Byte)
  /-- Chip-select asserted (R25). -/
  cs : Bool
  /-- Bytes to send (R25, R30). -/
  txs : Option (List Byte)
  /-- The engine's first captured index, in full; the 32-bit latch txcap of R25 is `State.txcap` (log 2). -/
  txfrom : Option Nat
  /-- The engine's next index, in full; the 32-bit latch txi of R25 is `State.txi` (log 2). -/
  txpos : Option Nat
  /-- Sticky fault register (R33). -/
  fault : BitVec 4
  /-- Every result delivered, in request order (R47). -/
  results : List Result
  /-- Every bus event, in order (R16, R47). -/
  trace : List BusEvent
  /-- The chip's address space (R48 to R50, R36 to R40): the environment's. -/
  mem : Memory
  /-- The command words the chip consumed, in order (R65): the environment's. `none` is a word some byte of
  which nothing wrote (R170), or that runs past the window end (log 24). -/
  consumed : List (Option Word)
  /-- The environment's: `write_offset` as the transaction in flight found it, the last written value until
  that transaction ends (R65, log 25). -/
  woSeen : Option Word
  /-- The model's own: the environment's answers to the coming exchanges (R153); `none` and the end of the
  list leave the answer to chip memory (R156). -/
  draws : List (Option Byte)
  /-- The model's own: how many free bytes were drawn, the argument of `Config.freeByte` (log 7). -/
  nfree : Nat
  /-- The model's own: the coming turns (R157); the block moves when it is empty (log 8). -/
  sched : List Turn
  /-- The model's own: the bytes of a wire transaction placed in the engine with no request in progress
  (log 9). -/
  wire : Option (List Byte)
deriving DecidableEq, Repr

/-- The block right after reset under the configuration `c`, before the release check of R142: every latch
as R45 gives it, nothing in the ports, nothing observed, nothing known of the chip. -/
def State.initial (c : Config) : State where
  cfg := c
  reqs := []
  resp := []
  pc := .idle
  op := none
  addr := none
  data := none
  inbytes := none
  inwords := none
  roL := none
  woL := none
  occ := none
  free := none
  attempts := none
  words := none
  widx := none
  ndeliv := none
  ngaveup := none
  rx := none
  cs := false
  txs := none
  txfrom := none
  txpos := none
  fault := 0b0000#4
  results := []
  trace := []
  mem := []
  consumed := []
  woSeen := none
  draws := []
  nfree := 0
  sched := []
  wire := none

/-- The machine right after reset (R45) under TC, a valid configuration (log 3). -/
def State.reset : State := State.initial Config.tc

end Sys2Proof.Machine
end

