-- ==== Sys2Proof/Machine/Ops.lean ====
section
/-! DEFINITION. The named operations the meanings are written over: chip memory, the environment's answers,
the ports, the fault register and fault entry (spec/60_exceptions.md R140 to R143), reset (spec/70_reset_and_hazards.md
R163 to R165), the transaction engine (spec/10_state.md R30, R31), and the two shapes of procedure, one
transaction (spec/40_framing.md) and the attempt (spec/41_ring_buffer.md R107). -/
namespace Sys2Proof.Machine

/-- The outcome of a step. -/
abbrev Out := Host.Outcome State Fault Refusal

/-! ## Chip memory (R48 to R52) -/

/-- The byte at an address; `none` where no known byte is. -/
def Memory.read : Memory → Nat → Option Byte
  | [], _ => none
  | (a, b) :: m, x => if x = a then some b else Memory.read m x

/-- The memory with `v` at `x`, addresses kept rising. -/
def Memory.insert : Memory → Nat → Byte → Memory
  | [], x, v => [(x, v)]
  | (a, b) :: m, x, v =>
    if x < a then (x, v) :: (a, b) :: m
    else if x = a then (x, v) :: m
    else (a, b) :: Memory.insert m x v

/-- A store by the chip: an address outside the 2^22 bytes lists nothing (log 10). -/
def Memory.write (m : Memory) (x : Nat) (v : Byte) : Memory :=
  if x < chipSpace then Memory.insert m x v else m

/-- The bytes `s` stored at `x`, `x + 1`, … (R52). -/
def Memory.writeBytes : Memory → Nat → List Byte → Memory
  | m, _, [] => m
  | m, x, b :: s => Memory.writeBytes (Memory.write m x b) (x + 1) s

/-- The canonical form: addresses strictly rising and inside the chip's space. -/
def Memory.wf : Memory → Bool
  | [] => true
  | [(a, _)] => decide (a < chipSpace)
  | (a, _) :: (b, v) :: m => decide (a < b) && Memory.wf ((b, v) :: m)

/-- A little-endian 32-bit value (R53); `none` where some byte of it is unknown. -/
def Memory.readWord (m : Memory) (x : Nat) : Option Word :=
  match m.read x, m.read (x + 1), m.read (x + 2), m.read (x + 3) with
  | some b0, some b1, some b2, some b3 => some (leWord [b0, b1, b2, b3])
  | _, _, _, _ => none

/-- The wire address carried by the first three bytes of a transaction (R71). -/
def sentAddr : List Byte → Nat
  | b0 :: b1 :: b2 :: _ => (prefixAddr b0 b1 b2).toNat
  | _ => 0

/-- The marker carried by the first byte of a transaction, read before any byte is sent (R71). -/
def sentMarker : List Byte → BitVec 2
  | b0 :: _ => prefixMarker b0
  | [] => markRead

/-- The chip's answer to the exchange that follows the bytes `sent` of the transaction (R156): in the data
phase of a read at A, the byte at A + k (R52). Everywhere else, and where no byte is known, it gives none. -/
def chipAnswer (m : Memory) (sent : List Byte) : Option Byte :=
  if sentMarker sent = markRead ∧ 4 ≤ sent.length then
    m.read (sentAddr sent + (sent.length - 4))
  else none

/-- The address the chip stores the next byte of the transaction to: A + k in the data phase of a write
(R52), none in every other exchange. -/
def storeAddr (sent : List Byte) : Option Nat :=
  if sentMarker sent = markWrite ∧ 3 ≤ sent.length then some (sentAddr sent + (sent.length - 3))
  else none

/-- The chip's memory after it received the byte `o` (R52). -/
def chipStore (m : Memory) (sent : List Byte) (o : Byte) : Memory :=
  match storeAddr sent with
  | some a => m.write a o
  | none => m

/-- The byte the block receives (R22, R153): the environment's fixed answer, else the chip's, else a free
byte. -/
def received (s : State) (sent : List Byte) : Byte :=
  match s.draws with
  | some i :: _ => i
  | _ => (chipAnswer s.mem sent).getD (Config.freeByte s.nfree)

/-- How many free bytes the exchange draws: one where neither the script nor the chip answers. -/
def freeDrawn (s : State) (sent : List Byte) : Nat :=
  match s.draws with
  | some _ :: _ => 0
  | _ => if (chipAnswer s.mem sent).isSome then 0 else 1

/-- The chip's `read_offset` (R36), where its bytes are known. -/
def chipRead (s : State) : Option Word := s.mem.readWord (paramAddr s.cfg.regCmdRead).toNat

/-- The chip's `write_offset` (R37), where its bytes are known. -/
def chipWrite (s : State) : Option Word := s.mem.readWord (paramAddr s.cfg.regCmdWrite).toNat

/-! ## Latches -/

/-- The latch txi (R25), 32 bits: the low bits of the engine's next index. -/
def State.txi (s : State) : Option (BitVec 32) := s.txpos.map (BitVec.ofNat 32)

/-- The latch txcap (R25), 32 bits: the low bits of the engine's first captured index. -/
def State.txcap (s : State) : Option (BitVec 32) := s.txfrom.map (BitVec.ofNat 32)

/-- Read of a latch (R15): one that holds no value faults (R26). -/
def readLatch {α : Type} (l : Latch) (v : Option α) (k : α → Out) : Out :=
  match v with
  | some a => k a
  | none => .fault (.latchNoValue l)

/-! ## Ports -/

/-- `req_ready` (R24). -/
def State.reqReady (s : State) : Bool := decide (s.pc = .idle)

/-- The 4-bit code of a status (R34). -/
def Status.code : Status → BitVec 4
  | .done => 0x0#4
  | .enqueued => 0x1#4
  | .rejected => 0x2#4
  | .delivered => 0x3#4
  | .gaveup => 0x4#4
  | .skipped => 0x5#4
  | .illegal => 0xE#4
  | .faulted => 0xF#4

/-- The 36-bit result word (R86). -/
def Result.word (r : Result) : BitVec 36 := r.status.code ++ r.value

/-- A result with no lists. -/
def plainResult (st : Status) (v : Word) : Result :=
  { status := st, value := v, outbytes := [], outwords := [] }

/-- A result is put on the result port (R23). -/
def deliver (r : Result) (s : State) : State :=
  { s with results := s.results ++ [r], resp := s.resp ++ [r] }

/-- The request completes: `result(…); pc <- IDLE`. -/
def complete (r : Result) (s : State) : State :=
  { deliver r s with pc := .idle }

/-- Move the sequencer to a program point (R28). -/
def goto (p : Pc) (s : State) : State := { s with pc := p }

/-- Acceptance copies the request into the latches (R21, R25). -/
def latchRequest (r : Request) (s : State) : State :=
  { s with op := some (reqOp r.q), addr := some (reqAddr r.q), data := some (reqData r.q),
           inbytes := some r.inbytes, inwords := some r.inwords }

/-! ## Faults (R140 to R145) -/

/-- A refused request (R84, R140): bit 0 of `fault`, result ILLEGAL, no bus event, back to IDLE. -/
def refuse (s : State) : State :=
  { complete (plainResult .illegal 0#32) s with fault := s.fault ||| faultIllegal }

/-- Fault entry (R143), the one operation for POINTER_DIVERGENCE and CONFIG_INVALID: the bit is set, a
request in progress gets the result FAULTED, `pc` becomes FAULT. Nothing is saved and no bus event issued. -/
def enterFault (bit : BitVec 4) (inProgress : Bool) (s : State) : State :=
  let s' := if inProgress then deliver (plainResult .faulted 0#32) s else s
  { s' with fault := s.fault ||| bit, pc := .fault }

/-! ## Reset (R163 to R165, R142) -/

/-- Every piece of block state at its value of R45; a transaction in flight is ended by DESEL (R164); the
parameters, the waiting requests, the observation and the chip stay (R27, R24, R165). -/
def clearBlock (s : State) : State :=
  { s with
    resp := [], pc := .idle, op := none, addr := none, data := none, inbytes := none, inwords := none,
    roL := none, woL := none, occ := none, free := none, attempts := none, words := none, widx := none,
    ndeliv := none, ngaveup := none, rx := none, cs := false, txs := none, txfrom := none, txpos := none,
    fault := 0b0000#4, wire := none,
    trace := if s.cs then s.trace ++ [.desel] else s.trace }

/-- Reset asserted and released: an invalid configuration enters FAULT with CONFIG_INVALID at once, before
any request is accepted (R142). -/
def applyReset (s : State) : State :=
  if configValid s.cfg then clearBlock s else enterFault faultConfig false (clearBlock s)

/-! ## Transaction engine (R30, R31) -/

/-- Set-up of `Xfer(bytes, cap)` (R31). -/
def startXfer (bytes : List Byte) (cap : Nat) (s : State) : State :=
  { s with txs := some bytes, txfrom := some cap, txpos := some 0, rx := some [] }

/-- Step SEL (R31). What the chip's consumer goes by until DESEL is the `write_offset` of now (R65, log 25). -/
def select (s : State) : State :=
  { s with cs := true, trace := s.trace ++ [.sel], woSeen := chipWrite s }

/-- Step DESEL (R31). -/
def deselect (s : State) : State := { s with cs := false, trace := s.trace ++ [.desel] }

/-- Step X (R31): byte `o` at index `i` of `bytes` is exchanged; the received byte is captured from index
`cap` on, and discarded before it (R92). -/
def exchange (bytes : List Byte) (cap i : Nat) (rx : List Byte) (o : Byte) (s : State) : State :=
  let sent := bytes.take i
  let r := received s sent
  { s with
    trace := s.trace ++ [.x o r],
    rx := some (if cap ≤ i then rx ++ [r] else rx),
    txpos := some (i + 1),
    mem := chipStore s.mem sent o,
    draws := s.draws.tail,
    nfree := s.nfree + freeDrawn s sent }

/-- One bus event of the transaction in flight (R31, R32); `k` is the computation of the DESEL step. -/
def xferStep (k : State → Out) (s : State) : Out :=
  if s.cs then
    readLatch .txs s.txs fun bytes =>
    readLatch .txi s.txpos fun i =>
      match bytes[i]? with
      | some o =>
        readLatch .txcap s.txfrom fun cap =>
        readLatch .rx s.rx fun rx => .next (exchange bytes cap i rx o s)
      | none => k (deselect s)
  else .next (select s)

/-- The read of `n` bytes at `a` is set up for the program point `p`. -/
def startRead (p : Pc) (a : Addr) (n : Nat) (s : State) : State :=
  goto p (startXfer (txRead a n) readCap s)

/-- The write of `bs` at `a` is set up for the program point `p` (R30: it captures nothing). -/
def startWrite (p : Pc) (a : Addr) (bs : List Byte) (s : State) : State :=
  goto p (startXfer (txWrite a bs) (txWrite a bs).length s)

/-! ## Framing operations: one transaction (spec/40_framing.md) -/

/-- One step of an operation of one transaction: ACCEPT sets it up and goes to F_X; the DESEL step delivers
`finish rx` and returns to IDLE. In FAULT nothing is accepted (R144). -/
def framing (bytes : List Byte) (cap : Nat) (finish : List Byte → Result) (s : State) : Out :=
  match s.pc with
  | .idle => .next (goto .fx (startXfer bytes cap s))
  | .fx => xferStep (fun s' => readLatch .rx s'.rx fun rx => .next (complete (finish rx) s')) s
  | .fault => .next s
  | _ => .fault .badPoint

/-- A framing read of `n` bytes at `a` (R73). -/
def framingRead (a : Addr) (n : Nat) (finish : List Byte → Result) (s : State) : Out :=
  framing (txRead a n) readCap finish s

/-- A framing write of `bs` at `a` (R74). -/
def framingWrite (a : Addr) (bs : List Byte) (v : Word) (s : State) : Out :=
  framing (txWrite a bs) (txWrite a bs).length (fun _ => plainResult .done v) s

/-- A transaction with no request in progress (log 9): the engine's Xfer alone, no result. -/
def bareXfer (bytes : List Byte) (cap : Nat) (s : State) : Out :=
  let finish : State → Out := fun s' => .next { s' with pc := .idle, wire := none }
  match s.pc with
  | .idle => xferStep finish (goto .fx (startXfer bytes cap s))
  | .fx => xferStep finish s
  | .fault => .next s
  | _ => .fault .badPoint

/-! ## The attempt (R107) -/

/-- The outcome of an attempt. -/
inductive Verdict where
  | enqueued
  | rejected
deriving DecidableEq, Repr

/-- An attempt begins: `pc <- Q_RO` with the read of `read_offset` set up. -/
def startAttempt (s : State) : State := startRead .qro (paramAddr s.cfg.regCmdRead) 4 s

/-- The DESEL step of Q_RO: `ro_l` is latched and the read of `write_offset` set up. -/
def latchRo (rx : List Byte) (s : State) : State :=
  startRead .qwo (paramAddr s.cfg.regCmdWrite) 4 { s with roL := some (leWord rx) }

/-- The latches of step 2 of an attempt: `wo_l` and `occ` (R108). -/
def latchWo (rx : List Byte) (ro : Word) (s : State) : State :=
  { s with woL := some (leWord rx), occ := some (occupied (leWord rx) ro) }

/-- An accepted attempt sets up the ring write of `w` (R112). -/
def startRingWrite (w wo : Word) (s : State) : State :=
  startWrite .qww (ringAddr s.cfg wo) (le4 w) s

/-- The pointer write that follows the word write (R113). -/
def startPointerWrite (wo : Word) (s : State) : State :=
  startWrite .qwp (paramAddr s.cfg.regCmdWrite) (le4 (advance wo)) s

/-- The DESEL step of Q_WO (R107 to R110): free space, then the ring write of the word `word` gives, the
rejection, or fault entry. -/
def decideAttempt (word : State → (Word → Out) → Out) (wo occ : Word) (outcome : Verdict → State → Out)
    (s : State) : Out :=
  match freeOf s.cfg.policy occ with
  | none => .next (enterFault faultDivergence true s)
  | some f =>
    let s' := { s with free := some f }
    if accepts f then word s' fun w => .next (startRingWrite w wo s') else outcome .rejected s'

/-- One step of an attempt for the word `word` gives (R107); `outcome` is the completion handler of the
operation. -/
def attempt (word : State → (Word → Out) → Out) (outcome : Verdict → State → Out) (s : State) : Out :=
  match s.pc with
  | .qro => xferStep (fun s' => readLatch .rx s'.rx fun rx => .next (latchRo rx s')) s
  | .qwo =>
    xferStep (fun s' =>
      readLatch .rx s'.rx fun rx =>
      readLatch .roL s'.roL fun ro =>
        decideAttempt word (leWord rx) (occupied (leWord rx) ro) outcome (latchWo rx ro s')) s
  | .qww => xferStep (fun s' => readLatch .woL s'.woL fun wo => .next (startPointerWrite wo s')) s
  | .qwp => xferStep (fun s' => outcome .enqueued s') s
  | .fault => .next s
  | _ => .fault .badPoint

end Sys2Proof.Machine
end

