-- ==== Sys2Proof/Machine/Framing.lean ====
section
/-! DEFINITION. The meanings of the eleven framing operations (spec/40_framing.md R94 to R104), each one step
of its procedure: ACCEPT at IDLE, one bus event at F_X, the result in the DESEL step. -/
namespace Sys2Proof.Machine

/-- RDB (R94): `count` bytes read, returned in `outbytes`. -/
def execRdb (addr : Addr) (count : Word) (s : State) : Out :=
  framingRead addr count.toNat
    (fun rx => { status := .done, value := count, outbytes := rx, outwords := [] }) s

/-- WRB (R95): the bytes written; 2^32 bytes or more are refused at ACCEPT (R84). -/
def execWrb (addr : Addr) (inbytes : List Byte) (s : State) : Out :=
  if s.pc = .idle ∧ wrbFits inbytes = false then .next (refuse s)
  else framingWrite addr inbytes (BitVec.ofNat 32 inbytes.length) s

/-- RD8 (R96). -/
def execRd8 (addr : Addr) (s : State) : Out :=
  framingRead addr 1 (fun rx => plainResult .done (leWord rx)) s

/-- RD16 (R97). -/
def execRd16 (addr : Addr) (s : State) : Out :=
  framingRead addr 2 (fun rx => plainResult .done (leWord rx)) s

/-- RD32 (R98). -/
def execRd32 (addr : Addr) (s : State) : Out :=
  framingRead addr 4 (fun rx => plainResult .done (leWord rx)) s

/-- WR8 (R99). -/
def execWr8 (addr : Addr) (value : BitVec 8) (s : State) : Out :=
  framingWrite addr (leBytes 1 value.toNat) 0#32 s

/-- WR16 (R100). -/
def execWr16 (addr : Addr) (value : BitVec 16) (s : State) : Out :=
  framingWrite addr (leBytes 2 value.toNat) 0#32 s

/-- WR32 (R101). -/
def execWr32 (addr : Addr) (value : Word) (s : State) : Out :=
  framingWrite addr (le4 value) 0#32 s

/-- HOSTCMD (R102): no read phase, no acknowledgment. -/
def execHostcmd (code : Byte) (s : State) : Out :=
  framing (txHost code) 3 (fun _ => plainResult .done 0#32) s

/-- WAKE (R103). -/
def execWake (s : State) : Out :=
  framing txWake 3 (fun _ => plainResult .done 0#32) s

/-- CHKID (R104): the device-ID byte and whether it is 0x7C; a mismatch is a result. -/
def execChkid (s : State) : Out :=
  framingRead (paramAddr s.cfg.regId) 1
    (fun rx => plainResult .done (idValue (rx.headD 0#8))) s

end Sys2Proof.Machine
end

