-- ==== Sys2Proof/Machine/Ring.lean ====
section
/-! DEFINITION. The meanings of the command ring buffer controller (spec/41_ring_buffer.md): TRYENQ, ENQ and
IDLE, each one step of its procedure. -/
namespace Sys2Proof.Machine

/-- TRYENQ's completion (R114): `write_offset` after the attempt. -/
def tryenqOutcome (v : Verdict) (s : State) : Out :=
  readLatch .woL s.woL fun wo =>
    match v with
    | .enqueued => .next (complete (plainResult .enqueued (advance wo)) s)
    | .rejected => .next (complete (plainResult .rejected wo) s)

/-- TRYENQ (R114): one attempt. -/
def execTryenq (word : Word) (s : State) : Out :=
  match s.pc with
  | .idle => .next (startAttempt s)
  | _ => attempt (fun _ k => k word) tryenqOutcome s

/-- The retry state machine of one word (R115), shared by ENQ and TEXTCMD: the attempt is counted; `finish`
is told the word's end (true: delivered) and the attempts made, and a rejected attempt below the budget
starts the next one at once (R117). -/
def retry (finish : Bool → BitVec 16 → State → Out) (v : Verdict) (s : State) : Out :=
  readLatch .attempts s.attempts fun n =>
    let s' := { s with attempts := some (n + 1#16) }
    match v with
    | .enqueued => finish true (n + 1#16) s'
    | .rejected =>
      if (n + 1#16).toNat = s.cfg.retryBudget then finish false (n + 1#16) s'
      else .next (startAttempt s')

/-- ENQ's completion (R116): DELIVERED or GAVEUP with the number of attempts. -/
def enqFinish (delivered : Bool) (n : BitVec 16) (s : State) : Out :=
  .next (complete (plainResult (if delivered then .delivered else .gaveup) (n.setWidth 32)) s)

/-- ENQ (R116): attempts until one succeeds or the budget is used; a zero budget makes none. -/
def execEnq (word : Word) (s : State) : Out :=
  match s.pc with
  | .idle =>
    if s.cfg.retryBudget = 0 then
      .next (complete (plainResult .gaveup 0#32) { s with attempts := some 0#16 })
    else .next (startAttempt { s with attempts := some 0#16 })
  | _ => attempt (fun _ k => k word) (retry enqFinish) s

/-- IDLE (R118): both pointers read, compared as raw 32-bit values. -/
def execIdle (s : State) : Out :=
  match s.pc with
  | .idle => .next (startRead .iro (paramAddr s.cfg.regCmdRead) 4 s)
  | .iro =>
    xferStep (fun s' =>
      readLatch .rx s'.rx fun rx =>
        .next (startRead .iwo (paramAddr s'.cfg.regCmdWrite) 4 { s' with roL := some (leWord rx) })) s
  | .iwo =>
    xferStep (fun s' =>
      readLatch .rx s'.rx fun rx =>
      readLatch .roL s'.roL fun ro =>
        .next (complete (plainResult .done (drained ro (leWord rx)))
          { s' with woL := some (leWord rx) })) s
  | .fault => .next s
  | _ => .fault .badPoint

end Sys2Proof.Machine
end

