-- ==== Sys2Proof/Machine/Payload.lean ====
section
/-! DEFINITION. The meanings of the payload word packer and the text-command sequencer (spec/42_payload.md):
PACK, which has no bus event, and TEXTCMD, which enqueues a fixed word sequence. -/
namespace Sys2Proof.Machine

/-- PACK's value (R35): the number of words; a number above 32 bits has no stated value (log 12). -/
def packValue (n : Nat) : Word := if n < 2 ^ 32 then BitVec.ofNat 32 n else Config.packCount n

/-- PACK's result (R131). -/
def packResult (inbytes : List Byte) : Result :=
  { status := .done, value := packValue (packLen inbytes.length), outbytes := [],
    outwords := pack inbytes }

/-- PACK (R131): completes in its ACCEPT step. -/
def execPack (inbytes : List Byte) (s : State) : Out :=
  match s.pc with
  | .idle => .next (complete (packResult inbytes) s)
  | .fault => .next s
  | _ => .fault .badPoint

/-- The result of a text command (R133, R35): the value is `{ngaveup, ndeliv}`. -/
def textResult (nd ng : BitVec 16) : Result :=
  plainResult (if ng = 0#16 then .delivered else .gaveup) (ng ++ nd)

/-- WordDone (R133): the word is counted; the command ends after its last word, or at a word given up where
ABORT_ON_GAVEUP says so (R134); else `again` starts the next word. -/
def wordDone (again : State → Out) (delivered : Bool) (s : State) : Out :=
  readLatch .ndeliv s.ndeliv fun nd =>
  readLatch .ngaveup s.ngaveup fun ng =>
  readLatch .widx s.widx fun i =>
  readLatch .words s.words fun ws =>
    let nd' := if delivered then nd + 1#16 else nd
    let ng' := if delivered then ng else ng + 1#16
    let s' := { s with ndeliv := some nd', ngaveup := some ng', widx := some (i + 1#17) }
    if (i + 1#17).toNat = ws.length ∨ (delivered = false ∧ s.cfg.abortOnGaveup = true) then
      .next (complete (textResult nd' ng') s')
    else again s'

/-- StartWord (R133). With a zero budget every word gives up at once, inside this step (R32); `fuel` is the
number of words left. -/
def startWord : Nat → State → Out
  | 0, _ => .fault .wordOutOfRange
  | fuel + 1, s =>
    let s' := { s with attempts := some 0#16 }
    if s.cfg.retryBudget = 0 then wordDone (startWord fuel) false s'
    else .next (startAttempt s')

/-- The words of a text command not yet ended. -/
def wordsLeft (s : State) : Nat :=
  match s.words, s.widx with
  | some ws, some i => ws.length - i.toNat
  | _, _ => 0

/-- StartWord for the word `widx` names. -/
def nextWord (s : State) : Out := startWord (wordsLeft s) s

/-- The word being enqueued, `words[widx]` (R107). -/
def currentWord (s : State) (k : Word → Out) : Out :=
  readLatch .words s.words fun ws =>
  readLatch .widx s.widx fun i =>
    match ws[i.toNat]? with
    | some w => k w
    | none => .fault .wordOutOfRange

/-- The latches of a text command at ACCEPT (R133): the whole word sequence is fixed here (R130). -/
def latchText (ws : List Word) (s : State) : State :=
  { s with words := some ws, widx := some 0#17, ndeliv := some 0#16, ngaveup := some 0#16 }

/-- TEXTCMD (R133): refused when it has more than 65535 words (R84), skipped when its payload is empty, else
its words enqueued one by one with a fresh budget each. -/
def execTextcmd (inwords : List Word) (inbytes : List Byte) (s : State) : Out :=
  match s.pc with
  | .idle =>
    if textFits inwords inbytes = false then .next (refuse s)
    else if inbytes = [] then .next (complete (plainResult .skipped 0#32) s)
    else nextWord (latchText (textWords inwords inbytes) s)
  | _ => attempt currentWord (retry fun delivered _ s' => wordDone nextWord delivered s') s

end Sys2Proof.Machine
end

