-- ==== Sys2Proof/Machine/Wire.lean ====
section
/-! DEFINITION. The meanings of the five wire transactions (spec/30_encoding.md R73 to R77, R89): the
transaction engine's Xfer (spec/10_state.md R31) of the transaction's bytes, one bus event a step, with no
request in progress (log 9). Inside a request the same engine takes the same events. -/
namespace Sys2Proof.Machine

/-- WIRE_READ (R73): prefix with marker 00, dummy byte, `count` captured exchanges. -/
def execWireRead (addr : WireAddr) (count : Nat) (s : State) : Out :=
  bareXfer (txRead (addr.setWidth 24) count) readCap s

/-- WIRE_WRITE (R74): prefix with marker 10 and the data bytes, nothing captured. -/
def execWireWrite (addr : WireAddr) (bytes : List Byte) (s : State) : Out :=
  bareXfer (txWrite (addr.setWidth 24) bytes) (txWrite (addr.setWidth 24) bytes).length s

/-- WIRE_HOSTCMD (R75): marker 01, then two zero bytes. -/
def execWireHostcmd (code : BitVec 6) (s : State) : Out :=
  bareXfer [markHost ++ code, 0#8, 0#8] 3 s

/-- WIRE_HOSTCMD_M11 (R77): marker 11, then two zero bytes. What the chip does with it is the environment's
(I4). -/
def execWireHostcmdM11 (code : BitVec 6) (s : State) : Out :=
  bareXfer [markReserved ++ code, 0#8, 0#8] 3 s

/-- WIRE_WAKE (R76): three zero bytes. -/
def execWireWake (s : State) : Out := bareXfer txWake 3 s

end Sys2Proof.Machine
end

