-- ==== Sys2Proof/Machine/Dispatch.lean ====
section
/-! DEFINITION. One step of an instruction: one arm per constructor of Instr, one call of its meaning. -/
namespace Sys2Proof.Machine

def exec (i : Instr) (s : State) : Host.Outcome State Fault Refusal :=
  match i with
  | .rdb addr count => Sys2Proof.Machine.execRdb addr count s
  | .wrb addr inbytes => Sys2Proof.Machine.execWrb addr inbytes s
  | .rd8 addr => Sys2Proof.Machine.execRd8 addr s
  | .rd16 addr => Sys2Proof.Machine.execRd16 addr s
  | .rd32 addr => Sys2Proof.Machine.execRd32 addr s
  | .wr8 addr value => Sys2Proof.Machine.execWr8 addr value s
  | .wr16 addr value => Sys2Proof.Machine.execWr16 addr value s
  | .wr32 addr value => Sys2Proof.Machine.execWr32 addr value s
  | .hostcmd code => Sys2Proof.Machine.execHostcmd code s
  | .wake => Sys2Proof.Machine.execWake s
  | .chkid => Sys2Proof.Machine.execChkid s
  | .tryenq word => Sys2Proof.Machine.execTryenq word s
  | .enq word => Sys2Proof.Machine.execEnq word s
  | .idle => Sys2Proof.Machine.execIdle s
  | .pack inbytes => Sys2Proof.Machine.execPack inbytes s
  | .textcmd inwords inbytes => Sys2Proof.Machine.execTextcmd inwords inbytes s
  | .wireRead addr count => Sys2Proof.Machine.execWireRead addr count s
  | .wireWrite addr bytes => Sys2Proof.Machine.execWireWrite addr bytes s
  | .wireHostcmd code => Sys2Proof.Machine.execWireHostcmd code s
  | .wireHostcmdM11 code => Sys2Proof.Machine.execWireHostcmdM11 code s
  | .wireWake => Sys2Proof.Machine.execWireWake s

end Sys2Proof.Machine
end

