-- ==== Sys2Proof/Machine/Environment.lean ====
section
/-! DEFINITION. What the agents other than the block do in one turn (spec/10_state.md R20,
spec/60_exceptions.md R153, R154, R157, R161): the requester, the chip and reset. The chip here is the
environment of R156 and R65; nothing of it is the block's. -/
namespace Sys2Proof.Machine

/-- The `write_offset` the host last wrote (R65): while a transaction is in flight the value it found, so
that a pointer write counts only when its transaction ends (log 25). After a reset that cut a pointer write
short it is the register with the bytes received so far, though the chip may hold any value there (N6, I6;
DESIGN CHOICE, log 26). -/
def seenWrite (s : State) : Option Word := if s.cs then s.woSeen else chipWrite s

/-- The word at ring position `ro`. One that would run past the window end, which a misaligned pointer alone
brings about, is unknown: what the chip takes there is any value (N5, I5; DESIGN CHOICE, log 24). -/
def ringWord (s : State) (ro : Word) : Option Word :=
  if ro.toNat % ringSize + 4 ≤ ringSize then s.mem.readWord (ringAddr s.cfg ro).toNat else none

/-- The chip's `read_offset` becomes `ro`. -/
def moveRead (ro : Word) (s : State) : State :=
  { s with mem := s.mem.writeBytes (paramAddr s.cfg.regCmdRead).toNat (le4 ro) }

/-- The chip consumes the word at `read_offset` and advances it by 4, in FIFO order (R65). With no whole word
left up to the last written `write_offset` it stands still, so that it never passes it (R65, R159); that 1 to
3 bytes are no word is the model's choice (DESIGN CHOICE, log 24). It stands still too while a byte of either
pointer has no known value, as before chip initialisation (R46, N9; DESIGN CHOICE, log 27). -/
def chipConsume (s : State) : State :=
  match chipRead s, seenWrite s with
  | some ro, some wo =>
    if (occupied wo ro).toNat < 4 then s
    else { moveRead (advance ro) s with consumed := s.consumed ++ [ringWord s ro] }
  | _, _ => s

/-- One turn of the requester, the chip or reset; the block's own turn is its step. -/
def agentTurn (t : Turn) (s : State) : State :=
  match t with
  | .block => s
  | .request r => { s with reqs := s.reqs ++ [r] }
  | .take => { s with resp := s.resp.tail }
  | .answer i => { s with draws := s.draws ++ [some i] }
  | .poke a b => { s with mem := s.mem.write a.toNat b }
  | .consume => chipConsume s
  | .advance ro => moveRead ro s
  | .reset => applyReset s

/-- Chip memory after chip initialisation (R46, R166): both pointers 0, and the device ID as after wake
(R39). -/
def chipInit (c : Config) : Memory :=
  Memory.write
    (Memory.writeBytes (Memory.writeBytes [] (paramAddr c.regCmdRead).toNat (le4 0#32))
      (paramAddr c.regCmdWrite).toNat (le4 0#32))
    (paramAddr c.regId).toNat deviceId

end Sys2Proof.Machine
end

