-- ==== Sys2Proof/Machine/Fetch.lean ====
section
/-! DEFINITION. Where the block's next step comes from. The block fetches no instructions
(spec/20_memory.md R58): at IDLE it takes the request on its request port (spec/10_state.md R24), in flight
the operation is in its latches (R25). A wire transaction placed in the engine comes first (log 9). -/
namespace Sys2Proof.Machine

/-- What the block does next. -/
inductive Fetched where
  /-- FAULT (R144), or IDLE with no request: nothing. -/
  | nothing
  /-- A request with a reserved operation code, already latched (R84). -/
  | illegal (s : State)
  /-- One step of an instruction. -/
  | run (i : Instr) (s : State)
  /-- A latch without a value, or a program point in flight of no operation. -/
  | stop (f : Fault)
  /-- The bytes in the engine are no row of R89. -/
  | noRow
deriving DecidableEq, Repr

/-- The request in the latches (R25). -/
def latchedRequest (s : State) : Except Fault Request :=
  match s.op, s.addr, s.data, s.inbytes, s.inwords with
  | some op, some addr, some data, some bs, some ws =>
    .ok { q := reqWord op addr data, inbytes := bs, inwords := ws }
  | none, _, _, _, _ => .error (.latchNoValue .op)
  | _, none, _, _, _ => .error (.latchNoValue .addr)
  | _, _, none, _, _ => .error (.latchNoValue .data)
  | _, _, _, none, _ => .error (.latchNoValue .inbytes)
  | _, _, _, _, none => .error (.latchNoValue .inwords)

/-- The request `r` is taken off the port and latched (R21, R24). -/
def takeRequest (r : Request) (rest : List Request) (s : State) : State :=
  latchRequest r { s with reqs := rest }

/-- At IDLE: the request on the port, if there is one. -/
def fetchRequest (s : State) : Fetched :=
  match s.reqs with
  | [] => .nothing
  | r :: rest =>
    match decodeRequest r with
    | .ok i => .run i (takeRequest r rest s)
    | .error _ => .illegal (takeRequest r rest s)

/-- In flight: the operation of the latched request. -/
def fetchLatched (s : State) : Fetched :=
  match latchedRequest s with
  | .error f => .stop f
  | .ok r =>
    match decodeRequest r with
    | .ok i => .run i s
    | .error _ => .stop .badPoint

/-- What the block does next. -/
def fetch (s : State) : Fetched :=
  match s.pc with
  | .fault => .nothing
  | p =>
    match s.wire with
    | some bytes =>
      match decodeWire bytes with
      | .ok i => .run i s
      | .error _ => .noRow
    | none =>
      match p with
      | .idle => fetchRequest s
      | _ => fetchLatched s

/-- `s` with an encoded instruction where the block's next step takes it: a request at the head of the
request port of an idle block, or a wire transaction in its engine. The block has the next turn. -/
def placeNext (e : Encoded) (s : State) : State :=
  match e with
  | .request r => { s with pc := .idle, reqs := r :: s.reqs, wire := none, sched := [] }
  | .wire bytes => { s with pc := .idle, wire := some bytes, sched := [] }

end Sys2Proof.Machine
end

