-- ==== Sys2Proof/Machine/Step.lean ====
section
/-! DEFINITION. One step of the machine (spec/10_state.md R32, spec/60_exceptions.md R157): the next turn of
the schedule, which is the block's where the schedule is empty. -/
namespace Sys2Proof.Machine

/-- One step of the block: one bus event or one ACCEPT (R32). -/
def blockStep (s : State) : Host.Outcome State Fault Refusal :=
  match fetch s with
  | .nothing => .next s
  | .illegal s' => .next (refuse s')
  | .run i s' => exec i s'
  | .stop f => .fault f
  | .noRow => .refused .noWireRow

/-- One step of the machine. -/
def step (s : State) : Host.Outcome State Fault Refusal :=
  match s.sched with
  | [] => blockStep s
  | .block :: rest => blockStep { s with sched := rest }
  | t :: rest => .next (agentTurn t { s with sched := rest })

/-- `s` with the instruction of a row's word of spec/opcode_table.json where `step` takes its next
instruction (log 4, log 9). -/
def State.withFetchWord (s : State) (nbits w : Nat) : State := placeNext (tableEncoded nbits w) s

end Sys2Proof.Machine
end

