-- ==== Sys2Proof/Machine/Asm.lean ====
section
/-! DEFINITION. The assembler of request programs (spec/30_encoding.md R87, R88): one line of text to the
requests it stands for. It is the requester's; nothing the block does depends on it (D24). -/
namespace Sys2Proof.Machine

/-- A token of a line. -/
inductive Token where
  | num (n : Nat)
  | name (s : List Char)
  | text (s : List Byte)
  | comma
  | openList
  | closeList
deriving DecidableEq, Repr

/-- The digit a character stands for, where it is below the base. -/
def digit (base : Nat) (c : Char) : Option Nat :=
  let n := c.toNat
  let d := if 48 ≤ n ∧ n ≤ 57 then n - 48
    else if 97 ≤ n ∧ n ≤ 102 then n - 87
    else if 65 ≤ n ∧ n ≤ 70 then n - 55
    else base
  if d < base then some d else none

/-- A numeral; an underscore is only a visual separator (R12). -/
def numeral (base : Nat) : Nat → List Char → Option Nat
  | acc, [] => some acc
  | acc, c :: cs =>
    if c = '_' then numeral base acc cs
    else match digit base c with
      | some d => numeral base (acc * base + d) cs
      | none => none

/-- A word of a line: a decimal or 0x numeral, or a name. -/
def wordToken : List Char → Option Token
  | '0' :: 'x' :: c :: cs => (numeral 16 0 (c :: cs)).map .num
  | c :: cs => if c.isDigit then (numeral 10 0 (c :: cs)).map .num else some (.name (c :: cs))
  | [] => none

/-- Where the lexer stands. -/
inductive LexState where
  | between
  | word (acc : List Char)
  | text (acc : List Byte)
  | escape (acc : List Byte)
deriving DecidableEq, Repr

/-- The token that a punctuation character is, with none for a space. -/
def punctuation (c : Char) : Option (List Token) :=
  if c = ' ' ∨ c = '\t' then some []
  else if c = ',' then some [.comma]
  else if c = '[' then some [.openList]
  else if c = ']' then some [.closeList]
  else none

/-- The tokens of a line (R87). A semicolon outside a text literal begins a comment; a text literal is its
ASCII bytes, with `\0` for a 0x00 byte. A backslash before another character is its own ASCII byte, and none
can escape the closing quote: R87 names no other escape (DESIGN CHOICE, log 23). -/
def lex : LexState → List Char → Option (List Token)
  | .between, [] => some []
  | .word acc, [] => (wordToken acc).map ([·])
  | .text _, [] => none
  | .escape _, [] => none
  | .between, c :: cs =>
    if c = ';' then some []
    else if c = '"' then lex (.text []) cs
    else match punctuation c with
      | some ts => (lex .between cs).map (ts ++ ·)
      | none => lex (.word [c]) cs
  | .word acc, c :: cs =>
    if c = ';' then (wordToken acc).map ([·])
    else match punctuation c with
      | some ts => (wordToken acc).bind fun t => (lex .between cs).map ((t :: ts) ++ ·)
      | none => lex (.word (acc ++ [c])) cs
  | .text acc, c :: cs =>
    if c = '"' then (lex .between cs).map (.text acc :: ·)
    else if c = '\\' then lex (.escape acc) cs
    else if c.toNat < 128 then lex (.text (acc ++ [BitVec.ofNat 8 c.toNat])) cs
    else none
  | .escape acc, c :: cs =>
    if c = '0' then lex (.text (acc ++ [0#8])) cs
    else if c = '"' then (lex .between cs).map (.text (acc ++ [0x5C#8]) :: ·)
    else if c = '\\' then lex (.escape (acc ++ [0x5C#8])) cs
    else if c.toNat < 128 then lex (.text (acc ++ [0x5C#8, BitVec.ofNat 8 c.toNat])) cs
    else none

/-- The value of a parameter of R10 by its name: the configured ones and the ones the source fixes, every one
that is a number. DIVERGENCE_POLICY and ABORT_ON_GAVEUP are none, and their names are no operands (R87 lists
two names and leaves the rest to its dots; DESIGN CHOICE, log 22). -/
def parameterValue (c : Config) (s : List Char) : Option Nat :=
  if s = "CMD_BUF_BASE".toList then some c.cmdBufBase
  else if s = "REG_CMD_READ_ADDR".toList then some c.regCmdRead
  else if s = "REG_CMD_WRITE_ADDR".toList then some c.regCmdWrite
  else if s = "REG_ID_ADDR".toList then some c.regId
  else if s = "REG_TOUCH_TAG_ADDR".toList then some c.regTouchTag
  else if s = "RETRY_BUDGET".toList then some c.retryBudget
  else if s = "ADDR_BITS".toList then some 24
  else if s = "WIRE_ADDR_BITS".toList then some 22
  else if s = "PTR_BITS".toList then some 32
  else if s = "RING_SIZE".toList then some ringSize
  else if s = "WORD_BYTES".toList then some wordBytes.toNat
  else if s = "HEADROOM".toList then some headroom.toNat
  else if s = "DEVICE_ID_EXPECTED".toList then some deviceId.toNat
  else none

/-- A number, or the value of a parameter name (R87). -/
def tokenValue (c : Config) : Token → Option Nat
  | .num n => some n
  | .name s => parameterValue c s
  | .text _ => none
  | .comma => none
  | .openList => none
  | .closeList => none

/-- A value of at most `bits` bits; a wider one is no operand (log 14). -/
def sized (bits : Nat) (v : Option Nat) : Option (BitVec bits) :=
  v.bind fun n => if n < 2 ^ bits then some (BitVec.ofNat bits n) else none

/-- Comma-separated values of `bits` bits up to the end of the tokens. -/
def values (c : Config) (bits : Nat) : List Token → Option (List (BitVec bits))
  | [t] => (sized bits (tokenValue c t)).map ([·])
  | t :: .comma :: ts => (sized bits (tokenValue c t)).bind fun v => (values c bits ts).map (v :: ·)
  | _ => none

/-- A bracketed list and what follows it. -/
def splitList : List Token → List Token → Option (List Token × List Token)
  | acc, .closeList :: ts => some (acc, ts)
  | acc, t :: ts => splitList (acc ++ [t]) ts
  | _, [] => none

/-- The values between brackets, none or more. -/
def listValues (c : Config) (bits : Nat) (ts : List Token) : Option (List (BitVec bits)) :=
  if ts = [] then some [] else values c bits ts

/-- A payload: a text literal, or a byte list, to the end of the line (R87). -/
def payload (c : Config) : List Token → Option (List Byte)
  | [.text s] => some s
  | .openList :: ts =>
    (splitList [] ts).bind fun (inside, rest) => if rest = [] then listValues c 8 inside else none
  | _ => none

/-- A chip address operand; bits above 23 are dropped (R21, R48). -/
def addrValue (c : Config) (t : Token) : Option Addr := (tokenValue c t).map (BitVec.ofNat 24)

/-- The operation codes of the lines whose only operand is an address (R87). -/
def addrOp (m : List Char) : Option (BitVec 8) :=
  if m = "RD8".toList then some 0x03#8
  else if m = "RD16".toList then some 0x04#8
  else if m = "RD32".toList then some 0x05#8
  else none

/-- The operation codes of the lines with an address and a value (R87). -/
def addrDataOp (m : List Char) : Option (BitVec 8) :=
  if m = "RDB".toList then some 0x01#8
  else if m = "WR8".toList then some 0x06#8
  else if m = "WR16".toList then some 0x07#8
  else if m = "WR32".toList then some 0x08#8
  else none

/-- The operation codes of the lines with a value only (R87). -/
def dataOp (m : List Char) : Option (BitVec 8) :=
  if m = "HOSTCMD".toList then some 0x09#8
  else if m = "TRYENQ".toList then some 0x10#8
  else if m = "ENQ".toList then some 0x11#8
  else none

/-- The operation codes of the lines without operands (R87). -/
def bareOp (m : List Char) : Option (BitVec 8) :=
  if m = "WAKE".toList then some 0x0A#8
  else if m = "CHKID".toList then some 0x0B#8
  else if m = "IDLE".toList then some 0x12#8
  else none

/-- The pseudo-instruction CMD (R88): one ENQ request per word, in order. -/
def cmdRequests (ws : List Word) : List Request := ws.map (plainRequest 0x11#8 0#24)

/-- The lines with byte or word lists (R87, R88). -/
def assembleLists (c : Config) (m : List Char) (ts : List Token) : Option (List Request) :=
  if m = "WRB".toList then
    match ts with
    | a :: .comma :: .openList :: rest =>
      (addrValue c a).bind fun addr =>
        (payload c (.openList :: rest)).map fun bs =>
          [{ plainRequest 0x02#8 addr 0#32 with inbytes := bs }]
    | _ => none
  else if m = "PACK".toList then
    (payload c ts).map fun bs => [{ plainRequest 0x20#8 0#24 0#32 with inbytes := bs }]
  else if m = "TEXTCMD".toList then
    match ts with
    | .openList :: rest =>
      (splitList [] rest).bind fun (inside, after) =>
        match after with
        | .comma :: p =>
          (listValues c 32 inside).bind fun ws =>
            (payload c p).map fun bs =>
              [{ plainRequest 0x21#8 0#24 0#32 with inwords := ws, inbytes := bs }]
        | _ => none
    | _ => none
  else if m = "CMD".toList then (values c 32 ts).map cmdRequests
  else none

/-- The requests of a line's tokens. -/
def assembleTokens (c : Config) : List Token → Option (List Request)
  | [] => some []
  | .name m :: ts =>
    match addrOp m, addrDataOp m, dataOp m, bareOp m, ts with
    | some op, _, _, _, [a] => (addrValue c a).map fun addr => [plainRequest op addr 0#32]
    | _, some op, _, _, [a, .comma, v] =>
      (addrValue c a).bind fun addr =>
        (sized 32 (tokenValue c v)).map fun d => [plainRequest op addr d]
    | _, _, some op, _, [v] => (sized 32 (tokenValue c v)).map fun d => [plainRequest op 0#24 d]
    | _, _, _, some op, [] => some [plainRequest op 0#24 0#32]
    | _, _, _, _, _ => assembleLists c m ts
  | _ => none

/-- The requests of one line of a request program (R87); `none` where the line is none. -/
def assembleLine (c : Config) (line : String) : Option (List Request) :=
  (lex .between line.toList).bind (assembleTokens c)

/-- The requests of a request program, line by line (R87). -/
def assemble (c : Config) : List String → Option (List Request)
  | [] => some []
  | l :: ls => (assembleLine c l).bind fun rs => (assemble c ls).map (rs ++ ·)

end Sys2Proof.Machine
end

