-- ==== Sys2Proof/Safety.lean ====
section
/-! DEFINITION. What counts as a safe run, in the terms claims use: the end of a run and its observation
(spec/10_state.md R47), the machine's invariant, well-framed bus traces (R31), the step bounds of
spec/60_exceptions.md R162, and the named assumptions about the environment (R156 to R160), which are
premises of a claim and never built into the machine. -/
namespace Sys2Proof

/-! ## Families of instructions -/

/-- The eleven framing operations (spec/40_framing.md). -/
def Instr.isFraming : Instr → Bool
  | .rdb _ _ => true
  | .wrb _ _ => true
  | .rd8 _ => true
  | .rd16 _ => true
  | .rd32 _ => true
  | .wr8 _ _ => true
  | .wr16 _ _ => true
  | .wr32 _ _ => true
  | .hostcmd _ => true
  | .wake => true
  | .chkid => true
  | .tryenq _ => false
  | .enq _ => false
  | .idle => false
  | .pack _ => false
  | .textcmd _ _ => false
  | .wireRead _ _ => false
  | .wireWrite _ _ => false
  | .wireHostcmd _ => false
  | .wireHostcmdM11 _ => false
  | .wireWake => false

/-- The five wire transactions (spec/30_encoding.md R89). -/
def Instr.isWire : Instr → Bool
  | .wireRead _ _ => true
  | .wireWrite _ _ => true
  | .wireHostcmd _ => true
  | .wireHostcmdM11 _ => true
  | .wireWake => true
  | .rdb _ _ => false
  | .wrb _ _ => false
  | .rd8 _ => false
  | .rd16 _ => false
  | .rd32 _ => false
  | .wr8 _ _ => false
  | .wr16 _ _ => false
  | .wr32 _ _ => false
  | .hostcmd _ => false
  | .wake => false
  | .chkid => false
  | .tryenq _ => false
  | .enq _ => false
  | .idle => false
  | .pack _ => false
  | .textcmd _ _ => false

end Sys2Proof

namespace Sys2Proof.Machine

/-! ## Runs and their observation (R47) -/

/-- The fault register is clear, the premise R140 asks every claim to take. -/
def State.clean (s : State) : Bool := decide (s.fault = 0#4)

/-- A turn in which the requester issues a request. -/
def Turn.isRequest : Turn → Bool
  | .request _ => true
  | .block => false
  | .take => false
  | .answer _ => false
  | .poke _ _ => false
  | .consume => false
  | .advance _ => false
  | .reset => false

/-- A turn of the chip (R154). -/
def Turn.isChip : Turn → Bool
  | .poke _ _ => true
  | .consume => true
  | .advance _ => true
  | .block => false
  | .request _ => false
  | .take => false
  | .answer _ => false
  | .reset => false

/-- The end of a run (R47): no further request and `pc` at IDLE. A state at FAULT is never an end. -/
def State.ended (s : State) : Bool :=
  decide (s.pc = .idle) && s.reqs.isEmpty && !s.sched.any Turn.isRequest

/-- The observation of a run (R47). -/
def State.observed (s : State) : List Result × List BusEvent × BitVec 4 := (s.results, s.trace, s.fault)

/-- Whether chip-select is asserted after a list of bus events, where every event is at its place: SEL only
while deasserted, exchanges and DESEL only while asserted. -/
def busOpen : Bool → List BusEvent → Option Bool
  | o, [] => some o
  | false, .sel :: t => busOpen true t
  | true, .x _ _ :: t => busOpen true t
  | true, .desel :: t => busOpen false t
  | true, .sel :: _ => none
  | false, .x _ _ :: _ => none
  | false, .desel :: _ => none

/-- The bus trace is well framed and ends as the chip-select latch says (R31, R70). -/
def State.wellFramed (s : State) : Prop := busOpen false s.trace = some s.cs

/-- The bus events of one complete transaction that sends `bytes` and receives `answers` (R31). -/
def busEvents (bytes answers : List Byte) : List BusEvent :=
  .sel :: List.zipWith .x bytes answers ++ [.desel]

/-- The bytes in the engine are one of the five wire rows (R77, R89). -/
def State.engineRow (s : State) : Prop :=
  ∀ bytes, s.txs = some bytes → ∃ i, decodeWire bytes = .ok i

/-- `n` steps of the machine, stopping at the first fault or refusal. -/
def runSteps : Nat → State → Out
  | 0, s => .next s
  | n + 1, s =>
    match step s with
    | .next t => runSteps n t
    | .fault f => .fault f
    | .refused r => .refused r

/-- An idle block with the request `r` on its port, chip-select deasserted and the block to move; the
environment answers the coming exchanges with `answers`. -/
def offered (r : Request) (answers : List Byte) (s : State) : Prop :=
  s.pc = .idle ∧ s.cs = false ∧ s.sched = [] ∧ s.wire = none ∧ s.reqs.head? = some r ∧
    answers.map some <+: s.draws

/-- `n` steps serve the request on the port: the bus events are `events`, the one result is `r`, chip memory
is `m`, and the block is idle again with its fault register, its parameters and the waiting requests as they
were. -/
def served (n : Nat) (events : List BusEvent) (r : Result) (m : Memory) (s : State) : Prop :=
  ∃ t, runSteps n s = .next t ∧ t.pc = .idle ∧ t.cs = false ∧ t.trace = s.trace ++ events ∧
    t.results = s.results ++ [r] ∧ t.resp = s.resp ++ [r] ∧ t.fault = s.fault ∧ t.cfg = s.cfg ∧
    t.reqs = s.reqs.tail ∧ t.mem = m

/-- The DESEL step of the transaction in flight at the program point `p` is next: every byte is exchanged
and `rx` was captured. -/
def atDesel (p : Pc) (rx : List Byte) (s : State) : Prop :=
  s.pc = p ∧ s.cs = true ∧ s.rx = some rx ∧ ∃ bytes, s.txs = some bytes ∧ s.txpos = some bytes.length

/-- The state after a DESEL step that delivers `r` and returns to IDLE. -/
def resultState (r : Result) (s : State) : State :=
  { s with
    cs := false, trace := s.trace ++ [.desel], pc := .idle,
    results := s.results ++ [r], resp := s.resp ++ [r] }

/-- `s` with the transaction of `bytes` set up for the program point `p`, capturing from `cap` on. -/
def loaded (p : Pc) (bytes : List Byte) (cap : Nat) (s : State) : State :=
  { s with pc := p, txs := some bytes, txfrom := some cap, txpos := some 0, rx := some [] }

/-- `s` after the bus event DESEL. -/
def deselected (s : State) : State := { s with cs := false, trace := s.trace ++ [.desel] }

/-- The address of the chip byte that the next bus event stores, if it stores one: the exchange of the next
byte of a transaction in flight. -/
def busStore (s : State) : Option Nat :=
  match s.cs, s.txs, s.txpos with
  | true, some bytes, some i => if i < bytes.length then storeAddr (bytes.take i) else none
  | _, _, _ => none

/-! ## The invariant -/

/-- The operation codes of the framing operations (R81). -/
def framingOps : List (BitVec 8) :=
  [0x01#8, 0x02#8, 0x03#8, 0x04#8, 0x05#8, 0x06#8, 0x07#8, 0x08#8, 0x09#8, 0x0A#8, 0x0B#8]

/-- The operation codes of R81. -/
def allOps : List (BitVec 8) := framingOps ++ [0x10#8, 0x11#8, 0x12#8, 0x20#8, 0x21#8]

/-- The request latches hold a request. -/
def latched (s : State) : Bool :=
  s.op.isSome && s.addr.isSome && s.data.isSome && s.inbytes.isSome && s.inwords.isSome

/-- The latched operation is one of `ops`. -/
def opAmong (ops : List (BitVec 8)) (s : State) : Bool :=
  match s.op with
  | some o => ops.contains o
  | none => false

/-- The engine's latches hold a transaction and its index is not past its end (R30). -/
def engineReady (s : State) : Bool :=
  match s.txs, s.txfrom, s.txpos, s.rx with
  | some bytes, some _, some i, some _ => decide (i ≤ bytes.length)
  | _, _, _, _ => false

/-- Fewer attempts made than the budget (R115). -/
def attemptsBelow (s : State) : Bool :=
  match s.attempts with
  | some n => decide (n.toNat < s.cfg.retryBudget)
  | none => false

/-- The latches of a text command in flight: an index inside the word list, at most 65535 words, and the two
counts summing to the index (R133). -/
def textReady (s : State) : Bool :=
  match s.words, s.widx, s.ndeliv, s.ngaveup with
  | some ws, some i, some nd, some ng =>
    decide (i.toNat < ws.length) && decide (ws.length ≤ 65535)
      && decide (nd.toNat + ng.toNat = i.toNat)
  | _, _, _, _ => false

/-- An attempt in flight belongs to TRYENQ, ENQ or TEXTCMD and its counters hold values (R107, R115). -/
def ringReady (s : State) : Bool :=
  engineReady s && latched s && s.wire.isNone
    && (opAmong [0x10#8] s || (opAmong [0x11#8] s && attemptsBelow s)
        || (opAmong [0x21#8] s && attemptsBelow s && textReady s))

/-- What each program point needs in the latches (R26, R29), and chip-select deasserted at IDLE and FAULT
(R143). -/
def pointReady (s : State) : Bool :=
  match s.pc with
  | .idle => !s.cs
  | .fault => !s.cs
  | .fx => engineReady s && (s.wire.isSome || (latched s && opAmong framingOps s))
  | .qro => ringReady s
  | .qwo => ringReady s && s.roL.isSome
  | .qww => ringReady s && s.woL.isSome
  | .qwp => ringReady s && s.woL.isSome
  | .iro => engineReady s && latched s && opAmong [0x12#8] s && s.wire.isNone
  | .iwo => engineReady s && latched s && opAmong [0x12#8] s && s.wire.isNone && s.roL.isSome

/-- A wire transaction without a request is a row of R89 and stands at IDLE or F_X (log 9). -/
def wireReady (s : State) : Bool :=
  match s.wire with
  | some bytes =>
    (match decodeWire bytes with
      | .ok _ => true
      | .error _ => false)
      && (decide (s.pc = .idle) || decide (s.pc = .fx))
  | none => true

/-- The fault register agrees with the program point: bit 3 reads 0 (R33), and bit 1 or 2 is set exactly in
FAULT (R143, R144). -/
def faultReady (s : State) : Bool :=
  !s.fault.getLsbD 3 && (decide (s.pc = .fault) == (s.fault.getLsbD 1 || s.fault.getLsbD 2))

/-- The invariant of the machine. -/
structure Inv (s : State) : Prop where
  /-- Outside FAULT the configuration is valid (R142). -/
  config : s.pc ≠ .fault → configValid s.cfg = true
  /-- The latches hold what the program point needs (R26). -/
  point : pointReady s = true
  /-- A transaction without a request is a wire row. -/
  row : wireReady s = true
  /-- The fault register agrees with the program point. -/
  faults : faultReady s = true
  /-- Chip memory is in canonical form. -/
  memory : s.mem.wf = true

/-! ## Frames -/

/-- The parameters, the waiting requests, the request latches, the chip's consumed words, the schedule and
the engine's placed transaction are the same. -/
def sameAround (s t : State) : Prop :=
  t.cfg = s.cfg ∧ t.reqs = s.reqs ∧ t.op = s.op ∧ t.addr = s.addr ∧ t.data = s.data ∧
    t.inbytes = s.inbytes ∧ t.inwords = s.inwords ∧ t.consumed = s.consumed ∧ t.sched = s.sched

/-- The latches of the ring controller are the same (R105). -/
def sameRing (s t : State) : Prop :=
  t.roL = s.roL ∧ t.woL = s.woL ∧ t.occ = s.occ ∧ t.free = s.free ∧ t.attempts = s.attempts

/-- The latches of the text-command sequencer are the same. -/
def sameText (s t : State) : Prop :=
  t.words = s.words ∧ t.widx = s.widx ∧ t.ndeliv = s.ndeliv ∧ t.ngaveup = s.ngaveup

/-- The engine's latches are the same. -/
def sameEngine (s t : State) : Prop :=
  t.cs = s.cs ∧ t.txs = s.txs ∧ t.txfrom = s.txfrom ∧ t.txpos = s.txpos ∧ t.rx = s.rx

/-- Every byte of chip memory is the same but the one the bus event stores, and what the chip's consumer goes
by changes at SEL only (log 25). -/
def sameMemory (s t : State) : Prop :=
  (∀ x, busStore s ≠ some x → t.mem.read x = s.mem.read x) ∧
    (t.woSeen = s.woSeen ∨ s.cs = false ∧ t.woSeen = chipWrite s)

/-! ## Step bounds (R162) -/

/-- The most steps one word's enqueue takes, for a budget of at least 1. -/
def wordBound (budget : Nat) : Nat := 20 * (budget - 1) + 38

/-- The bound of R162 on the steps of a request, the ACCEPT step counted; for a wire transaction, one step
per bus event. -/
def stepBound (c : Config) : Instr → Nat
  | .rdb _ n => n.toNat + 7
  | .wrb _ bs => if wrbFits bs then bs.length + 6 else 1
  | .rd8 _ => 8
  | .rd16 _ => 9
  | .rd32 _ => 11
  | .wr8 _ _ => 7
  | .wr16 _ _ => 8
  | .wr32 _ _ => 10
  | .hostcmd _ => 6
  | .wake => 6
  | .chkid => 8
  | .tryenq _ => 39
  | .enq _ => if c.retryBudget = 0 then 1 else 1 + wordBound c.retryBudget
  | .idle => 21
  | .pack _ => 1
  | .textcmd ws bs =>
    if textFits ws bs = false ∨ bs = [] ∨ c.retryBudget = 0 then 1
    else 1 + (textWords ws bs).length * wordBound c.retryBudget
  | .wireRead _ n => n + 6
  | .wireWrite _ bs => bs.length + 5
  | .wireHostcmd _ => 5
  | .wireHostcmdM11 _ => 5
  | .wireWake => 5

/-! ## Assumptions about the environment (premises of a claim, R153)

Each is about one state and its next turn; a claim about a run takes it `throughout` the run (log 20). -/

/-- `P` holds of every state the run from `s` reaches. -/
def throughout (P : State → Prop) (s : State) : Prop := ∀ n t, runSteps n s = .next t → P t

/-- The next turn of `s` is the chip's and leaves `t`. -/
def chipTurn (s t : State) : Prop :=
  ∃ a rest, s.sched = a :: rest ∧ a.isChip = true ∧ t = agentTurn a { s with sched := rest }

/-- The address `x` is inside the ring window (R38). -/
def inRing (c : Config) (x : Nat) : Prop := c.cmdBufBase ≤ x ∧ x < c.cmdBufBase + ringSize

/-- The address `x` is one of the four bytes of the register at `r`. -/
def inRegister (r x : Nat) : Prop := r ≤ x ∧ x < r + 4

/-- R156, the read model: where the chip has a byte for the next exchange, that byte is received. Prefix,
dummy and write-phase answers are not constrained. -/
def readModel (s : State) : Prop :=
  ∀ bytes i b, s.cs = true → s.txs = some bytes → s.txpos = some i → i < bytes.length →
    chipAnswer s.mem (bytes.take i) = some b → received s (bytes.take i) = b

/-- A read in flight has received the first data byte of the register at `r` and not yet its fourth. -/
def midRead (r : Nat) (s : State) : Prop :=
  s.cs = true ∧ ∃ bytes i, s.txs = some bytes ∧ s.txpos = some i ∧ sentMarker bytes = markRead ∧
    sentAddr bytes ≤ r ∧ 4 + (r - sentAddr bytes) + 4 ≤ bytes.length ∧
    4 + (r - sentAddr bytes) < i ∧ i < 4 + (r - sentAddr bytes) + 4

/-- R158, the snapshot: between the first and the last data byte of a read of a pointer register the chip
does not change that register. -/
def snapshot (s : State) : Prop :=
  ∀ t, chipTurn s t → ∀ r, r = s.cfg.regCmdRead ∨ r = s.cfg.regCmdWrite → midRead r s →
    ∀ x, inRegister r x → t.mem.read x = s.mem.read x

/-- R159, the monotone consumer (R120 restates it): `read_offset` moves only forward, and never past the
`write_offset` the host last wrote. It binds the next step whoever takes it, the chip's turns and a host write
to `read_offset` alike, whose bytes count as they arrive (log 10, log 20). -/
def monotoneConsumer (s : State) : Prop :=
  ∀ t ro ro' wo, step s = .next t → chipRead s = some ro → chipRead t = some ro' → seenWrite s = some wo →
    (occupied wo ro').toNat ≤ (occupied wo ro).toNat

/-- R160, the single writer, the chip's part: no turn of the chip writes `write_offset` or the ring window. -/
def singleWriter (s : State) : Prop :=
  ∀ t, chipTurn s t → ∀ x, inRegister s.cfg.regCmdWrite x ∨ inRing s.cfg x →
    t.mem.read x = s.mem.read x

/-- R160, R161, R170, the requester's part: no framing operation and no wire transaction (both stand at F_X)
stores its next byte in `write_offset` or the ring window. -/
def noBypass (s : State) : Prop :=
  s.pc = .fx → ∀ x, busStore s = some x → ¬ inRegister s.cfg.regCmdWrite x ∧ ¬ inRing s.cfg x

/-- The bytes occupied in the chip's ring, where its pointers are known (R42, R120). -/
def chipOccupied (s : State) : Option Nat :=
  match chipRead s, chipWrite s with
  | some ro, some wo => some (occupied wo ro).toNat
  | _, _ => none

/-- R169, the precondition of the ring controller's guarantees: equal, aligned pointers. -/
def ringStart (s : State) : Prop :=
  ∃ p : Word, chipRead s = some p ∧ chipWrite s = some p ∧ p.toNat % 4 = 0

/-- The ring window and the two pointer registers do not overlap (not required by D9, so a premise). -/
def apart (c : Config) : Prop :=
  (c.regCmdRead + 4 ≤ c.regCmdWrite ∨ c.regCmdWrite + 4 ≤ c.regCmdRead)
    ∧ (c.regCmdRead + 4 ≤ c.cmdBufBase ∨ c.cmdBufBase + ringSize ≤ c.regCmdRead)
    ∧ (c.regCmdWrite + 4 ≤ c.cmdBufBase ∨ c.cmdBufBase + ringSize ≤ c.regCmdWrite)
    ∧ c.regCmdRead + 4 ≤ chipSpace ∧ c.regCmdWrite + 4 ≤ chipSpace

end Sys2Proof.Machine
end

