-- ==== Sys2Proof/Certificates/Slice0/Obligations.lean ====
section
/-! DEFINITION. The statements for the provers, from the numbered rules of spec/. Each docstring names the
rules a statement formalises. -/
open Sys2Proof Sys2Proof.Machine

/-! ## Encodings and operand forms -/

/-- R80, R81, R89: decoding an instruction's encoding gives the instruction back, for every instruction. -/
def Obligations.DecodeOfEncodeIsInstruction : Prop :=
  ∀ i : Instr, decode (encode i) = .ok i

/-- R81, R82: the operation code selects the operation, and a field or list the operation does not use has no
influence. -/
def Obligations.OpcodeSelectsOperation : Prop :=
  ∀ (a : Addr) (d : Word) (bs : List Byte) (ws : List Word),
    decodeRequest ⟨reqWord 0x01#8 a d, bs, ws⟩ = .ok (.rdb a d) ∧
    decodeRequest ⟨reqWord 0x02#8 a d, bs, ws⟩ = .ok (.wrb a bs) ∧
    decodeRequest ⟨reqWord 0x03#8 a d, bs, ws⟩ = .ok (.rd8 a) ∧
    decodeRequest ⟨reqWord 0x04#8 a d, bs, ws⟩ = .ok (.rd16 a) ∧
    decodeRequest ⟨reqWord 0x05#8 a d, bs, ws⟩ = .ok (.rd32 a) ∧
    decodeRequest ⟨reqWord 0x06#8 a d, bs, ws⟩ = .ok (.wr8 a (d.setWidth 8)) ∧
    decodeRequest ⟨reqWord 0x07#8 a d, bs, ws⟩ = .ok (.wr16 a (d.setWidth 16)) ∧
    decodeRequest ⟨reqWord 0x08#8 a d, bs, ws⟩ = .ok (.wr32 a d) ∧
    decodeRequest ⟨reqWord 0x09#8 a d, bs, ws⟩ = .ok (.hostcmd (d.setWidth 8)) ∧
    decodeRequest ⟨reqWord 0x0A#8 a d, bs, ws⟩ = .ok .wake ∧
    decodeRequest ⟨reqWord 0x0B#8 a d, bs, ws⟩ = .ok .chkid ∧
    decodeRequest ⟨reqWord 0x10#8 a d, bs, ws⟩ = .ok (.tryenq d) ∧
    decodeRequest ⟨reqWord 0x11#8 a d, bs, ws⟩ = .ok (.enq d) ∧
    decodeRequest ⟨reqWord 0x12#8 a d, bs, ws⟩ = .ok .idle ∧
    decodeRequest ⟨reqWord 0x20#8 a d, bs, ws⟩ = .ok (.pack bs) ∧
    decodeRequest ⟨reqWord 0x21#8 a d, bs, ws⟩ = .ok (.textcmd ws bs)

/-- R85: every request decodes to one of the sixteen operations, with its fields, or is rejected as reserved, by
its operation code alone, and it is never a wire transaction. -/
def Obligations.EveryRequestWordHasOneReading : Prop :=
  ∀ r : Request,
    (reqOp r.q ∈ allOps →
      ∃ i, decodeRequest r = .ok i ∧ i.opcode = some (reqOp r.q) ∧ i.isWire = false) ∧
    (reqOp r.q ∉ allOps → decodeRequest r = .error (.reservedOp (reqOp r.q))) ∧
    (reqOp r.q = 0x01#8 → decodeRequest r = .ok (.rdb (reqAddr r.q) (reqData r.q))) ∧
    (reqOp r.q = 0x02#8 → decodeRequest r = .ok (.wrb (reqAddr r.q) r.inbytes)) ∧
    (reqOp r.q = 0x03#8 → decodeRequest r = .ok (.rd8 (reqAddr r.q))) ∧
    (reqOp r.q = 0x04#8 → decodeRequest r = .ok (.rd16 (reqAddr r.q))) ∧
    (reqOp r.q = 0x05#8 → decodeRequest r = .ok (.rd32 (reqAddr r.q))) ∧
    (reqOp r.q = 0x06#8 → decodeRequest r = .ok (.wr8 (reqAddr r.q) ((reqData r.q).setWidth 8))) ∧
    (reqOp r.q = 0x07#8 → decodeRequest r = .ok (.wr16 (reqAddr r.q) ((reqData r.q).setWidth 16))) ∧
    (reqOp r.q = 0x08#8 → decodeRequest r = .ok (.wr32 (reqAddr r.q) (reqData r.q))) ∧
    (reqOp r.q = 0x09#8 → decodeRequest r = .ok (.hostcmd ((reqData r.q).setWidth 8))) ∧
    (reqOp r.q = 0x0A#8 → decodeRequest r = .ok .wake) ∧
    (reqOp r.q = 0x0B#8 → decodeRequest r = .ok .chkid) ∧
    (reqOp r.q = 0x10#8 → decodeRequest r = .ok (.tryenq (reqData r.q))) ∧
    (reqOp r.q = 0x11#8 → decodeRequest r = .ok (.enq (reqData r.q))) ∧
    (reqOp r.q = 0x12#8 → decodeRequest r = .ok .idle) ∧
    (reqOp r.q = 0x20#8 → decodeRequest r = .ok (.pack r.inbytes)) ∧
    (reqOp r.q = 0x21#8 → decodeRequest r = .ok (.textcmd r.inwords r.inbytes))

/-- R73 to R77, R89: the bytes of every transaction the block sends decode as their row of the wire space. -/
def Obligations.SentBytesDecodeAsTheirRow : Prop :=
  ∀ (a : Addr) (n : Nat) (s : List Byte) (code : Byte),
    decodeWire (txRead a n) = .ok (.wireRead (a.setWidth 22) n) ∧
    decodeWire (txWrite a s) = .ok (.wireWrite (a.setWidth 22) s) ∧
    decodeWire (txHost code) =
      .ok (if code.getLsbD 7 then .wireHostcmdM11 ((code ||| 0x40#8).setWidth 6)
        else .wireHostcmd ((code ||| 0x40#8).setWidth 6)) ∧
    decodeWire txWake = .ok .wireWake

/-- R78: a wake and a read of address 0 begin with the same three bytes and differ in length; no other two
kinds of transaction share a first byte. -/
def Obligations.OnlyWakeAndReadShareAFirstByte : Prop :=
  ∀ (a a' : Addr) (n : Nat) (s : List Byte) (code : Byte),
    txRead 0#24 n = txWake ++ 0x00#8 :: List.replicate n 0x00#8 ∧ txWake.length = 3 ∧ 4 ≤ (txRead a n).length ∧
    (txRead a n).head? ≠ (txWrite a' s).head? ∧ (txRead a n).head? ≠ (txHost code).head? ∧
    (txWrite a s).head? ≠ (txHost code).head? ∧ (txWrite a s).head? ≠ txWake.head? ∧
    (txHost code).head? ≠ txWake.head?

/-- R49, C4: addresses that agree in bits 21:0 give identical transactions, and the framing operations do
the same with them in every state. -/
def Obligations.UpperAddressBitsNeverReachTheBus : Prop :=
  ∀ a b : Addr, a.setWidth 22 = b.setWidth 22 →
    (∀ n, txRead a n = txRead b n) ∧ (∀ bs, txWrite a bs = txWrite b bs) ∧
    ∀ s, (∀ n, exec (.rdb a n) s = exec (.rdb b n) s) ∧ (∀ bs, exec (.wrb a bs) s = exec (.wrb b bs) s) ∧
      exec (.rd8 a) s = exec (.rd8 b) s ∧ exec (.rd16 a) s = exec (.rd16 b) s ∧
      exec (.rd32 a) s = exec (.rd32 b) s ∧ (∀ v, exec (.wr8 a v) s = exec (.wr8 b v) s) ∧
      (∀ v, exec (.wr16 a v) s = exec (.wr16 b v) s) ∧ (∀ v, exec (.wr32 a v) s = exec (.wr32 b v) s)

/-- R71, S10: the three bytes of the prefix of a write and of a read, in the source's own arithmetic. The
order of bytes 1 and 2 is D3's choice. -/
def Obligations.AddressPrefixBytes : Prop :=
  ∀ (a : Addr) (n : Nat) (s : List Byte),
    (txWrite a s).take 3 =
      [(a >>> 16).setWidth 8 &&& 0x3F#8 ||| 0x80#8, (a >>> 8).setWidth 8, a.setWidth 8] ∧
    (txRead a n).take 3 =
      [(a >>> 16).setWidth 8 &&& 0x3F#8 ||| 0x00#8, (a >>> 8).setWidth 8, a.setWidth 8]

/-- R87, R88: the pseudo-instruction CMD is one ENQ request per word, in order, whatever the words. -/
def Obligations.CmdExpandsToEnqs : Prop :=
  ∀ ws : List Word, (cmdRequests ws).map decodeRequest = ws.map fun w => .ok (.enq w)

/-! ## The arithmetic of the ring -/

/-- R109 to R111, C2, C8: the outcome of an attempt depends only on `occ`, with the boundary between 4091 and
4092, and on the policy above 4096. -/
def Obligations.OccupancyDecidesAcceptance : Prop :=
  ∀ (p : DivergencePolicy) (occ : Word),
    (occ.toNat ≤ 4091 → ∃ f, freeOf p occ = some f ∧ f.toNat = 4096 - occ.toNat ∧ accepts f = true) ∧
    (4092 ≤ occ.toNat → occ.toNat ≤ 4096 →
      ∃ f, freeOf p occ = some f ∧ f.toNat = 4096 - occ.toNat ∧ accepts f = false) ∧
    (4097 ≤ occ.toNat →
      (p = .fault → freeOf p occ = none) ∧
      (p = .reject → ∃ f, freeOf p occ = some f ∧ f = 0#32 ∧ accepts f = false) ∧
      (p = .wrap32 → ∃ f, freeOf p occ = some f ∧ f = 4096#32 - occ ∧ accepts f = true))

/-- R120: an accepted word seen at occupancy at most 4091, with `read_offset` only moving forward since,
leaves at most 4095 bytes occupied. -/
def Obligations.AcceptedWordKeepsHeadroom : Prop :=
  ∀ wo ro ro' : Word, (occupied wo ro).toNat ≤ 4091 →
    (occupied wo ro').toNat ≤ (occupied wo ro).toNat →
    (occupied (advance wo) ro').toNat = (occupied wo ro').toNat + 4 ∧
    (occupied (advance wo) ro').toNat ≤ 4095

/-- R51: in a valid configuration the ring address is the base plus the pointer modulo 4096, never outside
the window or the wire field. -/
def Obligations.RingAddressStaysInWindow : Prop :=
  ∀ (c : Config) (wo : Word), configValid c = true →
    (ringAddr c wo).toNat = c.cmdBufBase + wo.toNat % 4096 ∧
    c.cmdBufBase ≤ (ringAddr c wo).toNat ∧ (ringAddr c wo).toNat ≤ c.cmdBufBase + 4095 ∧
    (ringAddr c wo).toNat < 2 ^ 22 ∧
    ringAddr c (wo + 4096#32) = ringAddr c wo

/-! ## Framing operations -/

/-- R73 to R76, R94 to R104: ACCEPT of the eleven framing operations sets up their transaction and goes to
F_X. RDB, RD8, RD16, RD32 and CHKID read, capturing from the fifth byte on; WRB, WR8, WR16, WR32, HOSTCMD and
WAKE capture nothing. -/
def Obligations.FramingOperationsAccept : Prop :=
  ∀ s : State, s.pc = .idle →
    (∀ a n, exec (.rdb a n) s = .next
      (loaded .fx (framePrefix a 0b00#2 ++ [0x00#8] ++ List.replicate n.toNat 0x00#8) 4 s)) ∧
    (∀ a, exec (.rd8 a) s = .next (loaded .fx (framePrefix a 0b00#2 ++ [0x00#8, 0x00#8]) 4 s)) ∧
    (∀ a, exec (.rd16 a) s = .next
      (loaded .fx (framePrefix a 0b00#2 ++ [0x00#8, 0x00#8, 0x00#8]) 4 s)) ∧
    (∀ a, exec (.rd32 a) s = .next
      (loaded .fx (framePrefix a 0b00#2 ++ [0x00#8, 0x00#8, 0x00#8, 0x00#8, 0x00#8]) 4 s)) ∧
    exec .chkid s = .next
      (loaded .fx (framePrefix (BitVec.ofNat 24 s.cfg.regId) 0b00#2 ++ [0x00#8, 0x00#8]) 4 s) ∧
    (∀ a bs, bs.length < 2 ^ 32 →
      exec (.wrb a bs) s = .next (loaded .fx (framePrefix a 0b10#2 ++ bs) (3 + bs.length) s)) ∧
    (∀ a v, exec (.wr8 a v) s = .next (loaded .fx (framePrefix a 0b10#2 ++ [v]) 4 s)) ∧
    (∀ a v, exec (.wr16 a v) s = .next
      (loaded .fx (framePrefix a 0b10#2 ++ [v.setWidth 8, (v >>> 8).setWidth 8]) 5 s)) ∧
    (∀ a v, exec (.wr32 a v) s = .next
      (loaded .fx (framePrefix a 0b10#2 ++
        [v.setWidth 8, (v >>> 8).setWidth 8, (v >>> 16).setWidth 8, (v >>> 24).setWidth 8]) 7 s)) ∧
    (∀ c, exec (.hostcmd c) s = .next (loaded .fx [c ||| 0x40#8, 0x00#8, 0x00#8] 3 s)) ∧
    exec .wake s = .next (loaded .fx [0x00#8, 0x00#8, 0x00#8] 3 s)

/-- R31, R32, R92: in flight, every operation of the request interface but PACK emits SEL while chip-select
is deasserted, then exchanges one byte a step, capturing the received byte from `txcap` on; a data byte of a
write is stored at its address A + k (R52). What the chip's consumer goes by at SEL is log 25's. -/
def Obligations.RequestsMoveOneByteAStep : Prop :=
  ∀ (i : Instr) (s : State),
    (i.isFraming = true ∧ s.pc = .fx ∨
      ((∃ w, i = .tryenq w) ∨ (∃ w, i = .enq w) ∨ (∃ ws bs, i = .textcmd ws bs)) ∧
        s.pc ∈ [Pc.qro, .qwo, .qww, .qwp] ∨ i = .idle ∧ s.pc ∈ [Pc.iro, .iwo]) →
    (s.cs = false →
      exec i s = .next { s with cs := true, trace := s.trace ++ [.sel], woSeen := chipWrite s }) ∧
    (∀ bytes k cap rx o, s.cs = true → s.txs = some bytes → s.txpos = some k → s.txfrom = some cap →
      s.rx = some rx → bytes[k]? = some o →
      ∃ t, exec i s = .next t ∧ t.pc = s.pc ∧ t.cs = true ∧ t.txs = some bytes ∧ t.txpos = some (k + 1) ∧
        t.txfrom = some cap ∧ t.trace = s.trace ++ [.x o (received s (bytes.take k))] ∧
        t.rx = some (if cap ≤ k then rx ++ [received s (bytes.take k)] else rx) ∧
        t.mem = chipStore s.mem (bytes.take k) o ∧ t.draws = s.draws.tail ∧
        t.nfree = s.nfree + freeDrawn s (bytes.take k) ∧ t.results = s.results)

/-- R35, R94 to R104: the DESEL step of each framing operation delivers its result: the captured bytes for
RDB, RD8, RD16, RD32 and CHKID, the number of bytes for WRB, 0 for WR8, WR16, WR32, HOSTCMD and WAKE. -/
def Obligations.FramingOperationsDeliver : Prop :=
  ∀ (s : State) (rx : List Byte), atDesel .fx rx s →
    (∀ a n, exec (.rdb a n) s = .next (resultState ⟨.done, n, rx, []⟩ s)) ∧
    (∀ a b0, rx = [b0] → exec (.rd8 a) s = .next (resultState ⟨.done, b0.setWidth 32, [], []⟩ s)) ∧
    (∀ a b0 b1, rx = [b0, b1] →
      exec (.rd16 a) s = .next (resultState ⟨.done, 0#16 ++ b1 ++ b0, [], []⟩ s)) ∧
    (∀ a b0 b1 b2 b3, rx = [b0, b1, b2, b3] →
      exec (.rd32 a) s = .next (resultState ⟨.done, b3 ++ b2 ++ b1 ++ b0, [], []⟩ s)) ∧
    (rx = [0x7C#8] → exec .chkid s = .next (resultState ⟨.done, 0x17C#32, [], []⟩ s)) ∧
    (∀ b0, rx = [b0] → b0 ≠ 0x7C#8 →
      exec .chkid s = .next (resultState ⟨.done, b0.setWidth 32, [], []⟩ s)) ∧
    (∀ a bs, exec (.wrb a bs) s =
      .next (resultState ⟨.done, BitVec.ofNat 32 bs.length, [], []⟩ s)) ∧
    (∀ a v, exec (.wr8 a v) s = .next (resultState ⟨.done, 0#32, [], []⟩ s)) ∧
    (∀ a v, exec (.wr16 a v) s = .next (resultState ⟨.done, 0#32, [], []⟩ s)) ∧
    (∀ a v, exec (.wr32 a v) s = .next (resultState ⟨.done, 0#32, [], []⟩ s)) ∧
    (∀ c, exec (.hostcmd c) s = .next (resultState ⟨.done, 0#32, [], []⟩ s)) ∧
    exec .wake s = .next (resultState ⟨.done, 0#32, [], []⟩ s)

/-- R94, R162: RDB of any count, from its request to its result, for every answer of the environment; chip
memory stays. -/
def Obligations.RdbServesEveryCount : Prop :=
  ∀ (s : State) (r : Request) (a : Addr) (n : Word) (d : List Byte),
    decodeRequest r = .ok (.rdb a n) → d.length = n.toNat + 4 → offered r d s →
    served (n.toNat + 7) (busEvents (txRead a n.toNat) d) ⟨.done, n, d.drop 4, []⟩ s.mem s

/-- R52, R95, R162: WRB of any admitted list, from its request to its result, for every answer; byte `k` is
stored at A + k. That a byte past the chip's space is not stored is the model's choice (log 10). -/
def Obligations.WrbServesEveryList : Prop :=
  ∀ (s : State) (r : Request) (a : Addr) (bs d : List Byte),
    decodeRequest r = .ok (.wrb a bs) → bs.length < 2 ^ 32 → d.length = bs.length + 3 → offered r d s →
    served (bs.length + 6) (busEvents (framePrefix a 0b10#2 ++ bs) d)
      ⟨.done, BitVec.ofNat 32 bs.length, [], []⟩ (s.mem.writeBytes (a.setWidth 22).toNat bs) s

/-- R52, R96 to R104, R162: RD8, RD16, RD32, CHKID, WR8, WR16, WR32, HOSTCMD and WAKE, from the request to the
result, whatever the environment answers; WR8, WR16 and WR32 store their bytes from A on, the others nothing.
That a byte past the chip's space is not stored is the model's choice (log 10). -/
def Obligations.RegisterOperationsServed : Prop :=
  ∀ (s : State) (r : Request) (a : Addr) (d : List Byte) (x0 x1 x2 x3 b0 b1 b2 b3 : Byte),
    (decodeRequest r = .ok (.rd8 a) → offered r [x0, x1, x2, x3, b0] s →
      served 8 (busEvents (txRead a 1) [x0, x1, x2, x3, b0]) ⟨.done, b0.setWidth 32, [], []⟩ s.mem s) ∧
    (decodeRequest r = .ok (.rd16 a) → offered r [x0, x1, x2, x3, b0, b1] s →
      served 9 (busEvents (txRead a 2) [x0, x1, x2, x3, b0, b1]) ⟨.done, 0#16 ++ b1 ++ b0, [], []⟩ s.mem s) ∧
    (decodeRequest r = .ok (.rd32 a) → offered r [x0, x1, x2, x3, b0, b1, b2, b3] s →
      served 11 (busEvents (txRead a 4) [x0, x1, x2, x3, b0, b1, b2, b3])
        ⟨.done, b3 ++ b2 ++ b1 ++ b0, [], []⟩ s.mem s) ∧
    (decodeRequest r = .ok .chkid → offered r [x0, x1, x2, x3, b0] s →
      served 8 (busEvents (txRead (BitVec.ofNat 24 s.cfg.regId) 1) [x0, x1, x2, x3, b0])
        ⟨.done, if b0 = 0x7C#8 then 0x17C#32 else b0.setWidth 32, [], []⟩ s.mem s) ∧
    (offered r d s →
      (∀ v, decodeRequest r = .ok (.wr8 a v) → d.length = 4 →
        served 7 (busEvents (framePrefix a 0b10#2 ++ [v]) d) ⟨.done, 0#32, [], []⟩
          (s.mem.writeBytes (a.setWidth 22).toNat [v]) s) ∧
      (∀ v, decodeRequest r = .ok (.wr16 a v) → d.length = 5 →
        served 8 (busEvents (framePrefix a 0b10#2 ++ [v.setWidth 8, (v >>> 8).setWidth 8]) d)
          ⟨.done, 0#32, [], []⟩
          (s.mem.writeBytes (a.setWidth 22).toNat [v.setWidth 8, (v >>> 8).setWidth 8]) s) ∧
      (∀ v, decodeRequest r = .ok (.wr32 a v) → d.length = 7 →
        served 10 (busEvents (framePrefix a 0b10#2 ++
            [v.setWidth 8, (v >>> 8).setWidth 8, (v >>> 16).setWidth 8, (v >>> 24).setWidth 8]) d)
          ⟨.done, 0#32, [], []⟩
          (s.mem.writeBytes (a.setWidth 22).toNat
            [v.setWidth 8, (v >>> 8).setWidth 8, (v >>> 16).setWidth 8, (v >>> 24).setWidth 8]) s) ∧
      (∀ c, decodeRequest r = .ok (.hostcmd c) → d.length = 3 →
        served 6 (busEvents [c ||| 0x40#8, 0x00#8, 0x00#8] d) ⟨.done, 0#32, [], []⟩ s.mem s) ∧
      (decodeRequest r = .ok .wake → d.length = 3 →
        served 6 (busEvents [0x00#8, 0x00#8, 0x00#8] d) ⟨.done, 0#32, [], []⟩ s.mem s))

/-- The frame of the eleven framing operations RDB, WRB, RD8, RD16, RD32, WR8, WR16, WR32, HOSTCMD, WAKE and
CHKID: besides the engine, `pc`, the ports and the observation, and the fault bit of a refused WRB, nothing
changes but the one chip byte the bus event stores (R105: no latch of the ring controller). -/
def Obligations.FramingFrame : Prop :=
  ∀ (i : Instr) (s t : State), i.isFraming = true → exec i s = .next t →
    sameAround s t ∧ sameRing s t ∧ sameText s t ∧ t.wire = s.wire ∧ sameMemory s t ∧
    (t.fault = s.fault ∨ (∃ a bs, i = .wrb a bs ∧ wrbFits bs = false ∧ s.pc = .idle) ∧
      t.fault = s.fault ||| 0b0001#4) ∧
    (s.pc = .idle → t.mem = s.mem ∧ t.trace = s.trace)

/-! ## The ring controller -/

/-- R107, R114, R116, R118: ACCEPT of TRYENQ, ENQ and IDLE sets up the read of `read_offset`; an ENQ with a
zero budget gives up at once without a bus event. -/
def Obligations.RingOperationsAccept : Prop :=
  ∀ s : State, s.pc = .idle →
    (∀ w, exec (.tryenq w) s = .next
      (loaded .qro (framePrefix (BitVec.ofNat 24 s.cfg.regCmdRead) 0b00#2 ++ List.replicate 5 0x00#8) 4 s)) ∧
    (∀ w, s.cfg.retryBudget ≠ 0 → exec (.enq w) s = .next
      { loaded .qro (framePrefix (BitVec.ofNat 24 s.cfg.regCmdRead) 0b00#2 ++ List.replicate 5 0x00#8) 4 s
        with attempts := some 0#16 }) ∧
    (∀ w, s.cfg.retryBudget = 0 → exec (.enq w) s = .next
      { s with
        attempts := some 0#16, results := s.results ++ [⟨.gaveup, 0#32, [], []⟩],
        resp := s.resp ++ [⟨.gaveup, 0#32, [], []⟩] }) ∧
    exec .idle s = .next
      (loaded .iro (framePrefix (BitVec.ofNat 24 s.cfg.regCmdRead) 0b00#2 ++ List.replicate 5 0x00#8) 4 s)

/-- R106, R107: the DESEL step of Q_RO latches `ro_l` and sets up the read of `write_offset`, the same for
TRYENQ, ENQ and TEXTCMD. -/
def Obligations.AttemptLatchesReadOffset : Prop :=
  ∀ (s : State) (b0 b1 b2 b3 : Byte), atDesel .qro [b0, b1, b2, b3] s →
    ∀ i, ((∃ w, i = .tryenq w) ∨ (∃ w, i = .enq w) ∨ (∃ ws bs, i = .textcmd ws bs)) →
      exec i s = .next
        { loaded .qwo (framePrefix (BitVec.ofNat 24 s.cfg.regCmdWrite) 0b00#2 ++ List.replicate 5 0x00#8) 4
            (deselected s) with roL := some (b3 ++ b2 ++ b1 ++ b0) }

/-- R107 to R112: the DESEL step of Q_WO with occupancy at most 4091 sets up the ring write of the word, for
TRYENQ, ENQ and the current word of TEXTCMD, under every policy. -/
def Obligations.RoomyAttemptWritesTheWord : Prop :=
  ∀ (s : State) (rx : List Byte) (ro wo w : Word),
    atDesel .qwo rx s → s.roL = some ro → wo = leWord rx → (wo - ro).toNat ≤ 4091 →
    ∀ i, (i = .tryenq w ∨ i = .enq w ∨
        ∃ ws bs l k, i = .textcmd ws bs ∧ s.words = some l ∧ s.widx = some k ∧ l[k.toNat]? = some w) →
      exec i s = .next
        { loaded .qww
            (framePrefix (ringAddr s.cfg wo) 0b10#2 ++
              [w.setWidth 8, (w >>> 8).setWidth 8, (w >>> 16).setWidth 8, (w >>> 24).setWidth 8]) 7
            (deselected s)
          with woL := some wo, occ := some (wo - ro), free := some (4096#32 - (wo - ro)) }

/-- R110, R111, R114: the DESEL step of Q_WO with occupancy 4092 to 4096 ends TRYENQ with REJECTED and the
unchanged `write_offset`; no write is set up. -/
def Obligations.FullRingRejectsTryenq : Prop :=
  ∀ (s : State) (rx : List Byte) (ro wo w : Word),
    atDesel .qwo rx s → s.roL = some ro → wo = leWord rx →
    4092 ≤ (wo - ro).toNat → (wo - ro).toNat ≤ 4096 →
    exec (.tryenq w) s = .next
      { resultState ⟨.rejected, wo, [], []⟩ s
        with woL := some wo, occ := some (wo - ro), free := some (4096#32 - (wo - ro)) }

/-- R109, R141, R143: diverged pointers under the policy `fault` enter FAULT in the DESEL step of Q_WO:
POINTER_DIVERGENCE set, result FAULTED 0, no further bus event; for TRYENQ, ENQ and TEXTCMD. -/
def Obligations.DivergedPointersEnterFault : Prop :=
  ∀ (s : State) (rx : List Byte) (ro wo : Word),
    atDesel .qwo rx s → s.roL = some ro → wo = leWord rx → 4097 ≤ (wo - ro).toNat →
    s.cfg.policy = .fault →
    ∀ i, ((∃ w, i = .tryenq w) ∨ (∃ w, i = .enq w) ∨ (∃ ws bs, i = .textcmd ws bs)) →
      exec i s = .next
        { resultState ⟨.faulted, 0#32, [], []⟩ s
          with woL := some wo, occ := some (wo - ro), pc := .fault, fault := s.fault ||| 0b0010#4 }

/-- R109, R177: above 4096 the policy `reject` ends TRYENQ with REJECTED, and `wrap32` sets up the ring write
of the word, for TRYENQ, ENQ and the current word of TEXTCMD. -/
def Obligations.OtherPoliciesOnDivergence : Prop :=
  ∀ (s : State) (rx : List Byte) (ro wo w : Word),
    atDesel .qwo rx s → s.roL = some ro → wo = leWord rx → 4097 ≤ (wo - ro).toNat →
    (s.cfg.policy = .reject →
      exec (.tryenq w) s = .next
        { resultState ⟨.rejected, wo, [], []⟩ s
          with woL := some wo, occ := some (wo - ro), free := some 0#32 }) ∧
    (s.cfg.policy = .wrap32 → ∀ i, (i = .tryenq w ∨ i = .enq w ∨
        ∃ ws bs l k, i = .textcmd ws bs ∧ s.words = some l ∧ s.widx = some k ∧ l[k.toNat]? = some w) →
      exec i s = .next
        { loaded .qww
            (framePrefix (ringAddr s.cfg wo) 0b10#2 ++
              [w.setWidth 8, (w >>> 8).setWidth 8, (w >>> 16).setWidth 8, (w >>> 24).setWidth 8]) 7
            (deselected s)
          with woL := some wo, occ := some (wo - ro), free := some (4096#32 - (wo - ro)) })

/-- R68, R113, R122: after the word write comes the write of `wo_l + 4` (modulo 2^32, never modulo 4096) to
`write_offset`; for TRYENQ, ENQ and TEXTCMD. -/
def Obligations.PointerWriteFollowsWordWrite : Prop :=
  ∀ (s : State) (rx : List Byte) (wo : Word), atDesel .qww rx s → s.woL = some wo →
    ∀ i, ((∃ w, i = .tryenq w) ∨ (∃ w, i = .enq w) ∨ (∃ ws bs, i = .textcmd ws bs)) →
      exec i s = .next
        (loaded .qwp
          (framePrefix (BitVec.ofNat 24 s.cfg.regCmdWrite) 0b10#2 ++
            [(wo + 4#32).setWidth 8, ((wo + 4#32) >>> 8).setWidth 8, ((wo + 4#32) >>> 16).setWidth 8,
              ((wo + 4#32) >>> 24).setWidth 8]) 7 (deselected s))

/-- R114, R116: the DESEL step of Q_WP completes TRYENQ with ENQUEUED and the advanced pointer, and ENQ with
DELIVERED and the number of attempts. -/
def Obligations.AcceptedWordCompletes : Prop :=
  ∀ (s : State) (rx : List Byte) (wo w : Word) (n : BitVec 16), atDesel .qwp rx s →
    (s.woL = some wo → exec (.tryenq w) s = .next (resultState ⟨.enqueued, wo + 4#32, [], []⟩ s)) ∧
    (s.attempts = some n → exec (.enq w) s = .next
      { resultState ⟨.delivered, (n + 1#16).setWidth 32, [], []⟩ s with attempts := some (n + 1#16) })

/-- R115 to R117: after a rejected attempt ENQ gives up when the count reaches the budget and otherwise
starts a new attempt, re-reading both pointers, in the same step. -/
def Obligations.EnqRetriesUpToBudget : Prop :=
  ∀ (s : State) (rx : List Byte) (ro wo w f : Word) (n : BitVec 16),
    atDesel .qwo rx s → s.roL = some ro → wo = leWord rx → s.attempts = some n →
    freeOf s.cfg.policy (wo - ro) = some f → f.toNat ≤ 4 →
    ((n + 1#16).toNat = s.cfg.retryBudget → exec (.enq w) s = .next
      { resultState ⟨.gaveup, (n + 1#16).setWidth 32, [], []⟩ s
        with woL := some wo, occ := some (wo - ro), free := some f, attempts := some (n + 1#16) }) ∧
    ((n + 1#16).toNat ≠ s.cfg.retryBudget → exec (.enq w) s = .next
      { loaded .qro (framePrefix (BitVec.ofNat 24 s.cfg.regCmdRead) 0b00#2 ++ List.replicate 5 0x00#8) 4
          (deselected s)
        with woL := some wo, occ := some (wo - ro), free := some f, attempts := some (n + 1#16) })

/-- R118: IDLE latches both pointers and answers 1 exactly when they are equal as 32-bit values. -/
def Obligations.IdleComparesRawPointers : Prop :=
  ∀ (s : State) (b0 b1 b2 b3 : Byte),
    (atDesel .iro [b0, b1, b2, b3] s → exec .idle s = .next
      { loaded .iwo (framePrefix (BitVec.ofNat 24 s.cfg.regCmdWrite) 0b00#2 ++ List.replicate 5 0x00#8) 4
          (deselected s) with roL := some (b3 ++ b2 ++ b1 ++ b0) }) ∧
    (∀ ro, atDesel .iwo [b0, b1, b2, b3] s → s.roL = some ro → exec .idle s = .next
      { resultState ⟨.done, if ro = b3 ++ b2 ++ b1 ++ b0 then 1#32 else 0#32, [], []⟩ s
        with woL := some (b3 ++ b2 ++ b1 ++ b0) })

/-- R107, R111, R112 to R114, R120, R162: TRYENQ against a chip that answers from its memory and does not
move (R156, R158, R160). With room, 39 steps store the word at its ring address, advance `write_offset` by 4
and leave at most 4095 bytes occupied; with 4092 to 4096 bytes occupied, 21 steps change nothing. Its memory is
the model's own environment (log 6). -/
def Obligations.TryenqOnAStillChip : Prop :=
  ∀ (s : State) (r : Request) (w ro wo : Word),
    decodeRequest r = .ok (.tryenq w) → offered r [] s → s.draws = [] →
    configValid s.cfg = true → apart s.cfg → chipRead s = some ro → chipWrite s = some wo →
    ((wo - ro).toNat ≤ 4091 → wo.toNat % 4 = 0 →
      ∃ t, runSteps 39 s = .next t ∧ t.pc = .idle ∧ t.fault = s.fault ∧
        t.results = s.results ++ [⟨.enqueued, wo + 4#32, [], []⟩] ∧
        t.mem.readWord (s.cfg.cmdBufBase + wo.toNat % 4096) = some w ∧
        chipRead t = some ro ∧ chipWrite t = some (wo + 4#32) ∧
        (∃ k, chipOccupied t = some k ∧ k ≤ 4095) ∧
        ∀ x, ¬ inRegister s.cfg.regCmdWrite x →
          ¬ inRegister (s.cfg.cmdBufBase + wo.toNat % 4096) x → t.mem.read x = s.mem.read x) ∧
    (4092 ≤ (wo - ro).toNat → (wo - ro).toNat ≤ 4096 →
      ∃ t, runSteps 21 s = .next t ∧ t.pc = .idle ∧ t.fault = s.fault ∧
        t.results = s.results ++ [⟨.rejected, wo, [], []⟩] ∧ t.mem = s.mem)

/-- R115, R116, R138, R162, S3: ENQ against a full ring that never drains makes exactly RETRY_BUDGET
attempts, gives up, sets no fault bit and writes nothing; the next attempt never occurs. The chip is the model's
own environment (log 6), still and answering from its memory. -/
def Obligations.EnqGivesUpOnAFullStillChip : Prop :=
  ∀ (s : State) (r : Request) (w ro wo : Word),
    decodeRequest r = .ok (.enq w) → offered r [] s → s.draws = [] →
    configValid s.cfg = true → apart s.cfg → chipRead s = some ro → chipWrite s = some wo →
    4092 ≤ (wo - ro).toNat → (wo - ro).toNat ≤ 4096 → s.cfg.retryBudget ≠ 0 →
    ∃ t, runSteps (20 * s.cfg.retryBudget + 1) s = .next t ∧ t.pc = .idle ∧ t.fault = s.fault ∧
      t.results = s.results ++ [⟨.gaveup, BitVec.ofNat 32 s.cfg.retryBudget, [], []⟩] ∧
      t.trace.length = s.trace.length + 20 * s.cfg.retryBudget ∧ t.mem = s.mem

/-- The frame of TRYENQ, ENQ, IDLE, PACK and TEXTCMD: the parameters, the requests, the request latches and
the chip stay but for the one byte the bus event stores; TRYENQ and IDLE leave the counters alone, IDLE
computes no occupancy (R118), ENQ leaves the text latches alone, PACK leaves every latch alone (R129); the
fault register gains at most a bit. -/
def Obligations.RingAndPayloadFrame : Prop :=
  ∀ (i : Instr) (s t : State), i.isFraming = false → i.isWire = false → exec i s = .next t →
    sameAround s t ∧ t.wire = s.wire ∧ sameMemory s t ∧
    (t.fault = s.fault ∨ t.fault = s.fault ||| 0b0010#4 ∧ t.pc = .fault ∨
      t.fault = s.fault ||| 0b0001#4 ∧ ∃ ws bs, i = .textcmd ws bs ∧ textFits ws bs = false) ∧
    (∀ w, i = .tryenq w → sameText s t ∧ t.attempts = s.attempts) ∧
    (∀ w, i = .enq w → sameText s t) ∧
    (i = .idle → sameText s t ∧ t.attempts = s.attempts ∧ t.occ = s.occ ∧ t.free = s.free ∧
      t.fault = s.fault) ∧
    (∀ bs, i = .pack bs → sameText s t ∧ sameRing s t ∧ sameEngine s t ∧ t.mem = s.mem ∧
      t.trace = s.trace ∧ t.fault = s.fault)

/-! ## Payload and text commands -/

/-- R124 to R128: the packer makes `ceil(L / 4)` words, and word `i` is the little-endian value of bytes
`4i` to `4i + 3`, the bytes past the end counting as 0. -/
def Obligations.PackWordsLittleEndian : Prop :=
  ∀ s : List Byte, (pack s).length = (s.length + 3) / 4 ∧
    ∀ i, i < (s.length + 3) / 4 →
      (pack s)[i]? = some (s.getD (4 * i + 3) 0#8 ++ s.getD (4 * i + 2) 0#8 ++ s.getD (4 * i + 1) 0#8 ++
        s.getD (4 * i) 0#8)

/-- R135: the bytes the ring receives for a packed payload are the payload and its zero padding, and packing
is injective on lists of equal length. -/
def Obligations.PackedBytesComeBack : Prop :=
  (∀ s : List Byte, unpack (pack s) = s ++ List.replicate ((4 - s.length % 4) % 4) 0#8) ∧
    ∀ s t : List Byte, s.length = t.length → pack s = pack t → s = t

/-- R131: PACK completes in its ACCEPT step with the packed words and their number, without a bus event. A
number of words above 32 bits is a free value (log 12). -/
def Obligations.PackCompletesAtOnce : Prop :=
  ∀ (s : State) (bs : List Byte), s.pc = .idle →
    ∃ v, exec (.pack bs) s = .next
        { s with
          results := s.results ++ [⟨.done, v, [], pack bs⟩],
          resp := s.resp ++ [⟨.done, v, [], pack bs⟩] } ∧
      ((bs.length + 3) / 4 < 2 ^ 32 → v.toNat = (bs.length + 3) / 4)

/-- R130, R132, R133: ACCEPT of TEXTCMD: an empty payload is SKIPPED without a bus event; else the whole word
sequence is latched, the counters cleared and the first attempt begun. -/
def Obligations.TextcmdAccepts : Prop :=
  ∀ (s : State) (ws : List Word) (bs : List Byte), s.pc = .idle →
    ws.length + (bs.length + 3) / 4 ≤ 65535 →
    (bs = [] → exec (.textcmd ws bs) s = .next
      { s with
        results := s.results ++ [⟨.skipped, 0#32, [], []⟩],
        resp := s.resp ++ [⟨.skipped, 0#32, [], []⟩] }) ∧
    (bs ≠ [] → s.cfg.retryBudget ≠ 0 → exec (.textcmd ws bs) s = .next
      { loaded .qro (framePrefix (BitVec.ofNat 24 s.cfg.regCmdRead) 0b00#2 ++ List.replicate 5 0x00#8) 4 s
        with
        words := some (ws ++ pack bs), widx := some 0#17, ndeliv := some 0#16, ngaveup := some 0#16,
        attempts := some 0#16 })

/-- R32, R133, R134: with a zero budget a TEXTCMD gives up every word, or with ABORT_ON_GAVEUP the first one,
inside its ACCEPT step, without a bus event. -/
def Obligations.TextcmdWithZeroBudget : Prop :=
  ∀ (s : State) (ws : List Word) (bs : List Byte), s.pc = .idle → bs ≠ [] →
    ws.length + (bs.length + 3) / 4 ≤ 65535 → s.cfg.retryBudget = 0 →
    ∃ t, exec (.textcmd ws bs) s = .next t ∧ t.pc = .idle ∧ t.trace = s.trace ∧ t.mem = s.mem ∧
      t.fault = s.fault ∧
      t.results = s.results ++ [⟨.gaveup,
        BitVec.ofNat 16 (if s.cfg.abortOnGaveup then 1 else ws.length + (bs.length + 3) / 4) ++ 0#16,
        [], []⟩]

/-- R133: a delivered word of a TEXTCMD is counted; the last one completes the command, DELIVERED exactly
when no word gave up, and any other starts the next word with a fresh budget. -/
def Obligations.TextcmdCountsDeliveredWord : Prop :=
  ∀ (s : State) (rx : List Byte) (l : List Word) (k : BitVec 17) (nd ng n : BitVec 16) (ws : List Word)
      (bs : List Byte),
    atDesel .qwp rx s → s.words = some l → s.widx = some k → s.ndeliv = some nd → s.ngaveup = some ng →
    s.attempts = some n → s.cfg.retryBudget ≠ 0 →
    ((k + 1#17).toNat = l.length → exec (.textcmd ws bs) s = .next
      { resultState ⟨if ng = 0#16 then .delivered else .gaveup, ng ++ (nd + 1#16), [], []⟩ s
        with attempts := some (n + 1#16), widx := some (k + 1#17), ndeliv := some (nd + 1#16) }) ∧
    ((k + 1#17).toNat < l.length → exec (.textcmd ws bs) s = .next
      { loaded .qro (framePrefix (BitVec.ofNat 24 s.cfg.regCmdRead) 0b00#2 ++ List.replicate 5 0x00#8) 4
          (deselected s)
        with attempts := some 0#16, widx := some (k + 1#17), ndeliv := some (nd + 1#16) })

/-- R115, R133, R134: a rejected attempt of a TEXTCMD below the budget is made again; at the budget the word
is given up and counted, and the command ends there if it was the last word or ABORT_ON_GAVEUP is set, else
the next word starts with a fresh budget. -/
def Obligations.TextcmdGivesUpWord : Prop :=
  ∀ (s : State) (rx : List Byte) (l : List Word) (k : BitVec 17) (nd ng n : BitVec 16) (ro wo f : Word)
      (ws : List Word) (bs : List Byte),
    atDesel .qwo rx s → s.roL = some ro → wo = leWord rx → freeOf s.cfg.policy (wo - ro) = some f →
    f.toNat ≤ 4 → s.words = some l → s.widx = some k → s.ndeliv = some nd → s.ngaveup = some ng →
    s.attempts = some n → s.cfg.retryBudget ≠ 0 →
    ((n + 1#16).toNat ≠ s.cfg.retryBudget → exec (.textcmd ws bs) s = .next
      { loaded .qro (framePrefix (BitVec.ofNat 24 s.cfg.regCmdRead) 0b00#2 ++ List.replicate 5 0x00#8) 4
          (deselected s)
        with
        woL := some wo, occ := some (wo - ro), free := some f, attempts := some (n + 1#16) }) ∧
    ((n + 1#16).toNat = s.cfg.retryBudget →
      ((k + 1#17).toNat = l.length ∨ s.cfg.abortOnGaveup = true → exec (.textcmd ws bs) s = .next
        { resultState ⟨if ng + 1#16 = 0#16 then .delivered else .gaveup, (ng + 1#16) ++ nd, [], []⟩ s
          with
          woL := some wo, occ := some (wo - ro), free := some f, attempts := some (n + 1#16),
          widx := some (k + 1#17), ngaveup := some (ng + 1#16) }) ∧
      ((k + 1#17).toNat < l.length → s.cfg.abortOnGaveup = false → exec (.textcmd ws bs) s = .next
        { loaded .qro (framePrefix (BitVec.ofNat 24 s.cfg.regCmdRead) 0b00#2 ++ List.replicate 5 0x00#8) 4
            (deselected s)
          with
          woL := some wo, occ := some (wo - ro), free := some f, attempts := some 0#16,
          widx := some (k + 1#17), ngaveup := some (ng + 1#16) }))

/-- R130: ACCEPT of a TEXTCMD that enqueues fixes its whole word sequence, and no later step changes it,
whatever the environment answers. -/
def Obligations.TextcmdWordsAreFixed : Prop :=
  ∀ (s t : State) (ws : List Word) (bs : List Byte), exec (.textcmd ws bs) s = .next t →
    (s.pc = .idle → bs ≠ [] → ws.length + (bs.length + 3) / 4 ≤ 65535 → t.words = some (ws ++ pack bs)) ∧
    (s.pc ≠ .idle → t.words = s.words)

/-! ## Wire transactions -/

/-- R31, R73 to R77: each wire transaction begins with SEL, its bytes in the engine, exchanges one byte a
step, a data byte of a write stored at A + k (R52), and ends with DESEL, the captured bytes in `rx` and no
result. The steps are the model's own form of a transaction without a request (log 9), and what the chip's
consumer goes by at SEL is log 25's. -/
def Obligations.WireTransactionsRun : Prop :=
  ∀ s : State,
    (s.pc = .idle → s.cs = false →
      (∀ a n, exec (.wireRead a n) s = .next
        { loaded .fx (framePrefix (a.setWidth 24) 0b00#2 ++ [0x00#8] ++ List.replicate n 0x00#8) 4 s
          with cs := true, trace := s.trace ++ [.sel], woSeen := chipWrite s }) ∧
      (∀ a bs, exec (.wireWrite a bs) s = .next
        { loaded .fx (framePrefix (a.setWidth 24) 0b10#2 ++ bs) (3 + bs.length) s
          with cs := true, trace := s.trace ++ [.sel], woSeen := chipWrite s }) ∧
      (∀ c, exec (.wireHostcmd c) s = .next
        { loaded .fx [0b01#2 ++ c, 0x00#8, 0x00#8] 3 s
          with cs := true, trace := s.trace ++ [.sel], woSeen := chipWrite s }) ∧
      (∀ c, exec (.wireHostcmdM11 c) s = .next
        { loaded .fx [0b11#2 ++ c, 0x00#8, 0x00#8] 3 s
          with cs := true, trace := s.trace ++ [.sel], woSeen := chipWrite s }) ∧
      exec .wireWake s = .next
        { loaded .fx [0x00#8, 0x00#8, 0x00#8] 3 s
          with cs := true, trace := s.trace ++ [.sel], woSeen := chipWrite s }) ∧
    (∀ i bytes k cap rx o, i.isWire = true → s.pc = .fx → s.cs = true → s.txs = some bytes →
      s.txpos = some k → s.txfrom = some cap → s.rx = some rx → bytes[k]? = some o →
      ∃ t, exec i s = .next t ∧ t.pc = .fx ∧ t.cs = true ∧ t.txs = some bytes ∧ t.txpos = some (k + 1) ∧
        t.txfrom = some cap ∧ t.trace = s.trace ++ [.x o (received s (bytes.take k))] ∧
        t.rx = some (if cap ≤ k then rx ++ [received s (bytes.take k)] else rx) ∧
        t.mem = chipStore s.mem (bytes.take k) o ∧ t.draws = s.draws.tail ∧
        t.nfree = s.nfree + freeDrawn s (bytes.take k)) ∧
    (∀ rx i, i.isWire = true → atDesel .fx rx s →
      exec i s = .next { s with cs := false, trace := s.trace ++ [.desel], pc := .idle, wire := none })

/-- The frame of the five wire transactions, whose steps without a request are the model's choice (log 9): the
request and ring latches, the ports, the results and the fault register stay, and chip memory but for the one
byte the bus event stores. -/
def Obligations.WireFrame : Prop :=
  ∀ (i : Instr) (s t : State), i.isWire = true → exec i s = .next t →
    sameAround s t ∧ sameRing s t ∧ sameText s t ∧ sameMemory s t ∧ t.fault = s.fault ∧
    t.results = s.results ∧ t.resp = s.resp

/-- R31, R70: a request in flight takes exactly the bus event that the wire transaction in its engine would
take: the same event, the same answer, the same chip memory. That the wire transaction has a step of its
own to compare with is the model's choice (log 9). -/
def Obligations.RequestsRunTheirWireTransaction : Prop :=
  ∀ (i w : Instr) (s t : State) (bytes : List Byte), i.isWire = false →
    s.pc ≠ .idle → s.pc ≠ .fault → s.txs = some bytes → decodeWire bytes = .ok w → exec i s = .next t →
    ∃ u, exec w { s with pc := .fx } = .next u ∧ u.trace = t.trace ∧ u.cs = t.cs ∧ u.mem = t.mem ∧
      u.draws = t.draws ∧ u.nfree = t.nfree

/-! ## Faults, reset and the whole machine -/

/-- R84, R140: a request with a reserved operation code, a WRB of 2^32 bytes or more and a TEXTCMD of more
than 65535 words are refused in their ACCEPT step: result ILLEGAL 0, fault bit 0 set, no bus event, the block
at IDLE. That a TEXTCMD both oversize and with an empty payload is refused, and not skipped, is the model's
reading of R84 beside R133 (log 15). -/
def Obligations.IllegalRequestsRefused : Prop :=
  ∀ s : State,
    (∀ r, offered r [] s → reqOp r.q ∉ allOps →
      ∃ t, step s = .next t ∧ t.pc = .idle ∧ t.fault = s.fault ||| 0b0001#4 ∧ t.trace = s.trace ∧
        t.results = s.results ++ [⟨.illegal, 0#32, [], []⟩] ∧ t.mem = s.mem ∧ t.reqs = s.reqs.tail) ∧
    (s.pc = .idle →
      (∀ a bs, 2 ^ 32 ≤ bs.length → exec (.wrb a bs) s = .next
        { s with
          fault := s.fault ||| 0b0001#4, results := s.results ++ [⟨.illegal, 0#32, [], []⟩],
          resp := s.resp ++ [⟨.illegal, 0#32, [], []⟩] }) ∧
      (∀ ws bs, 65535 < ws.length + (bs.length + 3) / 4 → exec (.textcmd ws bs) s = .next
        { s with
          fault := s.fault ||| 0b0001#4, results := s.results ++ [⟨.illegal, 0#32, [], []⟩],
          resp := s.resp ++ [⟨.illegal, 0#32, [], []⟩] }))

/-- R142, R145: reset under a configuration that breaks a constraint of R10 enters FAULT with CONFIG_INVALID
at once, with no result; under any other it goes to IDLE. -/
def Obligations.ResetChecksConfiguration : Prop :=
  ∀ (s : State) (rest : List Turn), s.sched = .reset :: rest →
    ∃ t, step s = .next t ∧ t.results = s.results ∧
      ((s.cfg.cmdBufBase + 4095 < 2 ^ 22 ∧ s.cfg.regCmdRead < 2 ^ 22 ∧ s.cfg.regCmdWrite < 2 ^ 22 ∧
          s.cfg.regId < 2 ^ 22 ∧ s.cfg.regTouchTag < 2 ^ 22 ∧ s.cfg.regCmdRead ≠ s.cfg.regCmdWrite ∧
          s.cfg.retryBudget ≤ 65535 ∧ ∀ k, s.cfg.policy ≠ .unknown k) →
        t.pc = .idle ∧ t.fault = 0#4 ∧ t.reqReady = true) ∧
      (¬ (s.cfg.cmdBufBase + 4095 < 2 ^ 22 ∧ s.cfg.regCmdRead < 2 ^ 22 ∧ s.cfg.regCmdWrite < 2 ^ 22 ∧
          s.cfg.regId < 2 ^ 22 ∧ s.cfg.regTouchTag < 2 ^ 22 ∧ s.cfg.regCmdRead ≠ s.cfg.regCmdWrite ∧
          s.cfg.retryBudget ≤ 65535 ∧ ∀ k, s.cfg.policy ≠ .unknown k) →
        t.pc = .fault ∧ t.fault = 0b0100#4 ∧ t.reqReady = false)

/-- R163 to R165: reset leaves every latch without a value, deasserts chip-select, emits DESEL exactly when a
transaction was in flight, gives the request in progress no result, and does not touch the chip, the
parameters or the waiting requests. That waiting requests stay on the port is the model's choice (log 4). -/
def Obligations.ResetClearsBlockNotChip : Prop :=
  ∀ (s : State) (rest : List Turn), s.sched = .reset :: rest →
    ∃ t, step s = .next t ∧ t.cs = false ∧
      t.trace = (if s.cs = true then s.trace ++ [.desel] else s.trace) ∧
      t.op = none ∧ t.addr = none ∧ t.data = none ∧ t.inbytes = none ∧ t.inwords = none ∧
      t.roL = none ∧ t.woL = none ∧ t.occ = none ∧ t.free = none ∧ t.attempts = none ∧
      t.words = none ∧ t.widx = none ∧ t.ndeliv = none ∧ t.ngaveup = none ∧ t.rx = none ∧
      t.txs = none ∧ t.txfrom = none ∧ t.txpos = none ∧ t.wire = none ∧ t.resp = [] ∧
      t.results = s.results ∧ t.mem = s.mem ∧ t.consumed = s.consumed ∧ t.cfg = s.cfg ∧ t.reqs = s.reqs

/-- R45: the block's values after reset, under every configuration, which reset does not change. Which
configuration `State.reset` takes is the model's choice (log 3) and no part of this statement. -/
def Obligations.ResetValues : Prop :=
  (∃ c, State.reset = State.initial c) ∧ (∀ s, (agentTurn .reset s).cfg = s.cfg) ∧
    ∀ c, (State.initial c).cfg = c ∧ (State.initial c).pc = .idle ∧ (State.initial c).cs = false ∧
      (State.initial c).fault = 0b0000#4 ∧ (State.initial c).reqReady = true ∧ (State.initial c).resp = [] ∧
      (State.initial c).op = none ∧ (State.initial c).addr = none ∧ (State.initial c).data = none ∧
      (State.initial c).inbytes = none ∧ (State.initial c).inwords = none ∧
      (State.initial c).roL = none ∧ (State.initial c).woL = none ∧ (State.initial c).occ = none ∧
      (State.initial c).free = none ∧ (State.initial c).attempts = none ∧
      (State.initial c).widx = none ∧ (State.initial c).ndeliv = none ∧
      (State.initial c).ngaveup = none ∧ (State.initial c).words = none ∧ (State.initial c).rx = none ∧
      (State.initial c).txs = none ∧ (State.initial c).txfrom = none ∧ (State.initial c).txpos = none

/-- R144: in FAULT the block's turn changes nothing, and no turn but reset changes `pc`, `fault`, the results
or the bus trace. -/
def Obligations.FaultLeftOnlyByReset : Prop :=
  ∀ s : State, s.pc = .fault →
    (s.sched = [] → step s = .next s) ∧
    ∀ t, step s = .next t → s.sched.head? ≠ some .reset →
      t.pc = .fault ∧ t.fault = s.fault ∧ t.results = s.results ∧ t.trace = s.trace ∧ t.reqReady = false

/-- R33: a set fault bit stays set in every step but reset, and the reserved bit 3 is never set. -/
def Obligations.FaultBitsAreSticky : Prop :=
  ∀ s t : State, step s = .next t → s.sched.head? ≠ some .reset →
    t.fault &&& s.fault = s.fault ∧ (s.fault.getLsbD 3 = false → t.fault.getLsbD 3 = false)

/-- R24: `req_ready` is asserted exactly at IDLE; a step of an idle block takes the request on the port and
no other; a block in flight or in FAULT leaves every waiting request where it is; a turn that issues a request
puts it behind the others, and every other turn leaves them. The list of waiting requests, which reset leaves,
is log 4's, the turns are log 8's, and the block with a wire transaction in its engine is log 9's. -/
def Obligations.RequestsWaitTheirTurn : Prop :=
  ∀ s : State, (s.reqReady = true ↔ s.pc = .idle) ∧
    (∀ t, blockStep s = .next t →
      (s.pc = .idle → s.wire = none → t.reqs = s.reqs.tail) ∧
      (s.pc ≠ .idle ∨ s.wire ≠ none → t.reqs = s.reqs)) ∧
    (∀ r, (agentTurn (.request r) s).reqs = s.reqs ++ [r]) ∧
    ∀ a, (∀ r, a ≠ .request r) → (agentTurn a s).reqs = s.reqs

/-- R23: a step of the block serving requests either delivers exactly one result and ends at IDLE or FAULT,
or delivers none and goes on; a request that ends without a result does not exist. -/
def Obligations.OneResultPerRequest : Prop :=
  ∀ s t : State, s.wire = none → blockStep s = .next t →
    (t.results = s.results ∧ t.resp = s.resp ∧ (t.pc ≠ .idle ∧ t.pc ≠ .fault ∨ t = s)) ∨
    ∃ r, t.results = s.results ++ [r] ∧ t.resp = s.resp ++ [r] ∧ (t.pc = .idle ∨ t.pc = .fault)

/-- R24, R25, R32: what a step runs: the decoded request on the port of an idle block, latched first; the
latched request in flight; a wire transaction placed in the engine, which is the model's choice (log 9); another
agent's turn, as the schedule, which is the model's choice (log 8), says. -/
def Obligations.StepRunsTheDecodedInstruction : Prop :=
  ∀ (s : State) (i : Instr),
    (∀ r rest, s.sched = [] → s.pc = .idle → s.wire = none → s.reqs = r :: rest →
      decodeRequest r = .ok i →
      step s = exec i { s with
        reqs := rest, op := some (reqOp r.q), addr := some (reqAddr r.q), data := some (reqData r.q),
        inbytes := some r.inbytes, inwords := some r.inwords }) ∧
    (∀ op a d bs ws, s.sched = [] → s.pc ≠ .idle → s.pc ≠ .fault → s.wire = none →
      s.op = some op → s.addr = some a → s.data = some d → s.inbytes = some bs → s.inwords = some ws →
      decodeRequest ⟨reqWord op a d, bs, ws⟩ = .ok i → step s = exec i s) ∧
    (∀ bytes, s.sched = [] → s.pc ≠ .fault → s.wire = some bytes → decodeWire bytes = .ok i →
      step s = exec i s) ∧
    (s.sched = [] → step s = blockStep s) ∧
    (∀ rest, s.sched = .block :: rest → step s = blockStep { s with sched := rest }) ∧
    (∀ a rest, s.sched = a :: rest → a ≠ .block → step s = .next (agentTurn a { s with sched := rest }))

/-- Words of spec/opcode_table.json and of spec/95_test_vectors.md decode to their instruction. The word 0x1024E4
has no dummy byte in the table: the model adds the one R73 always sends (log 9). -/
def Obligations.TableWordsDecode : Prop :=
  decodeTableWord 64 0x0112ABCD00000002 = some (.rdb 0x12ABCD#24 2#32) ∧
  decodeTableWord 64 0x03D0240000000000 = some (.rd8 0xD02400#24) ∧
  decodeTableWord 64 0x0700010000001234 = some (.wr16 0x000100#24 0x1234#16) ∧
  decodeTableWord 64 0x0900000000000044 = some (.hostcmd 0x44#8) ∧
  decodeTableWord 64 0x11000000FFFFFF00 = some (.enq 0xFFFFFF00#32) ∧
  decodeTableWord 64 0x1200000000000000 = some .idle ∧
  decodeTableWord 64 0x2000000000000000 = some (.pack []) ∧
  decodeTableWord 64 0x0C00000000000000 = none ∧
  decodeTableWord 24 0x1024E4 = some (.wireRead 0x1024E4#22 0) ∧
  decodeTableWord 24 0x9024E8 = some (.wireWrite 0x1024E8#22 []) ∧
  decodeTableWord 24 0x440000 = some (.wireHostcmd 0x04#6) ∧
  decodeTableWord 24 0xFF0000 = some (.wireHostcmdM11 0x3F#6) ∧
  decodeTableWord 24 0x000000 = some .wireWake

/-- The invariant holds right after reset, under every valid configuration; `State.reset` takes TC, the model's
choice (log 3). -/
def Obligations.InvariantHoldsAtReset : Prop :=
  Inv State.reset ∧ ∀ c, configValid c = true → Inv (State.initial c)

/-- The invariant is kept by every step of every agent (R26, R29, R33, R115, R142, R143). -/
def Obligations.EveryStepKeepsTheInvariant : Prop :=
  ∀ s t : State, Inv s → step s = .next t → Inv t

/-- R26: from a state that meets the invariant no step faults and none is refused: no latch is read before
it is written. -/
def Obligations.NoLatchIsReadBeforeItIsWritten : Prop :=
  ∀ s : State, Inv s → ∃ t, step s = .next t

/-- R31, R63, R70, R79: the bus trace stays a sequence of transactions, each from SEL to DESEL with nothing
between two of them, in every step of every agent. -/
def Obligations.BusTraceStaysFramed : Prop :=
  ∀ s t : State, s.wellFramed → step s = .next t → t.wellFramed

/-- R77, R89: in every step the engine holds one of the five wire rows and nothing else. -/
def Obligations.EngineHoldsOnlyWireRows : Prop :=
  ∀ s t : State, s.engineRow → step s = .next t → t.engineRow

/-- R162: every accepted request completes within its bound of steps, with one result, at IDLE or FAULT, for
every answer of the environment. -/
def Obligations.EveryRequestCompletesWithinItsBound : Prop :=
  ∀ (s : State) (r : Request) (i : Instr), Inv s → offered r [] s → decodeRequest r = .ok i →
    ∃ k t, 1 ≤ k ∧ k ≤ stepBound s.cfg i ∧ runSteps k s = .next t ∧ (t.pc = .idle ∨ t.pc = .fault) ∧
      t.results.length = s.results.length + 1 ∧ t.reqs = s.reqs.tail

/-- R17, R153: what the block does depends on the environment only through the byte it receives: where the
next answer is fixed, two chips with any memories see the same step, but for chip memory and what the chip's
consumer goes by (log 25). -/
def Obligations.BlockSeesOnlyTheReceivedByte : Prop :=
  ∀ (i : Instr) (s : State) (m : Memory) (d : Byte) (ds : List (Option Byte)), s.draws = some d :: ds →
    match exec i s, exec i { s with mem := m } with
    | .next t, .next u => u = { t with mem := u.mem, woSeen := u.woSeen }
    | .fault f, .fault g => f = g
    | .refused f, .refused g => f = g
    | _, _ => False

/-- R65, R159: a turn in which the chip consumes a word moves `read_offset` forward by 4, not past the
`write_offset` the host last wrote, appends the word at its ring address, and leaves `write_offset` and every
other byte; with no whole word left it does nothing. The word-wise chip is the model's own environment
(log 21), as are the 1 to 3 bytes that are no word (log 24) and the moment a pointer write counts (log 25). -/
def Obligations.ChipConsumesInOrder : Prop :=
  ∀ (s : State) (ro wo : Word), apart s.cfg → chipRead s = some ro → seenWrite s = some wo →
    ((wo - ro).toNat < 4 → agentTurn .consume s = s) ∧
    (4 ≤ (wo - ro).toNat →
      chipRead (agentTurn .consume s) = some (ro + 4#32) ∧
      seenWrite (agentTurn .consume s) = some wo ∧
      (wo - (ro + 4#32)).toNat + 4 = (wo - ro).toNat ∧
      (ro.toNat % 4096 ≤ 4092 → (agentTurn .consume s).consumed =
        s.consumed ++ [s.mem.readWord (ringAddr s.cfg ro).toNat]) ∧
      ∀ x, ¬ inRegister s.cfg.regCmdRead x → (agentTurn .consume s).mem.read x = s.mem.read x)
end

