-- ==== Sys2Proof/Laws/Operands.lean ====
section
/-! SUPPORT. Byte order and transaction bytes as bit fields (spec/20_memory.md R53, spec/30_encoding.md R71):
the little-endian byte lists as slices, their inverse, and the lengths and bytes of the transactions. -/
namespace Sys2Proof.Machine

theorem ofNat_byte_shift {w : Nat} (v : BitVec w) (k : Nat) :
    BitVec.ofNat 8 (v.toNat / 2 ^ k) = (v >>> k).setWidth 8 := by
  apply BitVec.eq_of_toNat_eq
  simp [Nat.shiftRight_eq_div_pow]

/-- The low byte of an 8-bit value. -/
theorem leBytes_one (v : BitVec 8) : leBytes 1 v.toNat = [v] := by
  simp [leBytes]

/-- The two bytes of a 16-bit value, low byte first. -/
theorem leBytes_two (v : BitVec 16) : leBytes 2 v.toNat = [v.setWidth 8, (v >>> 8).setWidth 8] := by
  have h := ofNat_byte_shift v 8
  simp only [leBytes]
  rw [← h]
  simp

/-- The four bytes of a word, low byte first. -/
theorem le4_eq (w : Word) :
    le4 w = [w.setWidth 8, (w >>> 8).setWidth 8, (w >>> 16).setWidth 8, (w >>> 24).setWidth 8] := by
  simp only [le4, leBytes, ← ofNat_byte_shift, Nat.div_div_eq_div_mul]
  simp

theorem leBytes_length (n v : Nat) : (leBytes n v).length = n := by
  induction n generalizing v with
  | zero => rfl
  | succ n ih => simp [leBytes, ih]

@[simp] theorem le4_length (w : Word) : (le4 w).length = 4 := leBytes_length 4 _

/-- One received byte as a word. -/
theorem leWord_one (b0 : Byte) : leWord [b0] = b0.setWidth 32 := by
  apply BitVec.eq_of_toNat_eq
  simp [leWord, leVal]

/-- Two received bytes as a word, the first the least significant. -/
theorem leWord_two (b0 b1 : Byte) : leWord [b0, b1] = 0#16 ++ b1 ++ b0 := by
  apply BitVec.eq_of_toNat_eq
  have h0 := b0.isLt
  have h1 := b1.isLt
  simp only [leWord, leVal, BitVec.toNat_ofNat, BitVec.toNat_append]
  rw [← Nat.shiftLeft_add_eq_or_of_lt h1, ← Nat.shiftLeft_add_eq_or_of_lt h0]
  simp only [Nat.shiftLeft_eq]
  omega

/-- Four received bytes as a word, the first the least significant. -/
theorem leWord_four (b0 b1 b2 b3 : Byte) : leWord [b0, b1, b2, b3] = b3 ++ b2 ++ b1 ++ b0 := by
  apply BitVec.eq_of_toNat_eq
  have h0 := b0.isLt
  have h1 := b1.isLt
  have h2 := b2.isLt
  have h3 := b3.isLt
  simp only [leWord, leVal, BitVec.toNat_ofNat, BitVec.toNat_append]
  rw [← Nat.shiftLeft_add_eq_or_of_lt h2, ← Nat.shiftLeft_add_eq_or_of_lt h1,
    ← Nat.shiftLeft_add_eq_or_of_lt h0]
  simp only [Nat.shiftLeft_eq]
  omega

/-- A word read back from its own bytes. -/
theorem leWord_le4 (w : Word) : leWord (le4 w) = w := by
  apply BitVec.eq_of_toNat_eq
  have h := w.isLt
  simp only [leWord, le4, leBytes, leVal, BitVec.toNat_ofNat]
  omega

@[simp] theorem framePrefix_length (a : Addr) (m : BitVec 2) : (framePrefix a m).length = 3 := rfl

@[simp] theorem txRead_length (a : Addr) (n : Nat) : (txRead a n).length = n + 4 := by
  simp [txRead]; omega

@[simp] theorem txWrite_length (a : Addr) (s : List Byte) : (txWrite a s).length = 3 + s.length := by
  simp [txWrite]

/-- Only bits 21:0 of an address stand in its prefix. -/
theorem framePrefix_congr {a b : Addr} (m : BitVec 2) (h : a.setWidth 22 = b.setWidth 22) :
    framePrefix a m = framePrefix b m := by
  have bit : ∀ i, i < 22 → a.getLsbD i = b.getLsbD i := by
    intro i hi
    have := congrArg (fun v : BitVec 22 => v.getLsbD i) h
    simpa [hi] using this
  have slice : ∀ k n, k + n ≤ 22 → a.extractLsb' k n = b.extractLsb' k n := by
    intro k n hk
    apply BitVec.eq_of_getLsbD_eq
    intro i hi
    simp only [BitVec.getLsbD_extractLsb', hi, decide_true, Bool.true_and]
    exact bit (k + i) (by omega)
  unfold framePrefix
  rw [slice 16 6 (by omega), slice 8 8 (by omega), slice 0 8 (by omega)]

end Sys2Proof.Machine
end

