-- ==== Sys2Proof/Laws/Decode.lean ====
section
/-! SUPPORT. The fields of a request word (spec/30_encoding.md R80) and the marker and address of a framing
prefix (R71), read back from what was put together. -/
namespace Sys2Proof

@[simp] theorem reqOp_reqWord (op : BitVec 8) (a : Addr) (d : Word) : reqOp (reqWord op a d) = op := by
  apply BitVec.eq_of_getLsbD_eq
  intro i hi
  have e : 56 + i - 32 - 24 = i := by omega
  have h1 : ¬ (56 + i < 32) := by omega
  have h2 : ¬ (56 + i - 32 < 24) := by omega
  simp only [reqOp, reqWord, BitVec.getLsbD_append, BitVec.getLsbD_extractLsb', hi, h1, h2, e, if_false,
    decide_true, Bool.true_and]

@[simp] theorem reqAddr_reqWord (op : BitVec 8) (a : Addr) (d : Word) : reqAddr (reqWord op a d) = a := by
  apply BitVec.eq_of_getLsbD_eq
  intro i hi
  have e : 32 + i - 32 = i := by omega
  have h1 : ¬ (32 + i < 32) := by omega
  simp only [reqAddr, reqWord, BitVec.getLsbD_append, BitVec.getLsbD_extractLsb', hi, h1, e, if_false,
    if_true, decide_true, Bool.true_and]

@[simp] theorem reqData_reqWord (op : BitVec 8) (a : Addr) (d : Word) : reqData (reqWord op a d) = d := by
  apply BitVec.eq_of_getLsbD_eq
  intro i hi
  simp only [reqData, reqWord, BitVec.getLsbD_append, BitVec.getLsbD_extractLsb', hi, Nat.zero_add,
    if_true, decide_true, Bool.true_and]

/-- A request word is the one of its three fields. -/
theorem reqWord_fields (q : BitVec 64) : reqWord (reqOp q) (reqAddr q) (reqData q) = q := by
  apply BitVec.eq_of_getLsbD_eq
  intro i hi
  simp only [reqOp, reqAddr, reqData, reqWord, BitVec.getLsbD_append, BitVec.getLsbD_extractLsb']
  split
  · simp [*]
  · split
    · rename_i h1 h2
      have : 32 + (i - 32) = i := by omega
      simp [h2, this]
    · rename_i h1 h2
      have : 56 + (i - 32 - 24) = i := by omega
      have h3 : i - 32 - 24 < 8 := by omega
      simp [h3, this]

/-- The marker stands in the two high bits of the first byte (R71). -/
@[simp] theorem prefixMarker_append (m : BitVec 2) (x : BitVec 6) : prefixMarker (m ++ x) = m := by
  apply BitVec.eq_of_getLsbD_eq
  intro i hi
  have e : 6 + i - 6 = i := by omega
  have h1 : ¬ (6 + i < 6) := by omega
  simp only [prefixMarker, BitVec.getLsbD_append, BitVec.getLsbD_extractLsb', hi, h1, e, if_false,
    decide_true, Bool.true_and]

/-- The address stands in the rest of the prefix, cut to 22 bits (R49, R71). -/
theorem prefixAddr_framePrefix (m : BitVec 2) (a : Addr) :
    prefixAddr (m ++ a.extractLsb' 16 6) (a.extractLsb' 8 8) (a.extractLsb' 0 8) = a.setWidth 22 := by
  apply BitVec.eq_of_getLsbD_eq
  intro i hi
  simp only [prefixAddr, BitVec.getLsbD_append, BitVec.getLsbD_extractLsb', BitVec.getLsbD_setWidth, hi,
    decide_true, Bool.true_and]
  split
  · simp [*]
  · split
    · rename_i h1 h2
      have : 8 + (i - 8) = i := by omega
      simp [h2, this]
    · rename_i h1 h2
      have e1 : 16 + (0 + (i - 8 - 8)) = i := by omega
      have h3 : i - 8 - 8 < 6 := by omega
      simp only [Nat.zero_add] at e1 ⊢
      simp [h3, e1]

end Sys2Proof
end

