-- ==== Sys2Proof/Laws/State.lean ====
section
/-! SUPPORT. One lemma per field for every named update of the state, so that no proof unfolds an update.
The updates: the ports, the latches, the engine, fault entry, reset and the chip's turn. -/
namespace Sys2Proof.Machine

/-! ### deliver -/

@[simp] theorem deliver_cfg (r : Result) (s : State) : (deliver r s).cfg = s.cfg := rfl
@[simp] theorem deliver_reqs (r : Result) (s : State) : (deliver r s).reqs = s.reqs := rfl
@[simp] theorem deliver_resp (r : Result) (s : State) : (deliver r s).resp = s.resp ++ [r] := rfl
@[simp] theorem deliver_pc (r : Result) (s : State) : (deliver r s).pc = s.pc := rfl
@[simp] theorem deliver_op (r : Result) (s : State) : (deliver r s).op = s.op := rfl
@[simp] theorem deliver_addr (r : Result) (s : State) : (deliver r s).addr = s.addr := rfl
@[simp] theorem deliver_data (r : Result) (s : State) : (deliver r s).data = s.data := rfl
@[simp] theorem deliver_inbytes (r : Result) (s : State) : (deliver r s).inbytes = s.inbytes := rfl
@[simp] theorem deliver_inwords (r : Result) (s : State) : (deliver r s).inwords = s.inwords := rfl
@[simp] theorem deliver_roL (r : Result) (s : State) : (deliver r s).roL = s.roL := rfl
@[simp] theorem deliver_woL (r : Result) (s : State) : (deliver r s).woL = s.woL := rfl
@[simp] theorem deliver_occ (r : Result) (s : State) : (deliver r s).occ = s.occ := rfl
@[simp] theorem deliver_free (r : Result) (s : State) : (deliver r s).free = s.free := rfl
@[simp] theorem deliver_attempts (r : Result) (s : State) : (deliver r s).attempts = s.attempts := rfl
@[simp] theorem deliver_words (r : Result) (s : State) : (deliver r s).words = s.words := rfl
@[simp] theorem deliver_widx (r : Result) (s : State) : (deliver r s).widx = s.widx := rfl
@[simp] theorem deliver_ndeliv (r : Result) (s : State) : (deliver r s).ndeliv = s.ndeliv := rfl
@[simp] theorem deliver_ngaveup (r : Result) (s : State) : (deliver r s).ngaveup = s.ngaveup := rfl
@[simp] theorem deliver_rx (r : Result) (s : State) : (deliver r s).rx = s.rx := rfl
@[simp] theorem deliver_cs (r : Result) (s : State) : (deliver r s).cs = s.cs := rfl
@[simp] theorem deliver_txs (r : Result) (s : State) : (deliver r s).txs = s.txs := rfl
@[simp] theorem deliver_txfrom (r : Result) (s : State) : (deliver r s).txfrom = s.txfrom := rfl
@[simp] theorem deliver_txpos (r : Result) (s : State) : (deliver r s).txpos = s.txpos := rfl
@[simp] theorem deliver_fault (r : Result) (s : State) : (deliver r s).fault = s.fault := rfl
@[simp] theorem deliver_results (r : Result) (s : State) : (deliver r s).results = s.results ++ [r] := rfl
@[simp] theorem deliver_trace (r : Result) (s : State) : (deliver r s).trace = s.trace := rfl
@[simp] theorem deliver_mem (r : Result) (s : State) : (deliver r s).mem = s.mem := rfl
@[simp] theorem deliver_consumed (r : Result) (s : State) : (deliver r s).consumed = s.consumed := rfl
@[simp] theorem deliver_draws (r : Result) (s : State) : (deliver r s).draws = s.draws := rfl
@[simp] theorem deliver_nfree (r : Result) (s : State) : (deliver r s).nfree = s.nfree := rfl
@[simp] theorem deliver_sched (r : Result) (s : State) : (deliver r s).sched = s.sched := rfl
@[simp] theorem deliver_wire (r : Result) (s : State) : (deliver r s).wire = s.wire := rfl
@[simp] theorem deliver_woSeen (r : Result) (s : State) : (deliver r s).woSeen = s.woSeen := rfl

/-! ### complete -/

@[simp] theorem complete_cfg (r : Result) (s : State) : (complete r s).cfg = s.cfg := rfl
@[simp] theorem complete_reqs (r : Result) (s : State) : (complete r s).reqs = s.reqs := rfl
@[simp] theorem complete_resp (r : Result) (s : State) : (complete r s).resp = s.resp ++ [r] := rfl
@[simp] theorem complete_pc (r : Result) (s : State) : (complete r s).pc = .idle := rfl
@[simp] theorem complete_op (r : Result) (s : State) : (complete r s).op = s.op := rfl
@[simp] theorem complete_addr (r : Result) (s : State) : (complete r s).addr = s.addr := rfl
@[simp] theorem complete_data (r : Result) (s : State) : (complete r s).data = s.data := rfl
@[simp] theorem complete_inbytes (r : Result) (s : State) : (complete r s).inbytes = s.inbytes := rfl
@[simp] theorem complete_inwords (r : Result) (s : State) : (complete r s).inwords = s.inwords := rfl
@[simp] theorem complete_roL (r : Result) (s : State) : (complete r s).roL = s.roL := rfl
@[simp] theorem complete_woL (r : Result) (s : State) : (complete r s).woL = s.woL := rfl
@[simp] theorem complete_occ (r : Result) (s : State) : (complete r s).occ = s.occ := rfl
@[simp] theorem complete_free (r : Result) (s : State) : (complete r s).free = s.free := rfl
@[simp] theorem complete_attempts (r : Result) (s : State) : (complete r s).attempts = s.attempts := rfl
@[simp] theorem complete_words (r : Result) (s : State) : (complete r s).words = s.words := rfl
@[simp] theorem complete_widx (r : Result) (s : State) : (complete r s).widx = s.widx := rfl
@[simp] theorem complete_ndeliv (r : Result) (s : State) : (complete r s).ndeliv = s.ndeliv := rfl
@[simp] theorem complete_ngaveup (r : Result) (s : State) : (complete r s).ngaveup = s.ngaveup := rfl
@[simp] theorem complete_rx (r : Result) (s : State) : (complete r s).rx = s.rx := rfl
@[simp] theorem complete_cs (r : Result) (s : State) : (complete r s).cs = s.cs := rfl
@[simp] theorem complete_txs (r : Result) (s : State) : (complete r s).txs = s.txs := rfl
@[simp] theorem complete_txfrom (r : Result) (s : State) : (complete r s).txfrom = s.txfrom := rfl
@[simp] theorem complete_txpos (r : Result) (s : State) : (complete r s).txpos = s.txpos := rfl
@[simp] theorem complete_fault (r : Result) (s : State) : (complete r s).fault = s.fault := rfl
@[simp] theorem complete_results (r : Result) (s : State) : (complete r s).results = s.results ++ [r] := rfl
@[simp] theorem complete_trace (r : Result) (s : State) : (complete r s).trace = s.trace := rfl
@[simp] theorem complete_mem (r : Result) (s : State) : (complete r s).mem = s.mem := rfl
@[simp] theorem complete_consumed (r : Result) (s : State) : (complete r s).consumed = s.consumed := rfl
@[simp] theorem complete_draws (r : Result) (s : State) : (complete r s).draws = s.draws := rfl
@[simp] theorem complete_nfree (r : Result) (s : State) : (complete r s).nfree = s.nfree := rfl
@[simp] theorem complete_sched (r : Result) (s : State) : (complete r s).sched = s.sched := rfl
@[simp] theorem complete_wire (r : Result) (s : State) : (complete r s).wire = s.wire := rfl
@[simp] theorem complete_woSeen (r : Result) (s : State) : (complete r s).woSeen = s.woSeen := rfl

/-! ### goto -/

@[simp] theorem goto_cfg (p : Pc) (s : State) : (goto p s).cfg = s.cfg := rfl
@[simp] theorem goto_reqs (p : Pc) (s : State) : (goto p s).reqs = s.reqs := rfl
@[simp] theorem goto_resp (p : Pc) (s : State) : (goto p s).resp = s.resp := rfl
@[simp] theorem goto_pc (p : Pc) (s : State) : (goto p s).pc = p := rfl
@[simp] theorem goto_op (p : Pc) (s : State) : (goto p s).op = s.op := rfl
@[simp] theorem goto_addr (p : Pc) (s : State) : (goto p s).addr = s.addr := rfl
@[simp] theorem goto_data (p : Pc) (s : State) : (goto p s).data = s.data := rfl
@[simp] theorem goto_inbytes (p : Pc) (s : State) : (goto p s).inbytes = s.inbytes := rfl
@[simp] theorem goto_inwords (p : Pc) (s : State) : (goto p s).inwords = s.inwords := rfl
@[simp] theorem goto_roL (p : Pc) (s : State) : (goto p s).roL = s.roL := rfl
@[simp] theorem goto_woL (p : Pc) (s : State) : (goto p s).woL = s.woL := rfl
@[simp] theorem goto_occ (p : Pc) (s : State) : (goto p s).occ = s.occ := rfl
@[simp] theorem goto_free (p : Pc) (s : State) : (goto p s).free = s.free := rfl
@[simp] theorem goto_attempts (p : Pc) (s : State) : (goto p s).attempts = s.attempts := rfl
@[simp] theorem goto_words (p : Pc) (s : State) : (goto p s).words = s.words := rfl
@[simp] theorem goto_widx (p : Pc) (s : State) : (goto p s).widx = s.widx := rfl
@[simp] theorem goto_ndeliv (p : Pc) (s : State) : (goto p s).ndeliv = s.ndeliv := rfl
@[simp] theorem goto_ngaveup (p : Pc) (s : State) : (goto p s).ngaveup = s.ngaveup := rfl
@[simp] theorem goto_rx (p : Pc) (s : State) : (goto p s).rx = s.rx := rfl
@[simp] theorem goto_cs (p : Pc) (s : State) : (goto p s).cs = s.cs := rfl
@[simp] theorem goto_txs (p : Pc) (s : State) : (goto p s).txs = s.txs := rfl
@[simp] theorem goto_txfrom (p : Pc) (s : State) : (goto p s).txfrom = s.txfrom := rfl
@[simp] theorem goto_txpos (p : Pc) (s : State) : (goto p s).txpos = s.txpos := rfl
@[simp] theorem goto_fault (p : Pc) (s : State) : (goto p s).fault = s.fault := rfl
@[simp] theorem goto_results (p : Pc) (s : State) : (goto p s).results = s.results := rfl
@[simp] theorem goto_trace (p : Pc) (s : State) : (goto p s).trace = s.trace := rfl
@[simp] theorem goto_mem (p : Pc) (s : State) : (goto p s).mem = s.mem := rfl
@[simp] theorem goto_consumed (p : Pc) (s : State) : (goto p s).consumed = s.consumed := rfl
@[simp] theorem goto_draws (p : Pc) (s : State) : (goto p s).draws = s.draws := rfl
@[simp] theorem goto_nfree (p : Pc) (s : State) : (goto p s).nfree = s.nfree := rfl
@[simp] theorem goto_sched (p : Pc) (s : State) : (goto p s).sched = s.sched := rfl
@[simp] theorem goto_wire (p : Pc) (s : State) : (goto p s).wire = s.wire := rfl
@[simp] theorem goto_woSeen (p : Pc) (s : State) : (goto p s).woSeen = s.woSeen := rfl

/-! ### latchRequest -/

@[simp] theorem latchRequest_cfg (r : Request) (s : State) : (latchRequest r s).cfg = s.cfg := rfl
@[simp] theorem latchRequest_reqs (r : Request) (s : State) : (latchRequest r s).reqs = s.reqs := rfl
@[simp] theorem latchRequest_resp (r : Request) (s : State) : (latchRequest r s).resp = s.resp := rfl
@[simp] theorem latchRequest_pc (r : Request) (s : State) : (latchRequest r s).pc = s.pc := rfl
@[simp] theorem latchRequest_op (r : Request) (s : State) : (latchRequest r s).op = some (reqOp r.q) := rfl
@[simp] theorem latchRequest_addr (r : Request) (s : State) : (latchRequest r s).addr = some (reqAddr r.q) := rfl
@[simp] theorem latchRequest_data (r : Request) (s : State) : (latchRequest r s).data = some (reqData r.q) := rfl
@[simp] theorem latchRequest_inbytes (r : Request) (s : State) : (latchRequest r s).inbytes = some r.inbytes := rfl
@[simp] theorem latchRequest_inwords (r : Request) (s : State) : (latchRequest r s).inwords = some r.inwords := rfl
@[simp] theorem latchRequest_roL (r : Request) (s : State) : (latchRequest r s).roL = s.roL := rfl
@[simp] theorem latchRequest_woL (r : Request) (s : State) : (latchRequest r s).woL = s.woL := rfl
@[simp] theorem latchRequest_occ (r : Request) (s : State) : (latchRequest r s).occ = s.occ := rfl
@[simp] theorem latchRequest_free (r : Request) (s : State) : (latchRequest r s).free = s.free := rfl
@[simp] theorem latchRequest_attempts (r : Request) (s : State) : (latchRequest r s).attempts = s.attempts := rfl
@[simp] theorem latchRequest_words (r : Request) (s : State) : (latchRequest r s).words = s.words := rfl
@[simp] theorem latchRequest_widx (r : Request) (s : State) : (latchRequest r s).widx = s.widx := rfl
@[simp] theorem latchRequest_ndeliv (r : Request) (s : State) : (latchRequest r s).ndeliv = s.ndeliv := rfl
@[simp] theorem latchRequest_ngaveup (r : Request) (s : State) : (latchRequest r s).ngaveup = s.ngaveup := rfl
@[simp] theorem latchRequest_rx (r : Request) (s : State) : (latchRequest r s).rx = s.rx := rfl
@[simp] theorem latchRequest_cs (r : Request) (s : State) : (latchRequest r s).cs = s.cs := rfl
@[simp] theorem latchRequest_txs (r : Request) (s : State) : (latchRequest r s).txs = s.txs := rfl
@[simp] theorem latchRequest_txfrom (r : Request) (s : State) : (latchRequest r s).txfrom = s.txfrom := rfl
@[simp] theorem latchRequest_txpos (r : Request) (s : State) : (latchRequest r s).txpos = s.txpos := rfl
@[simp] theorem latchRequest_fault (r : Request) (s : State) : (latchRequest r s).fault = s.fault := rfl
@[simp] theorem latchRequest_results (r : Request) (s : State) : (latchRequest r s).results = s.results := rfl
@[simp] theorem latchRequest_trace (r : Request) (s : State) : (latchRequest r s).trace = s.trace := rfl
@[simp] theorem latchRequest_mem (r : Request) (s : State) : (latchRequest r s).mem = s.mem := rfl
@[simp] theorem latchRequest_consumed (r : Request) (s : State) : (latchRequest r s).consumed = s.consumed := rfl
@[simp] theorem latchRequest_draws (r : Request) (s : State) : (latchRequest r s).draws = s.draws := rfl
@[simp] theorem latchRequest_nfree (r : Request) (s : State) : (latchRequest r s).nfree = s.nfree := rfl
@[simp] theorem latchRequest_sched (r : Request) (s : State) : (latchRequest r s).sched = s.sched := rfl
@[simp] theorem latchRequest_wire (r : Request) (s : State) : (latchRequest r s).wire = s.wire := rfl
@[simp] theorem latchRequest_woSeen (r : Request) (s : State) : (latchRequest r s).woSeen = s.woSeen := rfl

/-! ### takeRequest -/

@[simp] theorem takeRequest_cfg (r : Request) (rest : List Request) (s : State) : (takeRequest r rest s).cfg = s.cfg := rfl
@[simp] theorem takeRequest_reqs (r : Request) (rest : List Request) (s : State) : (takeRequest r rest s).reqs = rest := rfl
@[simp] theorem takeRequest_resp (r : Request) (rest : List Request) (s : State) : (takeRequest r rest s).resp = s.resp := rfl
@[simp] theorem takeRequest_pc (r : Request) (rest : List Request) (s : State) : (takeRequest r rest s).pc = s.pc := rfl
@[simp] theorem takeRequest_op (r : Request) (rest : List Request) (s : State) : (takeRequest r rest s).op = some (reqOp r.q) := rfl
@[simp] theorem takeRequest_addr (r : Request) (rest : List Request) (s : State) : (takeRequest r rest s).addr = some (reqAddr r.q) := rfl
@[simp] theorem takeRequest_data (r : Request) (rest : List Request) (s : State) : (takeRequest r rest s).data = some (reqData r.q) := rfl
@[simp] theorem takeRequest_inbytes (r : Request) (rest : List Request) (s : State) : (takeRequest r rest s).inbytes = some r.inbytes := rfl
@[simp] theorem takeRequest_inwords (r : Request) (rest : List Request) (s : State) : (takeRequest r rest s).inwords = some r.inwords := rfl
@[simp] theorem takeRequest_roL (r : Request) (rest : List Request) (s : State) : (takeRequest r rest s).roL = s.roL := rfl
@[simp] theorem takeRequest_woL (r : Request) (rest : List Request) (s : State) : (takeRequest r rest s).woL = s.woL := rfl
@[simp] theorem takeRequest_occ (r : Request) (rest : List Request) (s : State) : (takeRequest r rest s).occ = s.occ := rfl
@[simp] theorem takeRequest_free (r : Request) (rest : List Request) (s : State) : (takeRequest r rest s).free = s.free := rfl
@[simp] theorem takeRequest_attempts (r : Request) (rest : List Request) (s : State) : (takeRequest r rest s).attempts = s.attempts := rfl
@[simp] theorem takeRequest_words (r : Request) (rest : List Request) (s : State) : (takeRequest r rest s).words = s.words := rfl
@[simp] theorem takeRequest_widx (r : Request) (rest : List Request) (s : State) : (takeRequest r rest s).widx = s.widx := rfl
@[simp] theorem takeRequest_ndeliv (r : Request) (rest : List Request) (s : State) : (takeRequest r rest s).ndeliv = s.ndeliv := rfl
@[simp] theorem takeRequest_ngaveup (r : Request) (rest : List Request) (s : State) : (takeRequest r rest s).ngaveup = s.ngaveup := rfl
@[simp] theorem takeRequest_rx (r : Request) (rest : List Request) (s : State) : (takeRequest r rest s).rx = s.rx := rfl
@[simp] theorem takeRequest_cs (r : Request) (rest : List Request) (s : State) : (takeRequest r rest s).cs = s.cs := rfl
@[simp] theorem takeRequest_txs (r : Request) (rest : List Request) (s : State) : (takeRequest r rest s).txs = s.txs := rfl
@[simp] theorem takeRequest_txfrom (r : Request) (rest : List Request) (s : State) : (takeRequest r rest s).txfrom = s.txfrom := rfl
@[simp] theorem takeRequest_txpos (r : Request) (rest : List Request) (s : State) : (takeRequest r rest s).txpos = s.txpos := rfl
@[simp] theorem takeRequest_fault (r : Request) (rest : List Request) (s : State) : (takeRequest r rest s).fault = s.fault := rfl
@[simp] theorem takeRequest_results (r : Request) (rest : List Request) (s : State) : (takeRequest r rest s).results = s.results := rfl
@[simp] theorem takeRequest_trace (r : Request) (rest : List Request) (s : State) : (takeRequest r rest s).trace = s.trace := rfl
@[simp] theorem takeRequest_mem (r : Request) (rest : List Request) (s : State) : (takeRequest r rest s).mem = s.mem := rfl
@[simp] theorem takeRequest_consumed (r : Request) (rest : List Request) (s : State) : (takeRequest r rest s).consumed = s.consumed := rfl
@[simp] theorem takeRequest_draws (r : Request) (rest : List Request) (s : State) : (takeRequest r rest s).draws = s.draws := rfl
@[simp] theorem takeRequest_nfree (r : Request) (rest : List Request) (s : State) : (takeRequest r rest s).nfree = s.nfree := rfl
@[simp] theorem takeRequest_sched (r : Request) (rest : List Request) (s : State) : (takeRequest r rest s).sched = s.sched := rfl
@[simp] theorem takeRequest_wire (r : Request) (rest : List Request) (s : State) : (takeRequest r rest s).wire = s.wire := rfl
@[simp] theorem takeRequest_woSeen (r : Request) (rest : List Request) (s : State) : (takeRequest r rest s).woSeen = s.woSeen := rfl

/-! ### refuse -/

@[simp] theorem refuse_cfg (s : State) : (refuse s).cfg = s.cfg := rfl
@[simp] theorem refuse_reqs (s : State) : (refuse s).reqs = s.reqs := rfl
@[simp] theorem refuse_resp (s : State) : (refuse s).resp = s.resp ++ [plainResult .illegal 0#32] := rfl
@[simp] theorem refuse_pc (s : State) : (refuse s).pc = .idle := rfl
@[simp] theorem refuse_op (s : State) : (refuse s).op = s.op := rfl
@[simp] theorem refuse_addr (s : State) : (refuse s).addr = s.addr := rfl
@[simp] theorem refuse_data (s : State) : (refuse s).data = s.data := rfl
@[simp] theorem refuse_inbytes (s : State) : (refuse s).inbytes = s.inbytes := rfl
@[simp] theorem refuse_inwords (s : State) : (refuse s).inwords = s.inwords := rfl
@[simp] theorem refuse_roL (s : State) : (refuse s).roL = s.roL := rfl
@[simp] theorem refuse_woL (s : State) : (refuse s).woL = s.woL := rfl
@[simp] theorem refuse_occ (s : State) : (refuse s).occ = s.occ := rfl
@[simp] theorem refuse_free (s : State) : (refuse s).free = s.free := rfl
@[simp] theorem refuse_attempts (s : State) : (refuse s).attempts = s.attempts := rfl
@[simp] theorem refuse_words (s : State) : (refuse s).words = s.words := rfl
@[simp] theorem refuse_widx (s : State) : (refuse s).widx = s.widx := rfl
@[simp] theorem refuse_ndeliv (s : State) : (refuse s).ndeliv = s.ndeliv := rfl
@[simp] theorem refuse_ngaveup (s : State) : (refuse s).ngaveup = s.ngaveup := rfl
@[simp] theorem refuse_rx (s : State) : (refuse s).rx = s.rx := rfl
@[simp] theorem refuse_cs (s : State) : (refuse s).cs = s.cs := rfl
@[simp] theorem refuse_txs (s : State) : (refuse s).txs = s.txs := rfl
@[simp] theorem refuse_txfrom (s : State) : (refuse s).txfrom = s.txfrom := rfl
@[simp] theorem refuse_txpos (s : State) : (refuse s).txpos = s.txpos := rfl
@[simp] theorem refuse_fault (s : State) : (refuse s).fault = s.fault ||| faultIllegal := rfl
@[simp] theorem refuse_results (s : State) : (refuse s).results = s.results ++ [plainResult .illegal 0#32] := rfl
@[simp] theorem refuse_trace (s : State) : (refuse s).trace = s.trace := rfl
@[simp] theorem refuse_mem (s : State) : (refuse s).mem = s.mem := rfl
@[simp] theorem refuse_consumed (s : State) : (refuse s).consumed = s.consumed := rfl
@[simp] theorem refuse_draws (s : State) : (refuse s).draws = s.draws := rfl
@[simp] theorem refuse_nfree (s : State) : (refuse s).nfree = s.nfree := rfl
@[simp] theorem refuse_sched (s : State) : (refuse s).sched = s.sched := rfl
@[simp] theorem refuse_wire (s : State) : (refuse s).wire = s.wire := rfl
@[simp] theorem refuse_woSeen (s : State) : (refuse s).woSeen = s.woSeen := rfl

/-! ### enterFault -/

@[simp] theorem enterFault_cfg (bit : BitVec 4) (b : Bool) (s : State) : (enterFault bit b s).cfg = s.cfg := by cases b <;> rfl
@[simp] theorem enterFault_reqs (bit : BitVec 4) (b : Bool) (s : State) : (enterFault bit b s).reqs = s.reqs := by cases b <;> rfl
@[simp] theorem enterFault_resp (bit : BitVec 4) (b : Bool) (s : State) : (enterFault bit b s).resp = if b then s.resp ++ [plainResult .faulted 0#32] else s.resp := by cases b <;> rfl
@[simp] theorem enterFault_pc (bit : BitVec 4) (b : Bool) (s : State) : (enterFault bit b s).pc = .fault := by cases b <;> rfl
@[simp] theorem enterFault_op (bit : BitVec 4) (b : Bool) (s : State) : (enterFault bit b s).op = s.op := by cases b <;> rfl
@[simp] theorem enterFault_addr (bit : BitVec 4) (b : Bool) (s : State) : (enterFault bit b s).addr = s.addr := by cases b <;> rfl
@[simp] theorem enterFault_data (bit : BitVec 4) (b : Bool) (s : State) : (enterFault bit b s).data = s.data := by cases b <;> rfl
@[simp] theorem enterFault_inbytes (bit : BitVec 4) (b : Bool) (s : State) : (enterFault bit b s).inbytes = s.inbytes := by cases b <;> rfl
@[simp] theorem enterFault_inwords (bit : BitVec 4) (b : Bool) (s : State) : (enterFault bit b s).inwords = s.inwords := by cases b <;> rfl
@[simp] theorem enterFault_roL (bit : BitVec 4) (b : Bool) (s : State) : (enterFault bit b s).roL = s.roL := by cases b <;> rfl
@[simp] theorem enterFault_woL (bit : BitVec 4) (b : Bool) (s : State) : (enterFault bit b s).woL = s.woL := by cases b <;> rfl
@[simp] theorem enterFault_occ (bit : BitVec 4) (b : Bool) (s : State) : (enterFault bit b s).occ = s.occ := by cases b <;> rfl
@[simp] theorem enterFault_free (bit : BitVec 4) (b : Bool) (s : State) : (enterFault bit b s).free = s.free := by cases b <;> rfl
@[simp] theorem enterFault_attempts (bit : BitVec 4) (b : Bool) (s : State) : (enterFault bit b s).attempts = s.attempts := by cases b <;> rfl
@[simp] theorem enterFault_words (bit : BitVec 4) (b : Bool) (s : State) : (enterFault bit b s).words = s.words := by cases b <;> rfl
@[simp] theorem enterFault_widx (bit : BitVec 4) (b : Bool) (s : State) : (enterFault bit b s).widx = s.widx := by cases b <;> rfl
@[simp] theorem enterFault_ndeliv (bit : BitVec 4) (b : Bool) (s : State) : (enterFault bit b s).ndeliv = s.ndeliv := by cases b <;> rfl
@[simp] theorem enterFault_ngaveup (bit : BitVec 4) (b : Bool) (s : State) : (enterFault bit b s).ngaveup = s.ngaveup := by cases b <;> rfl
@[simp] theorem enterFault_rx (bit : BitVec 4) (b : Bool) (s : State) : (enterFault bit b s).rx = s.rx := by cases b <;> rfl
@[simp] theorem enterFault_cs (bit : BitVec 4) (b : Bool) (s : State) : (enterFault bit b s).cs = s.cs := by cases b <;> rfl
@[simp] theorem enterFault_txs (bit : BitVec 4) (b : Bool) (s : State) : (enterFault bit b s).txs = s.txs := by cases b <;> rfl
@[simp] theorem enterFault_txfrom (bit : BitVec 4) (b : Bool) (s : State) : (enterFault bit b s).txfrom = s.txfrom := by cases b <;> rfl
@[simp] theorem enterFault_txpos (bit : BitVec 4) (b : Bool) (s : State) : (enterFault bit b s).txpos = s.txpos := by cases b <;> rfl
@[simp] theorem enterFault_fault (bit : BitVec 4) (b : Bool) (s : State) : (enterFault bit b s).fault = s.fault ||| bit := by cases b <;> rfl
@[simp] theorem enterFault_results (bit : BitVec 4) (b : Bool) (s : State) : (enterFault bit b s).results = if b then s.results ++ [plainResult .faulted 0#32] else s.results := by cases b <;> rfl
@[simp] theorem enterFault_trace (bit : BitVec 4) (b : Bool) (s : State) : (enterFault bit b s).trace = s.trace := by cases b <;> rfl
@[simp] theorem enterFault_mem (bit : BitVec 4) (b : Bool) (s : State) : (enterFault bit b s).mem = s.mem := by cases b <;> rfl
@[simp] theorem enterFault_consumed (bit : BitVec 4) (b : Bool) (s : State) : (enterFault bit b s).consumed = s.consumed := by cases b <;> rfl
@[simp] theorem enterFault_draws (bit : BitVec 4) (b : Bool) (s : State) : (enterFault bit b s).draws = s.draws := by cases b <;> rfl
@[simp] theorem enterFault_nfree (bit : BitVec 4) (b : Bool) (s : State) : (enterFault bit b s).nfree = s.nfree := by cases b <;> rfl
@[simp] theorem enterFault_sched (bit : BitVec 4) (b : Bool) (s : State) : (enterFault bit b s).sched = s.sched := by cases b <;> rfl
@[simp] theorem enterFault_wire (bit : BitVec 4) (b : Bool) (s : State) : (enterFault bit b s).wire = s.wire := by cases b <;> rfl
@[simp] theorem enterFault_woSeen (bit : BitVec 4) (b : Bool) (s : State) : (enterFault bit b s).woSeen = s.woSeen := by cases b <;> rfl

/-! ### startXfer -/

@[simp] theorem startXfer_cfg (bytes : List Byte) (cap : Nat) (s : State) : (startXfer bytes cap s).cfg = s.cfg := rfl
@[simp] theorem startXfer_reqs (bytes : List Byte) (cap : Nat) (s : State) : (startXfer bytes cap s).reqs = s.reqs := rfl
@[simp] theorem startXfer_resp (bytes : List Byte) (cap : Nat) (s : State) : (startXfer bytes cap s).resp = s.resp := rfl
@[simp] theorem startXfer_pc (bytes : List Byte) (cap : Nat) (s : State) : (startXfer bytes cap s).pc = s.pc := rfl
@[simp] theorem startXfer_op (bytes : List Byte) (cap : Nat) (s : State) : (startXfer bytes cap s).op = s.op := rfl
@[simp] theorem startXfer_addr (bytes : List Byte) (cap : Nat) (s : State) : (startXfer bytes cap s).addr = s.addr := rfl
@[simp] theorem startXfer_data (bytes : List Byte) (cap : Nat) (s : State) : (startXfer bytes cap s).data = s.data := rfl
@[simp] theorem startXfer_inbytes (bytes : List Byte) (cap : Nat) (s : State) : (startXfer bytes cap s).inbytes = s.inbytes := rfl
@[simp] theorem startXfer_inwords (bytes : List Byte) (cap : Nat) (s : State) : (startXfer bytes cap s).inwords = s.inwords := rfl
@[simp] theorem startXfer_roL (bytes : List Byte) (cap : Nat) (s : State) : (startXfer bytes cap s).roL = s.roL := rfl
@[simp] theorem startXfer_woL (bytes : List Byte) (cap : Nat) (s : State) : (startXfer bytes cap s).woL = s.woL := rfl
@[simp] theorem startXfer_occ (bytes : List Byte) (cap : Nat) (s : State) : (startXfer bytes cap s).occ = s.occ := rfl
@[simp] theorem startXfer_free (bytes : List Byte) (cap : Nat) (s : State) : (startXfer bytes cap s).free = s.free := rfl
@[simp] theorem startXfer_attempts (bytes : List Byte) (cap : Nat) (s : State) : (startXfer bytes cap s).attempts = s.attempts := rfl
@[simp] theorem startXfer_words (bytes : List Byte) (cap : Nat) (s : State) : (startXfer bytes cap s).words = s.words := rfl
@[simp] theorem startXfer_widx (bytes : List Byte) (cap : Nat) (s : State) : (startXfer bytes cap s).widx = s.widx := rfl
@[simp] theorem startXfer_ndeliv (bytes : List Byte) (cap : Nat) (s : State) : (startXfer bytes cap s).ndeliv = s.ndeliv := rfl
@[simp] theorem startXfer_ngaveup (bytes : List Byte) (cap : Nat) (s : State) : (startXfer bytes cap s).ngaveup = s.ngaveup := rfl
@[simp] theorem startXfer_rx (bytes : List Byte) (cap : Nat) (s : State) : (startXfer bytes cap s).rx = some [] := rfl
@[simp] theorem startXfer_cs (bytes : List Byte) (cap : Nat) (s : State) : (startXfer bytes cap s).cs = s.cs := rfl
@[simp] theorem startXfer_txs (bytes : List Byte) (cap : Nat) (s : State) : (startXfer bytes cap s).txs = some bytes := rfl
@[simp] theorem startXfer_txfrom (bytes : List Byte) (cap : Nat) (s : State) : (startXfer bytes cap s).txfrom = some cap := rfl
@[simp] theorem startXfer_txpos (bytes : List Byte) (cap : Nat) (s : State) : (startXfer bytes cap s).txpos = some 0 := rfl
@[simp] theorem startXfer_fault (bytes : List Byte) (cap : Nat) (s : State) : (startXfer bytes cap s).fault = s.fault := rfl
@[simp] theorem startXfer_results (bytes : List Byte) (cap : Nat) (s : State) : (startXfer bytes cap s).results = s.results := rfl
@[simp] theorem startXfer_trace (bytes : List Byte) (cap : Nat) (s : State) : (startXfer bytes cap s).trace = s.trace := rfl
@[simp] theorem startXfer_mem (bytes : List Byte) (cap : Nat) (s : State) : (startXfer bytes cap s).mem = s.mem := rfl
@[simp] theorem startXfer_consumed (bytes : List Byte) (cap : Nat) (s : State) : (startXfer bytes cap s).consumed = s.consumed := rfl
@[simp] theorem startXfer_draws (bytes : List Byte) (cap : Nat) (s : State) : (startXfer bytes cap s).draws = s.draws := rfl
@[simp] theorem startXfer_nfree (bytes : List Byte) (cap : Nat) (s : State) : (startXfer bytes cap s).nfree = s.nfree := rfl
@[simp] theorem startXfer_sched (bytes : List Byte) (cap : Nat) (s : State) : (startXfer bytes cap s).sched = s.sched := rfl
@[simp] theorem startXfer_wire (bytes : List Byte) (cap : Nat) (s : State) : (startXfer bytes cap s).wire = s.wire := rfl
@[simp] theorem startXfer_woSeen (bytes : List Byte) (cap : Nat) (s : State) : (startXfer bytes cap s).woSeen = s.woSeen := rfl

/-! ### select -/

@[simp] theorem select_cfg (s : State) : (select s).cfg = s.cfg := rfl
@[simp] theorem select_reqs (s : State) : (select s).reqs = s.reqs := rfl
@[simp] theorem select_resp (s : State) : (select s).resp = s.resp := rfl
@[simp] theorem select_pc (s : State) : (select s).pc = s.pc := rfl
@[simp] theorem select_op (s : State) : (select s).op = s.op := rfl
@[simp] theorem select_addr (s : State) : (select s).addr = s.addr := rfl
@[simp] theorem select_data (s : State) : (select s).data = s.data := rfl
@[simp] theorem select_inbytes (s : State) : (select s).inbytes = s.inbytes := rfl
@[simp] theorem select_inwords (s : State) : (select s).inwords = s.inwords := rfl
@[simp] theorem select_roL (s : State) : (select s).roL = s.roL := rfl
@[simp] theorem select_woL (s : State) : (select s).woL = s.woL := rfl
@[simp] theorem select_occ (s : State) : (select s).occ = s.occ := rfl
@[simp] theorem select_free (s : State) : (select s).free = s.free := rfl
@[simp] theorem select_attempts (s : State) : (select s).attempts = s.attempts := rfl
@[simp] theorem select_words (s : State) : (select s).words = s.words := rfl
@[simp] theorem select_widx (s : State) : (select s).widx = s.widx := rfl
@[simp] theorem select_ndeliv (s : State) : (select s).ndeliv = s.ndeliv := rfl
@[simp] theorem select_ngaveup (s : State) : (select s).ngaveup = s.ngaveup := rfl
@[simp] theorem select_rx (s : State) : (select s).rx = s.rx := rfl
@[simp] theorem select_cs (s : State) : (select s).cs = true := rfl
@[simp] theorem select_txs (s : State) : (select s).txs = s.txs := rfl
@[simp] theorem select_txfrom (s : State) : (select s).txfrom = s.txfrom := rfl
@[simp] theorem select_txpos (s : State) : (select s).txpos = s.txpos := rfl
@[simp] theorem select_fault (s : State) : (select s).fault = s.fault := rfl
@[simp] theorem select_results (s : State) : (select s).results = s.results := rfl
@[simp] theorem select_trace (s : State) : (select s).trace = s.trace ++ [.sel] := rfl
@[simp] theorem select_mem (s : State) : (select s).mem = s.mem := rfl
@[simp] theorem select_consumed (s : State) : (select s).consumed = s.consumed := rfl
@[simp] theorem select_draws (s : State) : (select s).draws = s.draws := rfl
@[simp] theorem select_nfree (s : State) : (select s).nfree = s.nfree := rfl
@[simp] theorem select_sched (s : State) : (select s).sched = s.sched := rfl
@[simp] theorem select_wire (s : State) : (select s).wire = s.wire := rfl
@[simp] theorem select_woSeen (s : State) : (select s).woSeen = chipWrite s := rfl

/-! ### deselect -/

@[simp] theorem deselect_cfg (s : State) : (deselect s).cfg = s.cfg := rfl
@[simp] theorem deselect_reqs (s : State) : (deselect s).reqs = s.reqs := rfl
@[simp] theorem deselect_resp (s : State) : (deselect s).resp = s.resp := rfl
@[simp] theorem deselect_pc (s : State) : (deselect s).pc = s.pc := rfl
@[simp] theorem deselect_op (s : State) : (deselect s).op = s.op := rfl
@[simp] theorem deselect_addr (s : State) : (deselect s).addr = s.addr := rfl
@[simp] theorem deselect_data (s : State) : (deselect s).data = s.data := rfl
@[simp] theorem deselect_inbytes (s : State) : (deselect s).inbytes = s.inbytes := rfl
@[simp] theorem deselect_inwords (s : State) : (deselect s).inwords = s.inwords := rfl
@[simp] theorem deselect_roL (s : State) : (deselect s).roL = s.roL := rfl
@[simp] theorem deselect_woL (s : State) : (deselect s).woL = s.woL := rfl
@[simp] theorem deselect_occ (s : State) : (deselect s).occ = s.occ := rfl
@[simp] theorem deselect_free (s : State) : (deselect s).free = s.free := rfl
@[simp] theorem deselect_attempts (s : State) : (deselect s).attempts = s.attempts := rfl
@[simp] theorem deselect_words (s : State) : (deselect s).words = s.words := rfl
@[simp] theorem deselect_widx (s : State) : (deselect s).widx = s.widx := rfl
@[simp] theorem deselect_ndeliv (s : State) : (deselect s).ndeliv = s.ndeliv := rfl
@[simp] theorem deselect_ngaveup (s : State) : (deselect s).ngaveup = s.ngaveup := rfl
@[simp] theorem deselect_rx (s : State) : (deselect s).rx = s.rx := rfl
@[simp] theorem deselect_cs (s : State) : (deselect s).cs = false := rfl
@[simp] theorem deselect_txs (s : State) : (deselect s).txs = s.txs := rfl
@[simp] theorem deselect_txfrom (s : State) : (deselect s).txfrom = s.txfrom := rfl
@[simp] theorem deselect_txpos (s : State) : (deselect s).txpos = s.txpos := rfl
@[simp] theorem deselect_fault (s : State) : (deselect s).fault = s.fault := rfl
@[simp] theorem deselect_results (s : State) : (deselect s).results = s.results := rfl
@[simp] theorem deselect_trace (s : State) : (deselect s).trace = s.trace ++ [.desel] := rfl
@[simp] theorem deselect_mem (s : State) : (deselect s).mem = s.mem := rfl
@[simp] theorem deselect_consumed (s : State) : (deselect s).consumed = s.consumed := rfl
@[simp] theorem deselect_draws (s : State) : (deselect s).draws = s.draws := rfl
@[simp] theorem deselect_nfree (s : State) : (deselect s).nfree = s.nfree := rfl
@[simp] theorem deselect_sched (s : State) : (deselect s).sched = s.sched := rfl
@[simp] theorem deselect_wire (s : State) : (deselect s).wire = s.wire := rfl
@[simp] theorem deselect_woSeen (s : State) : (deselect s).woSeen = s.woSeen := rfl

/-! ### exchange -/

@[simp] theorem exchange_cfg (bytes : List Byte) (cap i : Nat) (rx : List Byte) (o : Byte) (s : State) : (exchange bytes cap i rx o s).cfg = s.cfg := rfl
@[simp] theorem exchange_reqs (bytes : List Byte) (cap i : Nat) (rx : List Byte) (o : Byte) (s : State) : (exchange bytes cap i rx o s).reqs = s.reqs := rfl
@[simp] theorem exchange_resp (bytes : List Byte) (cap i : Nat) (rx : List Byte) (o : Byte) (s : State) : (exchange bytes cap i rx o s).resp = s.resp := rfl
@[simp] theorem exchange_pc (bytes : List Byte) (cap i : Nat) (rx : List Byte) (o : Byte) (s : State) : (exchange bytes cap i rx o s).pc = s.pc := rfl
@[simp] theorem exchange_op (bytes : List Byte) (cap i : Nat) (rx : List Byte) (o : Byte) (s : State) : (exchange bytes cap i rx o s).op = s.op := rfl
@[simp] theorem exchange_addr (bytes : List Byte) (cap i : Nat) (rx : List Byte) (o : Byte) (s : State) : (exchange bytes cap i rx o s).addr = s.addr := rfl
@[simp] theorem exchange_data (bytes : List Byte) (cap i : Nat) (rx : List Byte) (o : Byte) (s : State) : (exchange bytes cap i rx o s).data = s.data := rfl
@[simp] theorem exchange_inbytes (bytes : List Byte) (cap i : Nat) (rx : List Byte) (o : Byte) (s : State) : (exchange bytes cap i rx o s).inbytes = s.inbytes := rfl
@[simp] theorem exchange_inwords (bytes : List Byte) (cap i : Nat) (rx : List Byte) (o : Byte) (s : State) : (exchange bytes cap i rx o s).inwords = s.inwords := rfl
@[simp] theorem exchange_roL (bytes : List Byte) (cap i : Nat) (rx : List Byte) (o : Byte) (s : State) : (exchange bytes cap i rx o s).roL = s.roL := rfl
@[simp] theorem exchange_woL (bytes : List Byte) (cap i : Nat) (rx : List Byte) (o : Byte) (s : State) : (exchange bytes cap i rx o s).woL = s.woL := rfl
@[simp] theorem exchange_occ (bytes : List Byte) (cap i : Nat) (rx : List Byte) (o : Byte) (s : State) : (exchange bytes cap i rx o s).occ = s.occ := rfl
@[simp] theorem exchange_free (bytes : List Byte) (cap i : Nat) (rx : List Byte) (o : Byte) (s : State) : (exchange bytes cap i rx o s).free = s.free := rfl
@[simp] theorem exchange_attempts (bytes : List Byte) (cap i : Nat) (rx : List Byte) (o : Byte) (s : State) : (exchange bytes cap i rx o s).attempts = s.attempts := rfl
@[simp] theorem exchange_words (bytes : List Byte) (cap i : Nat) (rx : List Byte) (o : Byte) (s : State) : (exchange bytes cap i rx o s).words = s.words := rfl
@[simp] theorem exchange_widx (bytes : List Byte) (cap i : Nat) (rx : List Byte) (o : Byte) (s : State) : (exchange bytes cap i rx o s).widx = s.widx := rfl
@[simp] theorem exchange_ndeliv (bytes : List Byte) (cap i : Nat) (rx : List Byte) (o : Byte) (s : State) : (exchange bytes cap i rx o s).ndeliv = s.ndeliv := rfl
@[simp] theorem exchange_ngaveup (bytes : List Byte) (cap i : Nat) (rx : List Byte) (o : Byte) (s : State) : (exchange bytes cap i rx o s).ngaveup = s.ngaveup := rfl
@[simp] theorem exchange_rx (bytes : List Byte) (cap i : Nat) (rx : List Byte) (o : Byte) (s : State) : (exchange bytes cap i rx o s).rx = some (if cap ≤ i then rx ++ [received s (bytes.take i)] else rx) := rfl
@[simp] theorem exchange_cs (bytes : List Byte) (cap i : Nat) (rx : List Byte) (o : Byte) (s : State) : (exchange bytes cap i rx o s).cs = s.cs := rfl
@[simp] theorem exchange_txs (bytes : List Byte) (cap i : Nat) (rx : List Byte) (o : Byte) (s : State) : (exchange bytes cap i rx o s).txs = s.txs := rfl
@[simp] theorem exchange_txfrom (bytes : List Byte) (cap i : Nat) (rx : List Byte) (o : Byte) (s : State) : (exchange bytes cap i rx o s).txfrom = s.txfrom := rfl
@[simp] theorem exchange_txpos (bytes : List Byte) (cap i : Nat) (rx : List Byte) (o : Byte) (s : State) : (exchange bytes cap i rx o s).txpos = some (i + 1) := rfl
@[simp] theorem exchange_fault (bytes : List Byte) (cap i : Nat) (rx : List Byte) (o : Byte) (s : State) : (exchange bytes cap i rx o s).fault = s.fault := rfl
@[simp] theorem exchange_results (bytes : List Byte) (cap i : Nat) (rx : List Byte) (o : Byte) (s : State) : (exchange bytes cap i rx o s).results = s.results := rfl
@[simp] theorem exchange_trace (bytes : List Byte) (cap i : Nat) (rx : List Byte) (o : Byte) (s : State) : (exchange bytes cap i rx o s).trace = s.trace ++ [.x o (received s (bytes.take i))] := rfl
@[simp] theorem exchange_mem (bytes : List Byte) (cap i : Nat) (rx : List Byte) (o : Byte) (s : State) : (exchange bytes cap i rx o s).mem = chipStore s.mem (bytes.take i) o := rfl
@[simp] theorem exchange_consumed (bytes : List Byte) (cap i : Nat) (rx : List Byte) (o : Byte) (s : State) : (exchange bytes cap i rx o s).consumed = s.consumed := rfl
@[simp] theorem exchange_draws (bytes : List Byte) (cap i : Nat) (rx : List Byte) (o : Byte) (s : State) : (exchange bytes cap i rx o s).draws = s.draws.tail := rfl
@[simp] theorem exchange_nfree (bytes : List Byte) (cap i : Nat) (rx : List Byte) (o : Byte) (s : State) : (exchange bytes cap i rx o s).nfree = s.nfree + freeDrawn s (bytes.take i) := rfl
@[simp] theorem exchange_sched (bytes : List Byte) (cap i : Nat) (rx : List Byte) (o : Byte) (s : State) : (exchange bytes cap i rx o s).sched = s.sched := rfl
@[simp] theorem exchange_wire (bytes : List Byte) (cap i : Nat) (rx : List Byte) (o : Byte) (s : State) : (exchange bytes cap i rx o s).wire = s.wire := rfl
@[simp] theorem exchange_woSeen (bytes : List Byte) (cap i : Nat) (rx : List Byte) (o : Byte) (s : State) : (exchange bytes cap i rx o s).woSeen = s.woSeen := rfl

/-! ### startRead -/

@[simp] theorem startRead_cfg (p : Pc) (a : Addr) (n : Nat) (s : State) : (startRead p a n s).cfg = s.cfg := rfl
@[simp] theorem startRead_reqs (p : Pc) (a : Addr) (n : Nat) (s : State) : (startRead p a n s).reqs = s.reqs := rfl
@[simp] theorem startRead_resp (p : Pc) (a : Addr) (n : Nat) (s : State) : (startRead p a n s).resp = s.resp := rfl
@[simp] theorem startRead_pc (p : Pc) (a : Addr) (n : Nat) (s : State) : (startRead p a n s).pc = p := rfl
@[simp] theorem startRead_op (p : Pc) (a : Addr) (n : Nat) (s : State) : (startRead p a n s).op = s.op := rfl
@[simp] theorem startRead_addr (p : Pc) (a : Addr) (n : Nat) (s : State) : (startRead p a n s).addr = s.addr := rfl
@[simp] theorem startRead_data (p : Pc) (a : Addr) (n : Nat) (s : State) : (startRead p a n s).data = s.data := rfl
@[simp] theorem startRead_inbytes (p : Pc) (a : Addr) (n : Nat) (s : State) : (startRead p a n s).inbytes = s.inbytes := rfl
@[simp] theorem startRead_inwords (p : Pc) (a : Addr) (n : Nat) (s : State) : (startRead p a n s).inwords = s.inwords := rfl
@[simp] theorem startRead_roL (p : Pc) (a : Addr) (n : Nat) (s : State) : (startRead p a n s).roL = s.roL := rfl
@[simp] theorem startRead_woL (p : Pc) (a : Addr) (n : Nat) (s : State) : (startRead p a n s).woL = s.woL := rfl
@[simp] theorem startRead_occ (p : Pc) (a : Addr) (n : Nat) (s : State) : (startRead p a n s).occ = s.occ := rfl
@[simp] theorem startRead_free (p : Pc) (a : Addr) (n : Nat) (s : State) : (startRead p a n s).free = s.free := rfl
@[simp] theorem startRead_attempts (p : Pc) (a : Addr) (n : Nat) (s : State) : (startRead p a n s).attempts = s.attempts := rfl
@[simp] theorem startRead_words (p : Pc) (a : Addr) (n : Nat) (s : State) : (startRead p a n s).words = s.words := rfl
@[simp] theorem startRead_widx (p : Pc) (a : Addr) (n : Nat) (s : State) : (startRead p a n s).widx = s.widx := rfl
@[simp] theorem startRead_ndeliv (p : Pc) (a : Addr) (n : Nat) (s : State) : (startRead p a n s).ndeliv = s.ndeliv := rfl
@[simp] theorem startRead_ngaveup (p : Pc) (a : Addr) (n : Nat) (s : State) : (startRead p a n s).ngaveup = s.ngaveup := rfl
@[simp] theorem startRead_rx (p : Pc) (a : Addr) (n : Nat) (s : State) : (startRead p a n s).rx = some [] := rfl
@[simp] theorem startRead_cs (p : Pc) (a : Addr) (n : Nat) (s : State) : (startRead p a n s).cs = s.cs := rfl
@[simp] theorem startRead_txs (p : Pc) (a : Addr) (n : Nat) (s : State) : (startRead p a n s).txs = some (txRead a n) := rfl
@[simp] theorem startRead_txfrom (p : Pc) (a : Addr) (n : Nat) (s : State) : (startRead p a n s).txfrom = some readCap := rfl
@[simp] theorem startRead_txpos (p : Pc) (a : Addr) (n : Nat) (s : State) : (startRead p a n s).txpos = some 0 := rfl
@[simp] theorem startRead_fault (p : Pc) (a : Addr) (n : Nat) (s : State) : (startRead p a n s).fault = s.fault := rfl
@[simp] theorem startRead_results (p : Pc) (a : Addr) (n : Nat) (s : State) : (startRead p a n s).results = s.results := rfl
@[simp] theorem startRead_trace (p : Pc) (a : Addr) (n : Nat) (s : State) : (startRead p a n s).trace = s.trace := rfl
@[simp] theorem startRead_mem (p : Pc) (a : Addr) (n : Nat) (s : State) : (startRead p a n s).mem = s.mem := rfl
@[simp] theorem startRead_consumed (p : Pc) (a : Addr) (n : Nat) (s : State) : (startRead p a n s).consumed = s.consumed := rfl
@[simp] theorem startRead_draws (p : Pc) (a : Addr) (n : Nat) (s : State) : (startRead p a n s).draws = s.draws := rfl
@[simp] theorem startRead_nfree (p : Pc) (a : Addr) (n : Nat) (s : State) : (startRead p a n s).nfree = s.nfree := rfl
@[simp] theorem startRead_sched (p : Pc) (a : Addr) (n : Nat) (s : State) : (startRead p a n s).sched = s.sched := rfl
@[simp] theorem startRead_wire (p : Pc) (a : Addr) (n : Nat) (s : State) : (startRead p a n s).wire = s.wire := rfl
@[simp] theorem startRead_woSeen (p : Pc) (a : Addr) (n : Nat) (s : State) : (startRead p a n s).woSeen = s.woSeen := rfl

/-! ### startWrite -/

@[simp] theorem startWrite_cfg (p : Pc) (a : Addr) (bs : List Byte) (s : State) : (startWrite p a bs s).cfg = s.cfg := rfl
@[simp] theorem startWrite_reqs (p : Pc) (a : Addr) (bs : List Byte) (s : State) : (startWrite p a bs s).reqs = s.reqs := rfl
@[simp] theorem startWrite_resp (p : Pc) (a : Addr) (bs : List Byte) (s : State) : (startWrite p a bs s).resp = s.resp := rfl
@[simp] theorem startWrite_pc (p : Pc) (a : Addr) (bs : List Byte) (s : State) : (startWrite p a bs s).pc = p := rfl
@[simp] theorem startWrite_op (p : Pc) (a : Addr) (bs : List Byte) (s : State) : (startWrite p a bs s).op = s.op := rfl
@[simp] theorem startWrite_addr (p : Pc) (a : Addr) (bs : List Byte) (s : State) : (startWrite p a bs s).addr = s.addr := rfl
@[simp] theorem startWrite_data (p : Pc) (a : Addr) (bs : List Byte) (s : State) : (startWrite p a bs s).data = s.data := rfl
@[simp] theorem startWrite_inbytes (p : Pc) (a : Addr) (bs : List Byte) (s : State) : (startWrite p a bs s).inbytes = s.inbytes := rfl
@[simp] theorem startWrite_inwords (p : Pc) (a : Addr) (bs : List Byte) (s : State) : (startWrite p a bs s).inwords = s.inwords := rfl
@[simp] theorem startWrite_roL (p : Pc) (a : Addr) (bs : List Byte) (s : State) : (startWrite p a bs s).roL = s.roL := rfl
@[simp] theorem startWrite_woL (p : Pc) (a : Addr) (bs : List Byte) (s : State) : (startWrite p a bs s).woL = s.woL := rfl
@[simp] theorem startWrite_occ (p : Pc) (a : Addr) (bs : List Byte) (s : State) : (startWrite p a bs s).occ = s.occ := rfl
@[simp] theorem startWrite_free (p : Pc) (a : Addr) (bs : List Byte) (s : State) : (startWrite p a bs s).free = s.free := rfl
@[simp] theorem startWrite_attempts (p : Pc) (a : Addr) (bs : List Byte) (s : State) : (startWrite p a bs s).attempts = s.attempts := rfl
@[simp] theorem startWrite_words (p : Pc) (a : Addr) (bs : List Byte) (s : State) : (startWrite p a bs s).words = s.words := rfl
@[simp] theorem startWrite_widx (p : Pc) (a : Addr) (bs : List Byte) (s : State) : (startWrite p a bs s).widx = s.widx := rfl
@[simp] theorem startWrite_ndeliv (p : Pc) (a : Addr) (bs : List Byte) (s : State) : (startWrite p a bs s).ndeliv = s.ndeliv := rfl
@[simp] theorem startWrite_ngaveup (p : Pc) (a : Addr) (bs : List Byte) (s : State) : (startWrite p a bs s).ngaveup = s.ngaveup := rfl
@[simp] theorem startWrite_rx (p : Pc) (a : Addr) (bs : List Byte) (s : State) : (startWrite p a bs s).rx = some [] := rfl
@[simp] theorem startWrite_cs (p : Pc) (a : Addr) (bs : List Byte) (s : State) : (startWrite p a bs s).cs = s.cs := rfl
@[simp] theorem startWrite_txs (p : Pc) (a : Addr) (bs : List Byte) (s : State) : (startWrite p a bs s).txs = some (txWrite a bs) := rfl
@[simp] theorem startWrite_txfrom (p : Pc) (a : Addr) (bs : List Byte) (s : State) : (startWrite p a bs s).txfrom = some (txWrite a bs).length := rfl
@[simp] theorem startWrite_txpos (p : Pc) (a : Addr) (bs : List Byte) (s : State) : (startWrite p a bs s).txpos = some 0 := rfl
@[simp] theorem startWrite_fault (p : Pc) (a : Addr) (bs : List Byte) (s : State) : (startWrite p a bs s).fault = s.fault := rfl
@[simp] theorem startWrite_results (p : Pc) (a : Addr) (bs : List Byte) (s : State) : (startWrite p a bs s).results = s.results := rfl
@[simp] theorem startWrite_trace (p : Pc) (a : Addr) (bs : List Byte) (s : State) : (startWrite p a bs s).trace = s.trace := rfl
@[simp] theorem startWrite_mem (p : Pc) (a : Addr) (bs : List Byte) (s : State) : (startWrite p a bs s).mem = s.mem := rfl
@[simp] theorem startWrite_consumed (p : Pc) (a : Addr) (bs : List Byte) (s : State) : (startWrite p a bs s).consumed = s.consumed := rfl
@[simp] theorem startWrite_draws (p : Pc) (a : Addr) (bs : List Byte) (s : State) : (startWrite p a bs s).draws = s.draws := rfl
@[simp] theorem startWrite_nfree (p : Pc) (a : Addr) (bs : List Byte) (s : State) : (startWrite p a bs s).nfree = s.nfree := rfl
@[simp] theorem startWrite_sched (p : Pc) (a : Addr) (bs : List Byte) (s : State) : (startWrite p a bs s).sched = s.sched := rfl
@[simp] theorem startWrite_wire (p : Pc) (a : Addr) (bs : List Byte) (s : State) : (startWrite p a bs s).wire = s.wire := rfl
@[simp] theorem startWrite_woSeen (p : Pc) (a : Addr) (bs : List Byte) (s : State) : (startWrite p a bs s).woSeen = s.woSeen := rfl

/-! ### startAttempt -/

@[simp] theorem startAttempt_cfg (s : State) : (startAttempt s).cfg = s.cfg := rfl
@[simp] theorem startAttempt_reqs (s : State) : (startAttempt s).reqs = s.reqs := rfl
@[simp] theorem startAttempt_resp (s : State) : (startAttempt s).resp = s.resp := rfl
@[simp] theorem startAttempt_pc (s : State) : (startAttempt s).pc = .qro := rfl
@[simp] theorem startAttempt_op (s : State) : (startAttempt s).op = s.op := rfl
@[simp] theorem startAttempt_addr (s : State) : (startAttempt s).addr = s.addr := rfl
@[simp] theorem startAttempt_data (s : State) : (startAttempt s).data = s.data := rfl
@[simp] theorem startAttempt_inbytes (s : State) : (startAttempt s).inbytes = s.inbytes := rfl
@[simp] theorem startAttempt_inwords (s : State) : (startAttempt s).inwords = s.inwords := rfl
@[simp] theorem startAttempt_roL (s : State) : (startAttempt s).roL = s.roL := rfl
@[simp] theorem startAttempt_woL (s : State) : (startAttempt s).woL = s.woL := rfl
@[simp] theorem startAttempt_occ (s : State) : (startAttempt s).occ = s.occ := rfl
@[simp] theorem startAttempt_free (s : State) : (startAttempt s).free = s.free := rfl
@[simp] theorem startAttempt_attempts (s : State) : (startAttempt s).attempts = s.attempts := rfl
@[simp] theorem startAttempt_words (s : State) : (startAttempt s).words = s.words := rfl
@[simp] theorem startAttempt_widx (s : State) : (startAttempt s).widx = s.widx := rfl
@[simp] theorem startAttempt_ndeliv (s : State) : (startAttempt s).ndeliv = s.ndeliv := rfl
@[simp] theorem startAttempt_ngaveup (s : State) : (startAttempt s).ngaveup = s.ngaveup := rfl
@[simp] theorem startAttempt_rx (s : State) : (startAttempt s).rx = some [] := rfl
@[simp] theorem startAttempt_cs (s : State) : (startAttempt s).cs = s.cs := rfl
@[simp] theorem startAttempt_txs (s : State) : (startAttempt s).txs = some (txRead (paramAddr s.cfg.regCmdRead) 4) := rfl
@[simp] theorem startAttempt_txfrom (s : State) : (startAttempt s).txfrom = some readCap := rfl
@[simp] theorem startAttempt_txpos (s : State) : (startAttempt s).txpos = some 0 := rfl
@[simp] theorem startAttempt_fault (s : State) : (startAttempt s).fault = s.fault := rfl
@[simp] theorem startAttempt_results (s : State) : (startAttempt s).results = s.results := rfl
@[simp] theorem startAttempt_trace (s : State) : (startAttempt s).trace = s.trace := rfl
@[simp] theorem startAttempt_mem (s : State) : (startAttempt s).mem = s.mem := rfl
@[simp] theorem startAttempt_consumed (s : State) : (startAttempt s).consumed = s.consumed := rfl
@[simp] theorem startAttempt_draws (s : State) : (startAttempt s).draws = s.draws := rfl
@[simp] theorem startAttempt_nfree (s : State) : (startAttempt s).nfree = s.nfree := rfl
@[simp] theorem startAttempt_sched (s : State) : (startAttempt s).sched = s.sched := rfl
@[simp] theorem startAttempt_wire (s : State) : (startAttempt s).wire = s.wire := rfl
@[simp] theorem startAttempt_woSeen (s : State) : (startAttempt s).woSeen = s.woSeen := rfl

/-! ### latchRo -/

@[simp] theorem latchRo_cfg (rx : List Byte) (s : State) : (latchRo rx s).cfg = s.cfg := rfl
@[simp] theorem latchRo_reqs (rx : List Byte) (s : State) : (latchRo rx s).reqs = s.reqs := rfl
@[simp] theorem latchRo_resp (rx : List Byte) (s : State) : (latchRo rx s).resp = s.resp := rfl
@[simp] theorem latchRo_pc (rx : List Byte) (s : State) : (latchRo rx s).pc = .qwo := rfl
@[simp] theorem latchRo_op (rx : List Byte) (s : State) : (latchRo rx s).op = s.op := rfl
@[simp] theorem latchRo_addr (rx : List Byte) (s : State) : (latchRo rx s).addr = s.addr := rfl
@[simp] theorem latchRo_data (rx : List Byte) (s : State) : (latchRo rx s).data = s.data := rfl
@[simp] theorem latchRo_inbytes (rx : List Byte) (s : State) : (latchRo rx s).inbytes = s.inbytes := rfl
@[simp] theorem latchRo_inwords (rx : List Byte) (s : State) : (latchRo rx s).inwords = s.inwords := rfl
@[simp] theorem latchRo_roL (rx : List Byte) (s : State) : (latchRo rx s).roL = some (leWord rx) := rfl
@[simp] theorem latchRo_woL (rx : List Byte) (s : State) : (latchRo rx s).woL = s.woL := rfl
@[simp] theorem latchRo_occ (rx : List Byte) (s : State) : (latchRo rx s).occ = s.occ := rfl
@[simp] theorem latchRo_free (rx : List Byte) (s : State) : (latchRo rx s).free = s.free := rfl
@[simp] theorem latchRo_attempts (rx : List Byte) (s : State) : (latchRo rx s).attempts = s.attempts := rfl
@[simp] theorem latchRo_words (rx : List Byte) (s : State) : (latchRo rx s).words = s.words := rfl
@[simp] theorem latchRo_widx (rx : List Byte) (s : State) : (latchRo rx s).widx = s.widx := rfl
@[simp] theorem latchRo_ndeliv (rx : List Byte) (s : State) : (latchRo rx s).ndeliv = s.ndeliv := rfl
@[simp] theorem latchRo_ngaveup (rx : List Byte) (s : State) : (latchRo rx s).ngaveup = s.ngaveup := rfl
@[simp] theorem latchRo_rx (rx : List Byte) (s : State) : (latchRo rx s).rx = some [] := rfl
@[simp] theorem latchRo_cs (rx : List Byte) (s : State) : (latchRo rx s).cs = s.cs := rfl
@[simp] theorem latchRo_txs (rx : List Byte) (s : State) : (latchRo rx s).txs = some (txRead (paramAddr s.cfg.regCmdWrite) 4) := rfl
@[simp] theorem latchRo_txfrom (rx : List Byte) (s : State) : (latchRo rx s).txfrom = some readCap := rfl
@[simp] theorem latchRo_txpos (rx : List Byte) (s : State) : (latchRo rx s).txpos = some 0 := rfl
@[simp] theorem latchRo_fault (rx : List Byte) (s : State) : (latchRo rx s).fault = s.fault := rfl
@[simp] theorem latchRo_results (rx : List Byte) (s : State) : (latchRo rx s).results = s.results := rfl
@[simp] theorem latchRo_trace (rx : List Byte) (s : State) : (latchRo rx s).trace = s.trace := rfl
@[simp] theorem latchRo_mem (rx : List Byte) (s : State) : (latchRo rx s).mem = s.mem := rfl
@[simp] theorem latchRo_consumed (rx : List Byte) (s : State) : (latchRo rx s).consumed = s.consumed := rfl
@[simp] theorem latchRo_draws (rx : List Byte) (s : State) : (latchRo rx s).draws = s.draws := rfl
@[simp] theorem latchRo_nfree (rx : List Byte) (s : State) : (latchRo rx s).nfree = s.nfree := rfl
@[simp] theorem latchRo_sched (rx : List Byte) (s : State) : (latchRo rx s).sched = s.sched := rfl
@[simp] theorem latchRo_wire (rx : List Byte) (s : State) : (latchRo rx s).wire = s.wire := rfl
@[simp] theorem latchRo_woSeen (rx : List Byte) (s : State) : (latchRo rx s).woSeen = s.woSeen := rfl

/-! ### latchWo -/

@[simp] theorem latchWo_cfg (rx : List Byte) (ro : Word) (s : State) : (latchWo rx ro s).cfg = s.cfg := rfl
@[simp] theorem latchWo_reqs (rx : List Byte) (ro : Word) (s : State) : (latchWo rx ro s).reqs = s.reqs := rfl
@[simp] theorem latchWo_resp (rx : List Byte) (ro : Word) (s : State) : (latchWo rx ro s).resp = s.resp := rfl
@[simp] theorem latchWo_pc (rx : List Byte) (ro : Word) (s : State) : (latchWo rx ro s).pc = s.pc := rfl
@[simp] theorem latchWo_op (rx : List Byte) (ro : Word) (s : State) : (latchWo rx ro s).op = s.op := rfl
@[simp] theorem latchWo_addr (rx : List Byte) (ro : Word) (s : State) : (latchWo rx ro s).addr = s.addr := rfl
@[simp] theorem latchWo_data (rx : List Byte) (ro : Word) (s : State) : (latchWo rx ro s).data = s.data := rfl
@[simp] theorem latchWo_inbytes (rx : List Byte) (ro : Word) (s : State) : (latchWo rx ro s).inbytes = s.inbytes := rfl
@[simp] theorem latchWo_inwords (rx : List Byte) (ro : Word) (s : State) : (latchWo rx ro s).inwords = s.inwords := rfl
@[simp] theorem latchWo_roL (rx : List Byte) (ro : Word) (s : State) : (latchWo rx ro s).roL = s.roL := rfl
@[simp] theorem latchWo_woL (rx : List Byte) (ro : Word) (s : State) : (latchWo rx ro s).woL = some (leWord rx) := rfl
@[simp] theorem latchWo_occ (rx : List Byte) (ro : Word) (s : State) : (latchWo rx ro s).occ = some (occupied (leWord rx) ro) := rfl
@[simp] theorem latchWo_free (rx : List Byte) (ro : Word) (s : State) : (latchWo rx ro s).free = s.free := rfl
@[simp] theorem latchWo_attempts (rx : List Byte) (ro : Word) (s : State) : (latchWo rx ro s).attempts = s.attempts := rfl
@[simp] theorem latchWo_words (rx : List Byte) (ro : Word) (s : State) : (latchWo rx ro s).words = s.words := rfl
@[simp] theorem latchWo_widx (rx : List Byte) (ro : Word) (s : State) : (latchWo rx ro s).widx = s.widx := rfl
@[simp] theorem latchWo_ndeliv (rx : List Byte) (ro : Word) (s : State) : (latchWo rx ro s).ndeliv = s.ndeliv := rfl
@[simp] theorem latchWo_ngaveup (rx : List Byte) (ro : Word) (s : State) : (latchWo rx ro s).ngaveup = s.ngaveup := rfl
@[simp] theorem latchWo_rx (rx : List Byte) (ro : Word) (s : State) : (latchWo rx ro s).rx = s.rx := rfl
@[simp] theorem latchWo_cs (rx : List Byte) (ro : Word) (s : State) : (latchWo rx ro s).cs = s.cs := rfl
@[simp] theorem latchWo_txs (rx : List Byte) (ro : Word) (s : State) : (latchWo rx ro s).txs = s.txs := rfl
@[simp] theorem latchWo_txfrom (rx : List Byte) (ro : Word) (s : State) : (latchWo rx ro s).txfrom = s.txfrom := rfl
@[simp] theorem latchWo_txpos (rx : List Byte) (ro : Word) (s : State) : (latchWo rx ro s).txpos = s.txpos := rfl
@[simp] theorem latchWo_fault (rx : List Byte) (ro : Word) (s : State) : (latchWo rx ro s).fault = s.fault := rfl
@[simp] theorem latchWo_results (rx : List Byte) (ro : Word) (s : State) : (latchWo rx ro s).results = s.results := rfl
@[simp] theorem latchWo_trace (rx : List Byte) (ro : Word) (s : State) : (latchWo rx ro s).trace = s.trace := rfl
@[simp] theorem latchWo_mem (rx : List Byte) (ro : Word) (s : State) : (latchWo rx ro s).mem = s.mem := rfl
@[simp] theorem latchWo_consumed (rx : List Byte) (ro : Word) (s : State) : (latchWo rx ro s).consumed = s.consumed := rfl
@[simp] theorem latchWo_draws (rx : List Byte) (ro : Word) (s : State) : (latchWo rx ro s).draws = s.draws := rfl
@[simp] theorem latchWo_nfree (rx : List Byte) (ro : Word) (s : State) : (latchWo rx ro s).nfree = s.nfree := rfl
@[simp] theorem latchWo_sched (rx : List Byte) (ro : Word) (s : State) : (latchWo rx ro s).sched = s.sched := rfl
@[simp] theorem latchWo_wire (rx : List Byte) (ro : Word) (s : State) : (latchWo rx ro s).wire = s.wire := rfl
@[simp] theorem latchWo_woSeen (rx : List Byte) (ro : Word) (s : State) : (latchWo rx ro s).woSeen = s.woSeen := rfl

/-! ### startRingWrite -/

@[simp] theorem startRingWrite_cfg (w wo : Word) (s : State) : (startRingWrite w wo s).cfg = s.cfg := rfl
@[simp] theorem startRingWrite_reqs (w wo : Word) (s : State) : (startRingWrite w wo s).reqs = s.reqs := rfl
@[simp] theorem startRingWrite_resp (w wo : Word) (s : State) : (startRingWrite w wo s).resp = s.resp := rfl
@[simp] theorem startRingWrite_pc (w wo : Word) (s : State) : (startRingWrite w wo s).pc = .qww := rfl
@[simp] theorem startRingWrite_op (w wo : Word) (s : State) : (startRingWrite w wo s).op = s.op := rfl
@[simp] theorem startRingWrite_addr (w wo : Word) (s : State) : (startRingWrite w wo s).addr = s.addr := rfl
@[simp] theorem startRingWrite_data (w wo : Word) (s : State) : (startRingWrite w wo s).data = s.data := rfl
@[simp] theorem startRingWrite_inbytes (w wo : Word) (s : State) : (startRingWrite w wo s).inbytes = s.inbytes := rfl
@[simp] theorem startRingWrite_inwords (w wo : Word) (s : State) : (startRingWrite w wo s).inwords = s.inwords := rfl
@[simp] theorem startRingWrite_roL (w wo : Word) (s : State) : (startRingWrite w wo s).roL = s.roL := rfl
@[simp] theorem startRingWrite_woL (w wo : Word) (s : State) : (startRingWrite w wo s).woL = s.woL := rfl
@[simp] theorem startRingWrite_occ (w wo : Word) (s : State) : (startRingWrite w wo s).occ = s.occ := rfl
@[simp] theorem startRingWrite_free (w wo : Word) (s : State) : (startRingWrite w wo s).free = s.free := rfl
@[simp] theorem startRingWrite_attempts (w wo : Word) (s : State) : (startRingWrite w wo s).attempts = s.attempts := rfl
@[simp] theorem startRingWrite_words (w wo : Word) (s : State) : (startRingWrite w wo s).words = s.words := rfl
@[simp] theorem startRingWrite_widx (w wo : Word) (s : State) : (startRingWrite w wo s).widx = s.widx := rfl
@[simp] theorem startRingWrite_ndeliv (w wo : Word) (s : State) : (startRingWrite w wo s).ndeliv = s.ndeliv := rfl
@[simp] theorem startRingWrite_ngaveup (w wo : Word) (s : State) : (startRingWrite w wo s).ngaveup = s.ngaveup := rfl
@[simp] theorem startRingWrite_rx (w wo : Word) (s : State) : (startRingWrite w wo s).rx = some [] := rfl
@[simp] theorem startRingWrite_cs (w wo : Word) (s : State) : (startRingWrite w wo s).cs = s.cs := rfl
@[simp] theorem startRingWrite_txs (w wo : Word) (s : State) : (startRingWrite w wo s).txs = some (txWrite (ringAddr s.cfg wo) (le4 w)) := rfl
@[simp] theorem startRingWrite_txfrom (w wo : Word) (s : State) : (startRingWrite w wo s).txfrom = some (txWrite (ringAddr s.cfg wo) (le4 w)).length := rfl
@[simp] theorem startRingWrite_txpos (w wo : Word) (s : State) : (startRingWrite w wo s).txpos = some 0 := rfl
@[simp] theorem startRingWrite_fault (w wo : Word) (s : State) : (startRingWrite w wo s).fault = s.fault := rfl
@[simp] theorem startRingWrite_results (w wo : Word) (s : State) : (startRingWrite w wo s).results = s.results := rfl
@[simp] theorem startRingWrite_trace (w wo : Word) (s : State) : (startRingWrite w wo s).trace = s.trace := rfl
@[simp] theorem startRingWrite_mem (w wo : Word) (s : State) : (startRingWrite w wo s).mem = s.mem := rfl
@[simp] theorem startRingWrite_consumed (w wo : Word) (s : State) : (startRingWrite w wo s).consumed = s.consumed := rfl
@[simp] theorem startRingWrite_draws (w wo : Word) (s : State) : (startRingWrite w wo s).draws = s.draws := rfl
@[simp] theorem startRingWrite_nfree (w wo : Word) (s : State) : (startRingWrite w wo s).nfree = s.nfree := rfl
@[simp] theorem startRingWrite_sched (w wo : Word) (s : State) : (startRingWrite w wo s).sched = s.sched := rfl
@[simp] theorem startRingWrite_wire (w wo : Word) (s : State) : (startRingWrite w wo s).wire = s.wire := rfl
@[simp] theorem startRingWrite_woSeen (w wo : Word) (s : State) : (startRingWrite w wo s).woSeen = s.woSeen := rfl

/-! ### startPointerWrite -/

@[simp] theorem startPointerWrite_cfg (wo : Word) (s : State) : (startPointerWrite wo s).cfg = s.cfg := rfl
@[simp] theorem startPointerWrite_reqs (wo : Word) (s : State) : (startPointerWrite wo s).reqs = s.reqs := rfl
@[simp] theorem startPointerWrite_resp (wo : Word) (s : State) : (startPointerWrite wo s).resp = s.resp := rfl
@[simp] theorem startPointerWrite_pc (wo : Word) (s : State) : (startPointerWrite wo s).pc = .qwp := rfl
@[simp] theorem startPointerWrite_op (wo : Word) (s : State) : (startPointerWrite wo s).op = s.op := rfl
@[simp] theorem startPointerWrite_addr (wo : Word) (s : State) : (startPointerWrite wo s).addr = s.addr := rfl
@[simp] theorem startPointerWrite_data (wo : Word) (s : State) : (startPointerWrite wo s).data = s.data := rfl
@[simp] theorem startPointerWrite_inbytes (wo : Word) (s : State) : (startPointerWrite wo s).inbytes = s.inbytes := rfl
@[simp] theorem startPointerWrite_inwords (wo : Word) (s : State) : (startPointerWrite wo s).inwords = s.inwords := rfl
@[simp] theorem startPointerWrite_roL (wo : Word) (s : State) : (startPointerWrite wo s).roL = s.roL := rfl
@[simp] theorem startPointerWrite_woL (wo : Word) (s : State) : (startPointerWrite wo s).woL = s.woL := rfl
@[simp] theorem startPointerWrite_occ (wo : Word) (s : State) : (startPointerWrite wo s).occ = s.occ := rfl
@[simp] theorem startPointerWrite_free (wo : Word) (s : State) : (startPointerWrite wo s).free = s.free := rfl
@[simp] theorem startPointerWrite_attempts (wo : Word) (s : State) : (startPointerWrite wo s).attempts = s.attempts := rfl
@[simp] theorem startPointerWrite_words (wo : Word) (s : State) : (startPointerWrite wo s).words = s.words := rfl
@[simp] theorem startPointerWrite_widx (wo : Word) (s : State) : (startPointerWrite wo s).widx = s.widx := rfl
@[simp] theorem startPointerWrite_ndeliv (wo : Word) (s : State) : (startPointerWrite wo s).ndeliv = s.ndeliv := rfl
@[simp] theorem startPointerWrite_ngaveup (wo : Word) (s : State) : (startPointerWrite wo s).ngaveup = s.ngaveup := rfl
@[simp] theorem startPointerWrite_rx (wo : Word) (s : State) : (startPointerWrite wo s).rx = some [] := rfl
@[simp] theorem startPointerWrite_cs (wo : Word) (s : State) : (startPointerWrite wo s).cs = s.cs := rfl
@[simp] theorem startPointerWrite_txs (wo : Word) (s : State) : (startPointerWrite wo s).txs = some (txWrite (paramAddr s.cfg.regCmdWrite) (le4 (advance wo))) := rfl
@[simp] theorem startPointerWrite_txfrom (wo : Word) (s : State) : (startPointerWrite wo s).txfrom = some (txWrite (paramAddr s.cfg.regCmdWrite) (le4 (advance wo))).length := rfl
@[simp] theorem startPointerWrite_txpos (wo : Word) (s : State) : (startPointerWrite wo s).txpos = some 0 := rfl
@[simp] theorem startPointerWrite_fault (wo : Word) (s : State) : (startPointerWrite wo s).fault = s.fault := rfl
@[simp] theorem startPointerWrite_results (wo : Word) (s : State) : (startPointerWrite wo s).results = s.results := rfl
@[simp] theorem startPointerWrite_trace (wo : Word) (s : State) : (startPointerWrite wo s).trace = s.trace := rfl
@[simp] theorem startPointerWrite_mem (wo : Word) (s : State) : (startPointerWrite wo s).mem = s.mem := rfl
@[simp] theorem startPointerWrite_consumed (wo : Word) (s : State) : (startPointerWrite wo s).consumed = s.consumed := rfl
@[simp] theorem startPointerWrite_draws (wo : Word) (s : State) : (startPointerWrite wo s).draws = s.draws := rfl
@[simp] theorem startPointerWrite_nfree (wo : Word) (s : State) : (startPointerWrite wo s).nfree = s.nfree := rfl
@[simp] theorem startPointerWrite_sched (wo : Word) (s : State) : (startPointerWrite wo s).sched = s.sched := rfl
@[simp] theorem startPointerWrite_wire (wo : Word) (s : State) : (startPointerWrite wo s).wire = s.wire := rfl
@[simp] theorem startPointerWrite_woSeen (wo : Word) (s : State) : (startPointerWrite wo s).woSeen = s.woSeen := rfl

/-! ### latchText -/

@[simp] theorem latchText_cfg (ws : List Word) (s : State) : (latchText ws s).cfg = s.cfg := rfl
@[simp] theorem latchText_reqs (ws : List Word) (s : State) : (latchText ws s).reqs = s.reqs := rfl
@[simp] theorem latchText_resp (ws : List Word) (s : State) : (latchText ws s).resp = s.resp := rfl
@[simp] theorem latchText_pc (ws : List Word) (s : State) : (latchText ws s).pc = s.pc := rfl
@[simp] theorem latchText_op (ws : List Word) (s : State) : (latchText ws s).op = s.op := rfl
@[simp] theorem latchText_addr (ws : List Word) (s : State) : (latchText ws s).addr = s.addr := rfl
@[simp] theorem latchText_data (ws : List Word) (s : State) : (latchText ws s).data = s.data := rfl
@[simp] theorem latchText_inbytes (ws : List Word) (s : State) : (latchText ws s).inbytes = s.inbytes := rfl
@[simp] theorem latchText_inwords (ws : List Word) (s : State) : (latchText ws s).inwords = s.inwords := rfl
@[simp] theorem latchText_roL (ws : List Word) (s : State) : (latchText ws s).roL = s.roL := rfl
@[simp] theorem latchText_woL (ws : List Word) (s : State) : (latchText ws s).woL = s.woL := rfl
@[simp] theorem latchText_occ (ws : List Word) (s : State) : (latchText ws s).occ = s.occ := rfl
@[simp] theorem latchText_free (ws : List Word) (s : State) : (latchText ws s).free = s.free := rfl
@[simp] theorem latchText_attempts (ws : List Word) (s : State) : (latchText ws s).attempts = s.attempts := rfl
@[simp] theorem latchText_words (ws : List Word) (s : State) : (latchText ws s).words = some ws := rfl
@[simp] theorem latchText_widx (ws : List Word) (s : State) : (latchText ws s).widx = some 0#17 := rfl
@[simp] theorem latchText_ndeliv (ws : List Word) (s : State) : (latchText ws s).ndeliv = some 0#16 := rfl
@[simp] theorem latchText_ngaveup (ws : List Word) (s : State) : (latchText ws s).ngaveup = some 0#16 := rfl
@[simp] theorem latchText_rx (ws : List Word) (s : State) : (latchText ws s).rx = s.rx := rfl
@[simp] theorem latchText_cs (ws : List Word) (s : State) : (latchText ws s).cs = s.cs := rfl
@[simp] theorem latchText_txs (ws : List Word) (s : State) : (latchText ws s).txs = s.txs := rfl
@[simp] theorem latchText_txfrom (ws : List Word) (s : State) : (latchText ws s).txfrom = s.txfrom := rfl
@[simp] theorem latchText_txpos (ws : List Word) (s : State) : (latchText ws s).txpos = s.txpos := rfl
@[simp] theorem latchText_fault (ws : List Word) (s : State) : (latchText ws s).fault = s.fault := rfl
@[simp] theorem latchText_results (ws : List Word) (s : State) : (latchText ws s).results = s.results := rfl
@[simp] theorem latchText_trace (ws : List Word) (s : State) : (latchText ws s).trace = s.trace := rfl
@[simp] theorem latchText_mem (ws : List Word) (s : State) : (latchText ws s).mem = s.mem := rfl
@[simp] theorem latchText_consumed (ws : List Word) (s : State) : (latchText ws s).consumed = s.consumed := rfl
@[simp] theorem latchText_draws (ws : List Word) (s : State) : (latchText ws s).draws = s.draws := rfl
@[simp] theorem latchText_nfree (ws : List Word) (s : State) : (latchText ws s).nfree = s.nfree := rfl
@[simp] theorem latchText_sched (ws : List Word) (s : State) : (latchText ws s).sched = s.sched := rfl
@[simp] theorem latchText_wire (ws : List Word) (s : State) : (latchText ws s).wire = s.wire := rfl
@[simp] theorem latchText_woSeen (ws : List Word) (s : State) : (latchText ws s).woSeen = s.woSeen := rfl

/-! ### clearBlock -/

@[simp] theorem clearBlock_cfg (s : State) : (clearBlock s).cfg = s.cfg := rfl
@[simp] theorem clearBlock_reqs (s : State) : (clearBlock s).reqs = s.reqs := rfl
@[simp] theorem clearBlock_resp (s : State) : (clearBlock s).resp = [] := rfl
@[simp] theorem clearBlock_pc (s : State) : (clearBlock s).pc = .idle := rfl
@[simp] theorem clearBlock_op (s : State) : (clearBlock s).op = none := rfl
@[simp] theorem clearBlock_addr (s : State) : (clearBlock s).addr = none := rfl
@[simp] theorem clearBlock_data (s : State) : (clearBlock s).data = none := rfl
@[simp] theorem clearBlock_inbytes (s : State) : (clearBlock s).inbytes = none := rfl
@[simp] theorem clearBlock_inwords (s : State) : (clearBlock s).inwords = none := rfl
@[simp] theorem clearBlock_roL (s : State) : (clearBlock s).roL = none := rfl
@[simp] theorem clearBlock_woL (s : State) : (clearBlock s).woL = none := rfl
@[simp] theorem clearBlock_occ (s : State) : (clearBlock s).occ = none := rfl
@[simp] theorem clearBlock_free (s : State) : (clearBlock s).free = none := rfl
@[simp] theorem clearBlock_attempts (s : State) : (clearBlock s).attempts = none := rfl
@[simp] theorem clearBlock_words (s : State) : (clearBlock s).words = none := rfl
@[simp] theorem clearBlock_widx (s : State) : (clearBlock s).widx = none := rfl
@[simp] theorem clearBlock_ndeliv (s : State) : (clearBlock s).ndeliv = none := rfl
@[simp] theorem clearBlock_ngaveup (s : State) : (clearBlock s).ngaveup = none := rfl
@[simp] theorem clearBlock_rx (s : State) : (clearBlock s).rx = none := rfl
@[simp] theorem clearBlock_cs (s : State) : (clearBlock s).cs = false := rfl
@[simp] theorem clearBlock_txs (s : State) : (clearBlock s).txs = none := rfl
@[simp] theorem clearBlock_txfrom (s : State) : (clearBlock s).txfrom = none := rfl
@[simp] theorem clearBlock_txpos (s : State) : (clearBlock s).txpos = none := rfl
@[simp] theorem clearBlock_fault (s : State) : (clearBlock s).fault = 0b0000#4 := rfl
@[simp] theorem clearBlock_results (s : State) : (clearBlock s).results = s.results := rfl
@[simp] theorem clearBlock_trace (s : State) : (clearBlock s).trace = if s.cs then s.trace ++ [.desel] else s.trace := rfl
@[simp] theorem clearBlock_mem (s : State) : (clearBlock s).mem = s.mem := rfl
@[simp] theorem clearBlock_consumed (s : State) : (clearBlock s).consumed = s.consumed := rfl
@[simp] theorem clearBlock_draws (s : State) : (clearBlock s).draws = s.draws := rfl
@[simp] theorem clearBlock_nfree (s : State) : (clearBlock s).nfree = s.nfree := rfl
@[simp] theorem clearBlock_sched (s : State) : (clearBlock s).sched = s.sched := rfl
@[simp] theorem clearBlock_wire (s : State) : (clearBlock s).wire = none := rfl
@[simp] theorem clearBlock_woSeen (s : State) : (clearBlock s).woSeen = s.woSeen := rfl

/-! ### applyReset -/

@[simp] theorem applyReset_cfg (s : State) : (applyReset s).cfg = s.cfg := by unfold applyReset; split <;> rfl
@[simp] theorem applyReset_reqs (s : State) : (applyReset s).reqs = s.reqs := by unfold applyReset; split <;> rfl
@[simp] theorem applyReset_resp (s : State) : (applyReset s).resp = [] := by unfold applyReset; split <;> rfl
@[simp] theorem applyReset_pc (s : State) : (applyReset s).pc = if configValid s.cfg then .idle else .fault := by unfold applyReset; split <;> rfl
@[simp] theorem applyReset_op (s : State) : (applyReset s).op = none := by unfold applyReset; split <;> rfl
@[simp] theorem applyReset_addr (s : State) : (applyReset s).addr = none := by unfold applyReset; split <;> rfl
@[simp] theorem applyReset_data (s : State) : (applyReset s).data = none := by unfold applyReset; split <;> rfl
@[simp] theorem applyReset_inbytes (s : State) : (applyReset s).inbytes = none := by unfold applyReset; split <;> rfl
@[simp] theorem applyReset_inwords (s : State) : (applyReset s).inwords = none := by unfold applyReset; split <;> rfl
@[simp] theorem applyReset_roL (s : State) : (applyReset s).roL = none := by unfold applyReset; split <;> rfl
@[simp] theorem applyReset_woL (s : State) : (applyReset s).woL = none := by unfold applyReset; split <;> rfl
@[simp] theorem applyReset_occ (s : State) : (applyReset s).occ = none := by unfold applyReset; split <;> rfl
@[simp] theorem applyReset_free (s : State) : (applyReset s).free = none := by unfold applyReset; split <;> rfl
@[simp] theorem applyReset_attempts (s : State) : (applyReset s).attempts = none := by unfold applyReset; split <;> rfl
@[simp] theorem applyReset_words (s : State) : (applyReset s).words = none := by unfold applyReset; split <;> rfl
@[simp] theorem applyReset_widx (s : State) : (applyReset s).widx = none := by unfold applyReset; split <;> rfl
@[simp] theorem applyReset_ndeliv (s : State) : (applyReset s).ndeliv = none := by unfold applyReset; split <;> rfl
@[simp] theorem applyReset_ngaveup (s : State) : (applyReset s).ngaveup = none := by unfold applyReset; split <;> rfl
@[simp] theorem applyReset_rx (s : State) : (applyReset s).rx = none := by unfold applyReset; split <;> rfl
@[simp] theorem applyReset_cs (s : State) : (applyReset s).cs = false := by unfold applyReset; split <;> rfl
@[simp] theorem applyReset_txs (s : State) : (applyReset s).txs = none := by unfold applyReset; split <;> rfl
@[simp] theorem applyReset_txfrom (s : State) : (applyReset s).txfrom = none := by unfold applyReset; split <;> rfl
@[simp] theorem applyReset_txpos (s : State) : (applyReset s).txpos = none := by unfold applyReset; split <;> rfl
@[simp] theorem applyReset_fault (s : State) : (applyReset s).fault = if configValid s.cfg then 0b0000#4 else faultConfig := by unfold applyReset; split <;> first | rfl | simp
@[simp] theorem applyReset_results (s : State) : (applyReset s).results = s.results := by unfold applyReset; split <;> rfl
@[simp] theorem applyReset_trace (s : State) : (applyReset s).trace = if s.cs then s.trace ++ [.desel] else s.trace := by unfold applyReset; split <;> rfl
@[simp] theorem applyReset_mem (s : State) : (applyReset s).mem = s.mem := by unfold applyReset; split <;> rfl
@[simp] theorem applyReset_consumed (s : State) : (applyReset s).consumed = s.consumed := by unfold applyReset; split <;> rfl
@[simp] theorem applyReset_draws (s : State) : (applyReset s).draws = s.draws := by unfold applyReset; split <;> rfl
@[simp] theorem applyReset_nfree (s : State) : (applyReset s).nfree = s.nfree := by unfold applyReset; split <;> rfl
@[simp] theorem applyReset_sched (s : State) : (applyReset s).sched = s.sched := by unfold applyReset; split <;> rfl
@[simp] theorem applyReset_wire (s : State) : (applyReset s).wire = none := by unfold applyReset; split <;> rfl
@[simp] theorem applyReset_woSeen (s : State) : (applyReset s).woSeen = s.woSeen := by unfold applyReset; split <;> rfl

/-! ### moveRead -/

@[simp] theorem moveRead_cfg (ro : Word) (s : State) : (moveRead ro s).cfg = s.cfg := rfl
@[simp] theorem moveRead_reqs (ro : Word) (s : State) : (moveRead ro s).reqs = s.reqs := rfl
@[simp] theorem moveRead_resp (ro : Word) (s : State) : (moveRead ro s).resp = s.resp := rfl
@[simp] theorem moveRead_pc (ro : Word) (s : State) : (moveRead ro s).pc = s.pc := rfl
@[simp] theorem moveRead_op (ro : Word) (s : State) : (moveRead ro s).op = s.op := rfl
@[simp] theorem moveRead_addr (ro : Word) (s : State) : (moveRead ro s).addr = s.addr := rfl
@[simp] theorem moveRead_data (ro : Word) (s : State) : (moveRead ro s).data = s.data := rfl
@[simp] theorem moveRead_inbytes (ro : Word) (s : State) : (moveRead ro s).inbytes = s.inbytes := rfl
@[simp] theorem moveRead_inwords (ro : Word) (s : State) : (moveRead ro s).inwords = s.inwords := rfl
@[simp] theorem moveRead_roL (ro : Word) (s : State) : (moveRead ro s).roL = s.roL := rfl
@[simp] theorem moveRead_woL (ro : Word) (s : State) : (moveRead ro s).woL = s.woL := rfl
@[simp] theorem moveRead_occ (ro : Word) (s : State) : (moveRead ro s).occ = s.occ := rfl
@[simp] theorem moveRead_free (ro : Word) (s : State) : (moveRead ro s).free = s.free := rfl
@[simp] theorem moveRead_attempts (ro : Word) (s : State) : (moveRead ro s).attempts = s.attempts := rfl
@[simp] theorem moveRead_words (ro : Word) (s : State) : (moveRead ro s).words = s.words := rfl
@[simp] theorem moveRead_widx (ro : Word) (s : State) : (moveRead ro s).widx = s.widx := rfl
@[simp] theorem moveRead_ndeliv (ro : Word) (s : State) : (moveRead ro s).ndeliv = s.ndeliv := rfl
@[simp] theorem moveRead_ngaveup (ro : Word) (s : State) : (moveRead ro s).ngaveup = s.ngaveup := rfl
@[simp] theorem moveRead_rx (ro : Word) (s : State) : (moveRead ro s).rx = s.rx := rfl
@[simp] theorem moveRead_cs (ro : Word) (s : State) : (moveRead ro s).cs = s.cs := rfl
@[simp] theorem moveRead_txs (ro : Word) (s : State) : (moveRead ro s).txs = s.txs := rfl
@[simp] theorem moveRead_txfrom (ro : Word) (s : State) : (moveRead ro s).txfrom = s.txfrom := rfl
@[simp] theorem moveRead_txpos (ro : Word) (s : State) : (moveRead ro s).txpos = s.txpos := rfl
@[simp] theorem moveRead_fault (ro : Word) (s : State) : (moveRead ro s).fault = s.fault := rfl
@[simp] theorem moveRead_results (ro : Word) (s : State) : (moveRead ro s).results = s.results := rfl
@[simp] theorem moveRead_trace (ro : Word) (s : State) : (moveRead ro s).trace = s.trace := rfl
@[simp] theorem moveRead_mem (ro : Word) (s : State) : (moveRead ro s).mem = s.mem.writeBytes (paramAddr s.cfg.regCmdRead).toNat (le4 ro) := rfl
@[simp] theorem moveRead_consumed (ro : Word) (s : State) : (moveRead ro s).consumed = s.consumed := rfl
@[simp] theorem moveRead_draws (ro : Word) (s : State) : (moveRead ro s).draws = s.draws := rfl
@[simp] theorem moveRead_nfree (ro : Word) (s : State) : (moveRead ro s).nfree = s.nfree := rfl
@[simp] theorem moveRead_sched (ro : Word) (s : State) : (moveRead ro s).sched = s.sched := rfl
@[simp] theorem moveRead_wire (ro : Word) (s : State) : (moveRead ro s).wire = s.wire := rfl
@[simp] theorem moveRead_woSeen (ro : Word) (s : State) : (moveRead ro s).woSeen = s.woSeen := rfl

/-! ### chipConsume -/

@[simp] theorem chipConsume_cfg (s : State) : (chipConsume s).cfg = s.cfg := by unfold chipConsume; split <;> (try split) <;> rfl
@[simp] theorem chipConsume_reqs (s : State) : (chipConsume s).reqs = s.reqs := by unfold chipConsume; split <;> (try split) <;> rfl
@[simp] theorem chipConsume_resp (s : State) : (chipConsume s).resp = s.resp := by unfold chipConsume; split <;> (try split) <;> rfl
@[simp] theorem chipConsume_pc (s : State) : (chipConsume s).pc = s.pc := by unfold chipConsume; split <;> (try split) <;> rfl
@[simp] theorem chipConsume_op (s : State) : (chipConsume s).op = s.op := by unfold chipConsume; split <;> (try split) <;> rfl
@[simp] theorem chipConsume_addr (s : State) : (chipConsume s).addr = s.addr := by unfold chipConsume; split <;> (try split) <;> rfl
@[simp] theorem chipConsume_data (s : State) : (chipConsume s).data = s.data := by unfold chipConsume; split <;> (try split) <;> rfl
@[simp] theorem chipConsume_inbytes (s : State) : (chipConsume s).inbytes = s.inbytes := by unfold chipConsume; split <;> (try split) <;> rfl
@[simp] theorem chipConsume_inwords (s : State) : (chipConsume s).inwords = s.inwords := by unfold chipConsume; split <;> (try split) <;> rfl
@[simp] theorem chipConsume_roL (s : State) : (chipConsume s).roL = s.roL := by unfold chipConsume; split <;> (try split) <;> rfl
@[simp] theorem chipConsume_woL (s : State) : (chipConsume s).woL = s.woL := by unfold chipConsume; split <;> (try split) <;> rfl
@[simp] theorem chipConsume_occ (s : State) : (chipConsume s).occ = s.occ := by unfold chipConsume; split <;> (try split) <;> rfl
@[simp] theorem chipConsume_free (s : State) : (chipConsume s).free = s.free := by unfold chipConsume; split <;> (try split) <;> rfl
@[simp] theorem chipConsume_attempts (s : State) : (chipConsume s).attempts = s.attempts := by unfold chipConsume; split <;> (try split) <;> rfl
@[simp] theorem chipConsume_words (s : State) : (chipConsume s).words = s.words := by unfold chipConsume; split <;> (try split) <;> rfl
@[simp] theorem chipConsume_widx (s : State) : (chipConsume s).widx = s.widx := by unfold chipConsume; split <;> (try split) <;> rfl
@[simp] theorem chipConsume_ndeliv (s : State) : (chipConsume s).ndeliv = s.ndeliv := by unfold chipConsume; split <;> (try split) <;> rfl
@[simp] theorem chipConsume_ngaveup (s : State) : (chipConsume s).ngaveup = s.ngaveup := by unfold chipConsume; split <;> (try split) <;> rfl
@[simp] theorem chipConsume_rx (s : State) : (chipConsume s).rx = s.rx := by unfold chipConsume; split <;> (try split) <;> rfl
@[simp] theorem chipConsume_cs (s : State) : (chipConsume s).cs = s.cs := by unfold chipConsume; split <;> (try split) <;> rfl
@[simp] theorem chipConsume_txs (s : State) : (chipConsume s).txs = s.txs := by unfold chipConsume; split <;> (try split) <;> rfl
@[simp] theorem chipConsume_txfrom (s : State) : (chipConsume s).txfrom = s.txfrom := by unfold chipConsume; split <;> (try split) <;> rfl
@[simp] theorem chipConsume_txpos (s : State) : (chipConsume s).txpos = s.txpos := by unfold chipConsume; split <;> (try split) <;> rfl
@[simp] theorem chipConsume_fault (s : State) : (chipConsume s).fault = s.fault := by unfold chipConsume; split <;> (try split) <;> rfl
@[simp] theorem chipConsume_results (s : State) : (chipConsume s).results = s.results := by unfold chipConsume; split <;> (try split) <;> rfl
@[simp] theorem chipConsume_trace (s : State) : (chipConsume s).trace = s.trace := by unfold chipConsume; split <;> (try split) <;> rfl
@[simp] theorem chipConsume_draws (s : State) : (chipConsume s).draws = s.draws := by unfold chipConsume; split <;> (try split) <;> rfl
@[simp] theorem chipConsume_nfree (s : State) : (chipConsume s).nfree = s.nfree := by unfold chipConsume; split <;> (try split) <;> rfl
@[simp] theorem chipConsume_sched (s : State) : (chipConsume s).sched = s.sched := by unfold chipConsume; split <;> (try split) <;> rfl
@[simp] theorem chipConsume_wire (s : State) : (chipConsume s).wire = s.wire := by unfold chipConsume; split <;> (try split) <;> rfl
@[simp] theorem chipConsume_woSeen (s : State) : (chipConsume s).woSeen = s.woSeen := by unfold chipConsume; split <;> (try split) <;> rfl

end Sys2Proof.Machine
end

