-- ==== Sys2Proof/Laws/Ops.lean ====
section
/-! SUPPORT. What the shared operations do, each said once: chip memory (read after write, the canonical form
is kept), and one inversion lemma for a latch read, the transaction engine and the three procedure shapes. -/
namespace Sys2Proof.Machine

/-! ## Chip memory -/

theorem Memory.read_insert_self (m : Memory) (x : Nat) (v : Byte) :
    (Memory.insert m x v).read x = some v := by
  induction m with
  | nil => simp [Memory.insert, Memory.read]
  | cons c m ih =>
    obtain ⟨a, b⟩ := c
    simp only [Memory.insert]
    split
    · simp [Memory.read]
    · split
      · simp [Memory.read]
      · rename_i h
        simp [Memory.read, h, ih]

theorem Memory.read_insert_other (m : Memory) {x y : Nat} (v : Byte) (h : y ≠ x) :
    (Memory.insert m x v).read y = m.read y := by
  induction m with
  | nil => simp [Memory.insert, Memory.read, h]
  | cons c m ih =>
    obtain ⟨a, b⟩ := c
    simp only [Memory.insert]
    split
    · simp [Memory.read, h]
    · split
      · rename_i hx
        subst hx
        simp [Memory.read, h]
      · simp [Memory.read, ih]

/-- A write is read back, inside the chip's space. -/
theorem Memory.read_write_self (m : Memory) {x : Nat} (v : Byte) (h : x < chipSpace) :
    (m.write x v).read x = some v := by
  simp [Memory.write, h, Memory.read_insert_self]

/-- A write leaves every other address alone. -/
theorem Memory.read_write_other (m : Memory) {x y : Nat} (v : Byte) (h : y ≠ x) :
    (m.write x v).read y = m.read y := by
  unfold Memory.write
  split
  · exact Memory.read_insert_other m v h
  · rfl

/-- The head of a canonical memory lies below the rest and inside the space. -/
theorem Memory.wf_cons (a : Nat) (b : Byte) (m : Memory) :
    Memory.wf ((a, b) :: m) = true ↔
      a < chipSpace ∧ (∀ c ∈ m.head?, a < c.1) ∧ Memory.wf m = true := by
  induction m generalizing a b with
  | nil => simp [Memory.wf]
  | cons c m ih =>
    obtain ⟨c, d⟩ := c
    simp only [Memory.wf, Bool.and_eq_true, decide_eq_true_eq, List.head?_cons, Option.mem_def,
      Option.some.injEq, forall_eq']
    constructor
    · rintro ⟨h, w⟩
      exact ⟨Nat.lt_trans h ((ih c d).1 w).1, h, w⟩
    · rintro ⟨_, h, w⟩
      exact ⟨h, w⟩

theorem Memory.wf_insert (m : Memory) {x : Nat} (v : Byte) (hx : x < chipSpace) (h : m.wf = true) :
    (Memory.insert m x v).wf = true ∧
      ∀ c ∈ (Memory.insert m x v).head?, c.1 = x ∨ ∃ d ∈ m.head?, c.1 = d.1 := by
  induction m with
  | nil => simp [Memory.insert, Memory.wf, hx]
  | cons c m ih =>
    obtain ⟨a, b⟩ := c
    obtain ⟨ha, hh, hm⟩ := (Memory.wf_cons a b m).1 h
    obtain ⟨iw, ihd⟩ := ih hm
    simp only [Memory.insert]
    split
    · rename_i hlt
      exact ⟨(Memory.wf_cons _ _ _).2 ⟨hx, by simpa using hlt, h⟩, by simp⟩
    · split
      · rename_i he
        subst he
        exact ⟨(Memory.wf_cons _ _ _).2 ⟨hx, hh, hm⟩, by simp⟩
      · rename_i hlt hne
        refine ⟨(Memory.wf_cons _ _ _).2 ⟨ha, ?_, iw⟩, by simp⟩
        intro c hc
        obtain e | ⟨d, hd, e⟩ := ihd c hc
        · omega
        · rw [e]; exact hh d hd

/-- A write keeps the canonical form. -/
theorem Memory.wf_write {m : Memory} (x : Nat) (v : Byte) (h : m.wf = true) : (m.write x v).wf = true := by
  unfold Memory.write
  split
  · rename_i hx
    exact (Memory.wf_insert m v hx h).1
  · exact h

theorem Memory.wf_writeBytes {m : Memory} (x : Nat) (s : List Byte) (h : m.wf = true) :
    (m.writeBytes x s).wf = true := by
  induction s generalizing m x with
  | nil => exact h
  | cons b s ih => exact ih (x + 1) (Memory.wf_write x b h)

/-- Bytes written are below or above every other address. -/
theorem Memory.read_writeBytes_other (m : Memory) {x y : Nat} (s : List Byte)
    (h : y < x ∨ x + s.length ≤ y) : (m.writeBytes x s).read y = m.read y := by
  induction s generalizing m x with
  | nil => rfl
  | cons b s ih =>
    simp only [List.length_cons] at h
    simp only [Memory.writeBytes]
    rw [ih (m.write x b) (by omega), Memory.read_write_other m b (by omega)]

/-- The chip's store of a byte keeps the canonical form. -/
theorem chipStore_wf {m : Memory} (sent : List Byte) (o : Byte) (h : m.wf = true) :
    (chipStore m sent o).wf = true := by
  unfold chipStore
  split
  · exact Memory.wf_write _ _ h
  · exact h

/-- The chip's store changes the byte at `storeAddr` only. -/
theorem chipStore_read_other (m : Memory) (sent : List Byte) (o : Byte) {x : Nat}
    (h : storeAddr sent ≠ some x) : (chipStore m sent o).read x = m.read x := by
  unfold chipStore
  split
  · rename_i a ha
    exact Memory.read_write_other m o (fun e => h (by rw [ha, e]))
  · rfl

/-- Everything a consuming turn can do (R65): nothing, or one whole word, where the last written
`write_offset` leaves one. -/
theorem chipConsume_cases (s : State) :
    chipConsume s = s ∨ ∃ ro wo, chipRead s = some ro ∧ seenWrite s = some wo ∧
      4 ≤ (occupied wo ro).toNat ∧
      chipConsume s = { moveRead (advance ro) s with consumed := s.consumed ++ [ringWord s ro] } := by
  unfold chipConsume
  split
  · rename_i ro wo hr hw
    by_cases h : (occupied wo ro).toNat < 4
    · exact .inl (if_pos h)
    · exact .inr ⟨ro, wo, hr, hw, by omega, if_neg h⟩
  · exact .inl rfl

theorem chipConsume_wf {s : State} (h : s.mem.wf = true) : (chipConsume s).mem.wf = true := by
  rcases chipConsume_cases s with e | ⟨ro, wo, -, -, -, e⟩ <;> rw [e]
  · exact h
  · exact Memory.wf_writeBytes _ _ h

theorem agentTurn_wf (t : Turn) {s : State} (h : s.mem.wf = true) : (agentTurn t s).mem.wf = true := by
  cases t with
  | block => exact h
  | request r => exact h
  | take => exact h
  | answer i => exact h
  | poke a b => exact Memory.wf_write _ _ h
  | consume => exact chipConsume_wf h
  | advance ro => exact Memory.wf_writeBytes _ _ h
  | reset => simpa [agentTurn] using h

theorem reset_wf : State.reset.mem.wf = true := rfl

/-! ## Latches and the engine -/

/-- A latch read that goes on read a value. -/
theorem readLatch_next {α : Type} {l : Latch} {v : Option α} {k : α → Out} {t : State}
    (h : readLatch l v k = .next t) : ∃ a, v = some a ∧ k a = .next t := by
  cases v with
  | none => simp [readLatch] at h
  | some a => exact ⟨a, rfl, h⟩

@[simp] theorem readLatch_some {α : Type} (l : Latch) (a : α) (k : α → Out) :
    readLatch l (some a) k = k a := rfl

/-- SEL: chip-select is deasserted (R31). -/
theorem xferStep_select (k : State → Out) {s : State} (h : s.cs = false) :
    xferStep k s = .next (select s) := by
  simp [xferStep, h]

/-- X: chip-select is asserted and a byte is left (R31). -/
theorem xferStep_exchange (k : State → Out) {s : State} {bytes rx : List Byte} {cap i : Nat} {o : Byte}
    (hc : s.cs = true) (hb : s.txs = some bytes) (hi : s.txpos = some i) (ho : bytes[i]? = some o)
    (hcap : s.txfrom = some cap) (hrx : s.rx = some rx) :
    xferStep k s = .next (exchange bytes cap i rx o s) := by
  simp [xferStep, hc, hb, hi, ho, hcap, hrx]

/-- DESEL: every byte is sent (R31). -/
theorem xferStep_deselect (k : State → Out) {s : State} {bytes : List Byte} {i : Nat}
    (hc : s.cs = true) (hb : s.txs = some bytes) (hi : s.txpos = some i) (ho : bytes[i]? = none) :
    xferStep k s = k (deselect s) := by
  simp [xferStep, hc, hb, hi, ho]

/-- Everything one bus event can do. -/
theorem xferStep_cases {k : State → Out} {s t : State} (h : xferStep k s = .next t) :
    (s.cs = false ∧ t = select s) ∨
    (∃ bytes cap i rx o, s.cs = true ∧ s.txs = some bytes ∧ s.txfrom = some cap ∧ s.txpos = some i ∧
      s.rx = some rx ∧ bytes[i]? = some o ∧ t = exchange bytes cap i rx o s) ∨
    (∃ bytes i, s.cs = true ∧ s.txs = some bytes ∧ s.txpos = some i ∧ bytes[i]? = none ∧
      k (deselect s) = .next t) := by
  unfold xferStep at h
  split at h
  · rename_i hc
    obtain ⟨bytes, hb, h⟩ := readLatch_next h
    obtain ⟨i, hi, h⟩ := readLatch_next h
    split at h
    · rename_i o ho
      obtain ⟨cap, hcap, h⟩ := readLatch_next h
      obtain ⟨rx, hrx, h⟩ := readLatch_next h
      cases h
      exact .inr (.inl ⟨bytes, cap, i, rx, o, hc, hb, hcap, hi, hrx, ho, rfl⟩)
    · rename_i ho
      exact .inr (.inr ⟨bytes, i, hc, hb, hi, ho, h⟩)
  · rename_i hc
    cases h
    exact .inl ⟨by simpa using hc, rfl⟩

/-- Everything a step of a one-transaction operation can do. -/
theorem framing_cases {bytes : List Byte} {cap : Nat} {finish : List Byte → Result} {s t : State}
    (h : framing bytes cap finish s = .next t) :
    (s.pc = .idle ∧ t = goto .fx (startXfer bytes cap s)) ∨
    (s.pc = .fault ∧ t = s) ∨
    (s.pc = .fx ∧ xferStep
      (fun s' => readLatch .rx s'.rx fun rx => .next (complete (finish rx) s')) s = .next t) := by
  unfold framing at h
  split at h
  · rename_i hp; cases h; exact .inl ⟨hp, rfl⟩
  · rename_i hp; exact .inr (.inr ⟨hp, h⟩)
  · rename_i hp; cases h; exact .inr (.inl ⟨hp, rfl⟩)
  · cases h

/-- Everything a step of a transaction without a request can do. -/
theorem bareXfer_cases {bytes : List Byte} {cap : Nat} {s t : State} (h : bareXfer bytes cap s = .next t) :
    (s.pc = .fault ∧ t = s) ∨
    (s.pc = .idle ∧ xferStep (fun s' => .next { s' with pc := .idle, wire := none })
      (goto .fx (startXfer bytes cap s)) = .next t) ∨
    (s.pc = .fx ∧ xferStep (fun s' => .next { s' with pc := .idle, wire := none }) s = .next t) := by
  unfold bareXfer at h
  split at h
  · rename_i hp; exact .inr (.inl ⟨hp, h⟩)
  · rename_i hp; exact .inr (.inr ⟨hp, h⟩)
  · rename_i hp; cases h; exact .inl ⟨hp, rfl⟩
  · cases h

/-- Everything the decision of an attempt can do. -/
theorem decideAttempt_cases {word : State → (Word → Out) → Out} {wo occ : Word}
    {outcome : Verdict → State → Out} {s t : State}
    (h : decideAttempt word wo occ outcome s = .next t) :
    (freeOf s.cfg.policy occ = none ∧ t = enterFault faultDivergence true s) ∨
    (∃ f, freeOf s.cfg.policy occ = some f ∧ accepts f = true ∧
      word { s with free := some f }
        (fun w => .next (startRingWrite w wo { s with free := some f })) = .next t) ∨
    (∃ f, freeOf s.cfg.policy occ = some f ∧ accepts f = false ∧
      outcome .rejected { s with free := some f } = .next t) := by
  unfold decideAttempt at h
  split at h
  · rename_i hf; cases h; exact .inl ⟨hf, rfl⟩
  · rename_i f hf
    simp only at h
    split at h
    · rename_i ha; exact .inr (.inl ⟨f, hf, ha, h⟩)
    · rename_i ha; exact .inr (.inr ⟨f, hf, by simpa using ha, h⟩)

/-- Everything a step of an attempt can do. -/
theorem attempt_cases {word : State → (Word → Out) → Out} {outcome : Verdict → State → Out} {s t : State}
    (h : attempt word outcome s = .next t) :
    (s.pc = .fault ∧ t = s) ∨
    (s.pc = .qro ∧ xferStep (fun s' => readLatch .rx s'.rx fun rx => .next (latchRo rx s')) s = .next t) ∨
    (s.pc = .qwo ∧ xferStep (fun s' =>
      readLatch .rx s'.rx fun rx =>
      readLatch .roL s'.roL fun ro =>
        decideAttempt word (leWord rx) (occupied (leWord rx) ro) outcome (latchWo rx ro s')) s = .next t) ∨
    (s.pc = .qww ∧
      xferStep (fun s' => readLatch .woL s'.woL fun wo => .next (startPointerWrite wo s')) s = .next t) ∨
    (s.pc = .qwp ∧ xferStep (fun s' => outcome .enqueued s') s = .next t) := by
  unfold attempt at h
  split at h
  · rename_i hp; exact .inr (.inl ⟨hp, h⟩)
  · rename_i hp; exact .inr (.inr (.inl ⟨hp, h⟩))
  · rename_i hp; exact .inr (.inr (.inr (.inl ⟨hp, h⟩)))
  · rename_i hp; exact .inr (.inr (.inr (.inr ⟨hp, h⟩)))
  · rename_i hp; cases h; exact .inl ⟨hp, rfl⟩
  · cases h

/-- Everything a step of the machine can do: the block's step, or the turn of another agent. -/
theorem step_cases {s t : State} (h : step s = .next t) :
    (∃ rest, (s.sched = [] ∧ rest = [] ∨ s.sched = .block :: rest) ∧
      blockStep { s with sched := rest } = .next t) ∨
    (∃ a rest, s.sched = a :: rest ∧ a ≠ .block ∧ t = agentTurn a { s with sched := rest }) := by
  unfold step at h
  split at h
  · rename_i hs
    exact .inl ⟨[], .inl ⟨hs, rfl⟩, by rw [← hs]; exact h⟩
  · rename_i rest hs
    exact .inl ⟨rest, .inr hs, h⟩
  · rename_i a rest hb hs
    cases h
    exact .inr ⟨a, rest, hs, fun e => hb e, rfl⟩

end Sys2Proof.Machine
end

