-- ==== Sys2Proof/Laws/Meanings.lean ====
section
/-! SUPPORT. What the computation of one step can do besides its bus event, said once for every operation of
the request interface: `After` (spec/10_state.md R23, R32), and the shape of a step in flight. -/
namespace Sys2Proof.Machine

/-- The bytes are those of a read or a write transaction, or of a host command or a wake. -/
def IsRow (bytes : List Byte) : Prop :=
  (∃ a n, bytes = txRead a n) ∨ (∃ a s, bytes = txWrite a s) ∨ (∃ c, bytes = txHost c) ∨ bytes = txWake

/-- What no computation of a step changes: the parameters, the requests, the request latches, the bus, the
chip and the environment. -/
structure Kept (u t : State) : Prop where
  cfg : t.cfg = u.cfg
  reqs : t.reqs = u.reqs
  op : t.op = u.op
  addr : t.addr = u.addr
  data : t.data = u.data
  inbytes : t.inbytes = u.inbytes
  inwords : t.inwords = u.inwords
  cs : t.cs = u.cs
  trace : t.trace = u.trace
  mem : t.mem = u.mem
  consumed : t.consumed = u.consumed
  draws : t.draws = u.draws
  nfree : t.nfree = u.nfree
  sched : t.sched = u.sched
  wire : t.wire = u.wire
  woSeen : t.woSeen = u.woSeen

theorem Kept.refl (s : State) : Kept s s :=
  ⟨rfl, rfl, rfl, rfl, rfl, rfl, rfl, rfl, rfl, rfl, rfl, rfl, rfl, rfl, rfl, rfl⟩

/-- How the computation of a step ends: a transaction is set up and the request goes on, or it completes with
one result at IDLE, or fault entry delivers one result. -/
inductive Ends (u t : State) : Prop where
  | goes (bytes : List Byte) (row : IsRow bytes) (txs : t.txs = some bytes) (txfrom : t.txfrom.isSome)
      (txpos : t.txpos = some 0) (rx : t.rx = some []) (results : t.results = u.results)
      (resp : t.resp = u.resp) (fault : t.fault = u.fault) (idle : t.pc ≠ .idle) (stopped : t.pc ≠ .fault)
  | completes (r : Result) (results : t.results = u.results ++ [r]) (resp : t.resp = u.resp ++ [r])
      (fault : t.fault = u.fault) (idle : t.pc = .idle) (txs : t.txs = u.txs)
  | faults (r : Result) (results : t.results = u.results ++ [r]) (resp : t.resp = u.resp ++ [r])
      (fault : t.fault = u.fault ||| faultDivergence) (stopped : t.pc = .fault) (txs : t.txs = u.txs)

/-- Everything the computation of a step can do besides its bus event. -/
structure After (u t : State) : Prop where
  kept : Kept u t
  ends : Ends u t

/-- A latch write before the computation is no concern of `After`. -/
theorem After.from {u v t : State} (h : After v t) (k : Kept u v) (hr : v.results = u.results)
    (hp : v.resp = u.resp) (hf : v.fault = u.fault) (hx : v.txs = u.txs) : After u t := by
  obtain ⟨hk, he⟩ := h
  refine ⟨⟨hk.cfg.trans k.cfg, hk.reqs.trans k.reqs, hk.op.trans k.op, hk.addr.trans k.addr,
    hk.data.trans k.data, hk.inbytes.trans k.inbytes, hk.inwords.trans k.inwords, hk.cs.trans k.cs,
    hk.trace.trans k.trace, hk.mem.trans k.mem, hk.consumed.trans k.consumed, hk.draws.trans k.draws,
    hk.nfree.trans k.nfree, hk.sched.trans k.sched, hk.wire.trans k.wire,
    hk.woSeen.trans k.woSeen⟩, ?_⟩
  cases he with
  | goes bytes row txs txfrom txpos rx results resp fault idle stopped =>
    exact .goes bytes row txs txfrom txpos rx (results.trans hr) (resp.trans hp) (fault.trans hf) idle stopped
  | completes r results resp fault idle txs =>
    exact .completes r (by rw [results, hr]) (by rw [resp, hp]) (fault.trans hf) idle (txs.trans hx)
  | faults r results resp fault stopped txs =>
    exact .faults r (by rw [results, hr]) (by rw [resp, hp]) (by rw [← hf]; exact fault) stopped
      (txs.trans hx)

theorem after_complete (r : Result) (s : State) : After s (complete r s) :=
  ⟨⟨rfl, rfl, rfl, rfl, rfl, rfl, rfl, rfl, rfl, rfl, rfl, rfl, rfl, rfl, rfl, rfl⟩,
   .completes r rfl rfl rfl rfl rfl⟩

theorem after_enterFault (s : State) : After s (enterFault faultDivergence true s) :=
  ⟨⟨rfl, rfl, rfl, rfl, rfl, rfl, rfl, rfl, rfl, rfl, rfl, rfl, rfl, rfl, rfl, rfl⟩,
   .faults _ rfl rfl rfl rfl rfl⟩

theorem after_start (bytes : List Byte) (cap : Nat) (p : Pc) (s : State) (h : IsRow bytes) (hi : p ≠ .idle)
    (hf : p ≠ .fault) : After s (goto p (startXfer bytes cap s)) :=
  ⟨⟨rfl, rfl, rfl, rfl, rfl, rfl, rfl, rfl, rfl, rfl, rfl, rfl, rfl, rfl, rfl, rfl⟩,
   .goes bytes h rfl rfl rfl rfl rfl rfl rfl hi hf⟩

theorem after_startRead (p : Pc) (a : Addr) (n : Nat) (s : State) (hi : p ≠ .idle) (hf : p ≠ .fault) :
    After s (startRead p a n s) := after_start _ _ p s (.inl ⟨a, n, rfl⟩) hi hf

theorem after_startWrite (p : Pc) (a : Addr) (bs : List Byte) (s : State) (hi : p ≠ .idle)
    (hf : p ≠ .fault) : After s (startWrite p a bs s) :=
  after_start _ _ p s (.inr (.inl ⟨a, bs, rfl⟩)) hi hf

theorem after_startAttempt (s : State) : After s (startAttempt s) :=
  after_startRead _ _ _ s (by decide) (by decide)

/-- A computation that does only what `After` says. -/
def Computes (k : State → Out) : Prop := ∀ u t, k u = .next t → After u t

theorem computes_tryenqOutcome (v : Verdict) : Computes (tryenqOutcome v) := by
  intro u t h
  obtain ⟨wo, -, h⟩ := readLatch_next h
  cases v <;> cases h <;> exact after_complete _ _

theorem computes_retry {finish : Bool → BitVec 16 → State → Out} (hf : ∀ b n, Computes (finish b n))
    (v : Verdict) : Computes (retry finish v) := by
  intro u t h
  obtain ⟨n, -, h⟩ := readLatch_next h
  have key : ∀ t, After { u with attempts := some (n + 1#16) } t → After u t := fun t h =>
    h.from ⟨rfl, rfl, rfl, rfl, rfl, rfl, rfl, rfl, rfl, rfl, rfl, rfl, rfl, rfl, rfl, rfl⟩ rfl rfl rfl rfl
  cases v with
  | enqueued => exact key t (hf _ _ _ _ h)
  | rejected =>
    simp only at h
    split at h
    · exact key t (hf _ _ _ _ h)
    · cases h; exact key _ (after_startAttempt _)

theorem computes_enqFinish (b : Bool) (n : BitVec 16) : Computes (enqFinish b n) := by
  intro u t h
  cases h
  exact after_complete _ _

theorem computes_wordDone {again : State → Out} (ha : Computes again) (b : Bool) :
    Computes (wordDone again b) := by
  intro u t h
  obtain ⟨nd, -, h⟩ := readLatch_next h
  obtain ⟨ng, -, h⟩ := readLatch_next h
  obtain ⟨i, -, h⟩ := readLatch_next h
  obtain ⟨ws, -, h⟩ := readLatch_next h
  simp only at h
  split at h
  · cases h
    exact (after_complete _ _).from
      ⟨rfl, rfl, rfl, rfl, rfl, rfl, rfl, rfl, rfl, rfl, rfl, rfl, rfl, rfl, rfl, rfl⟩ rfl rfl rfl rfl
  · exact (ha _ _ h).from
      ⟨rfl, rfl, rfl, rfl, rfl, rfl, rfl, rfl, rfl, rfl, rfl, rfl, rfl, rfl, rfl, rfl⟩ rfl rfl rfl rfl

theorem computes_startWord (fuel : Nat) : Computes (startWord fuel) := by
  induction fuel with
  | zero => intro u t h; cases h
  | succ n ih =>
    intro u t h
    simp only [startWord] at h
    split at h
    · exact (computes_wordDone ih _ _ _ h).from
        ⟨rfl, rfl, rfl, rfl, rfl, rfl, rfl, rfl, rfl, rfl, rfl, rfl, rfl, rfl, rfl, rfl⟩ rfl rfl rfl rfl
    · cases h
      exact (after_startAttempt _).from
        ⟨rfl, rfl, rfl, rfl, rfl, rfl, rfl, rfl, rfl, rfl, rfl, rfl, rfl, rfl, rfl, rfl⟩ rfl rfl rfl rfl

theorem computes_nextWord : Computes nextWord := fun u t h => computes_startWord _ u t h

/-- The completion handler of TEXTCMD. -/
theorem computes_textOutcome (v : Verdict) :
    Computes (retry (fun delivered _ s' => wordDone nextWord delivered s') v) :=
  computes_retry (fun b _ => computes_wordDone computes_nextWord b) v

/-- A word source that only reads. -/
def Gives (word : State → (Word → Out) → Out) : Prop :=
  ∀ s k t, word s k = .next t → ∃ w, k w = .next t

theorem gives_const (w : Word) : Gives (fun _ k => k w) := fun _ _ _ h => ⟨w, h⟩

theorem gives_currentWord : Gives currentWord := by
  intro s k t h
  obtain ⟨ws, -, h⟩ := readLatch_next h
  obtain ⟨i, -, h⟩ := readLatch_next h
  split at h
  · rename_i w _; exact ⟨w, h⟩
  · cases h

theorem computes_decide {word : State → (Word → Out) → Out} {outcome : Verdict → State → Out}
    (hw : Gives word) (ho : ∀ v, Computes (outcome v)) (wo occ : Word) :
    Computes (decideAttempt word wo occ outcome) := by
  intro u t h
  obtain ⟨-, rfl⟩ | ⟨f, -, -, h⟩ | ⟨f, -, -, h⟩ := decideAttempt_cases h
  · exact after_enterFault u
  · obtain ⟨w, h⟩ := hw _ _ _ h
    cases h
    exact (after_startWrite .qww _ _ _ (by decide) (by decide)).from
      ⟨rfl, rfl, rfl, rfl, rfl, rfl, rfl, rfl, rfl, rfl, rfl, rfl, rfl, rfl, rfl, rfl⟩ rfl rfl rfl rfl
  · exact (ho _ _ _ h).from
      ⟨rfl, rfl, rfl, rfl, rfl, rfl, rfl, rfl, rfl, rfl, rfl, rfl, rfl, rfl, rfl, rfl⟩ rfl rfl rfl rfl

/-- A step of an operation, off FAULT: at IDLE its ACCEPT computation, in flight one bus event. -/
inductive Runs (s t : State) (e : State → Out) : Prop where
  | accept (idle : s.pc = .idle) (after : After s t)
  | flight (k : State → Out) (computes : Computes k) (run : e s = xferStep k s) (idle : s.pc ≠ .idle)
  | stopped (fault : s.pc = .fault) (same : t = s)

theorem runs_framing {bytes : List Byte} {cap : Nat} {finish : List Byte → Result} {s t : State}
    (hb : IsRow bytes) (h : framing bytes cap finish s = .next t) : Runs s t (framing bytes cap finish) := by
  obtain ⟨hp, rfl⟩ | ⟨hp, rfl⟩ | ⟨hp, -⟩ := framing_cases h
  · exact .accept hp (after_start _ _ _ s hb (by decide) (by decide))
  · exact .stopped hp rfl
  · refine .flight _ (fun u v hv => ?_) (by simp only [framing, hp]; rfl) (by simp [hp])
    obtain ⟨rx, -, hv⟩ := readLatch_next hv
    cases hv
    exact after_complete _ _

theorem runs_attempt {word : State → (Word → Out) → Out} {outcome : Verdict → State → Out} {s t : State}
    (hw : Gives word) (ho : ∀ v, Computes (outcome v)) (h : attempt word outcome s = .next t) :
    Runs s t (attempt word outcome) := by
  obtain ⟨hp, rfl⟩ | ⟨hp, -⟩ | ⟨hp, -⟩ | ⟨hp, -⟩ | ⟨hp, -⟩ := attempt_cases h
  · exact .stopped hp rfl
  · refine .flight _ (fun u v hv => ?_) (by simp only [attempt, hp]; rfl) (by simp [hp])
    obtain ⟨rx, -, hv⟩ := readLatch_next hv
    cases hv
    exact (after_startRead .qwo _ _ _ (by decide) (by decide)).from
      ⟨rfl, rfl, rfl, rfl, rfl, rfl, rfl, rfl, rfl, rfl, rfl, rfl, rfl, rfl, rfl, rfl⟩ rfl rfl rfl rfl
  · refine .flight _ (fun u v hv => ?_) (by simp only [attempt, hp]; rfl) (by simp [hp])
    obtain ⟨rx, -, hv⟩ := readLatch_next hv
    obtain ⟨ro, -, hv⟩ := readLatch_next hv
    exact (computes_decide hw ho _ _ _ _ hv).from
      ⟨rfl, rfl, rfl, rfl, rfl, rfl, rfl, rfl, rfl, rfl, rfl, rfl, rfl, rfl, rfl, rfl⟩ rfl rfl rfl rfl
  · refine .flight _ (fun u v hv => ?_) (by simp only [attempt, hp]; rfl) (by simp [hp])
    obtain ⟨wo, -, hv⟩ := readLatch_next hv
    cases hv
    exact after_startWrite .qwp _ _ _ (by decide) (by decide)
  · exact .flight _ (ho .enqueued) (by simp only [attempt, hp]) (by simp [hp])

/-- A step of an operation whose ACCEPT differs from the rest. -/
theorem Runs.of_eq {s t : State} {e e' : State → Out} (h : Runs s t e) (he : e' s = e s) : Runs s t e' := by
  cases h with
  | accept idle after => exact .accept idle after
  | flight k computes run idle => exact .flight k computes (he.trans run) idle
  | stopped fault same => exact .stopped fault same

/-- Everything a step of a request operation can do; an ill-formed one is refused at ACCEPT (R84). -/
theorem exec_runs {i : Instr} {s t : State} (hw : i.isWire = false) (h : exec i s = .next t) :
    Runs s t (exec i) ∨ (s.pc = .idle ∧ t = refuse s ∧ i.wf = false) := by
  cases i with
  | rdb a n => exact .inl <| runs_framing (.inl ⟨a, _, rfl⟩) h
  | wrb a bs =>
    have h' : execWrb a bs s = .next t := h
    unfold execWrb at h'
    split at h'
    · rename_i hc
      cases h'
      exact .inr ⟨hc.1, rfl, by simp [Instr.wf, Instr.illFormed, hc.2]⟩
    · rename_i hc
      exact .inl <| (runs_framing (.inr (.inl ⟨a, bs, rfl⟩)) h').of_eq (by
        show execWrb a bs s = _
        unfold execWrb
        rw [if_neg hc]; rfl)
  | rd8 a => exact .inl <| runs_framing (.inl ⟨a, _, rfl⟩) h
  | rd16 a => exact .inl <| runs_framing (.inl ⟨a, _, rfl⟩) h
  | rd32 a => exact .inl <| runs_framing (.inl ⟨a, _, rfl⟩) h
  | wr8 a v => exact .inl <| runs_framing (.inr (.inl ⟨a, _, rfl⟩)) h
  | wr16 a v => exact .inl <| runs_framing (.inr (.inl ⟨a, _, rfl⟩)) h
  | wr32 a v => exact .inl <| runs_framing (.inr (.inl ⟨a, _, rfl⟩)) h
  | hostcmd c => exact .inl <| runs_framing (.inr (.inr (.inl ⟨c, rfl⟩))) h
  | wake => exact .inl <| runs_framing (.inr (.inr (.inr rfl))) h
  | chkid =>
    exact .inl <| (runs_framing (s := s) (.inl ⟨paramAddr s.cfg.regId, 1, rfl⟩) h).of_eq rfl
  | tryenq w =>
    by_cases hp : s.pc = .idle
    · have h' : execTryenq w s = .next t := h
      simp only [execTryenq, hp] at h'
      cases h'
      exact .inl <| .accept hp (after_startAttempt s)
    · have e : execTryenq w s = attempt (fun _ k => k w) tryenqOutcome s := by
        unfold execTryenq
        split
        · contradiction
        · rfl
      exact .inl <| (runs_attempt (gives_const w) computes_tryenqOutcome (e.symm.trans h)).of_eq e
  | enq w =>
    by_cases hp : s.pc = .idle
    · have h' : execEnq w s = .next t := h
      simp only [execEnq, hp] at h'
      split at h' <;> cases h'
      · exact .inl <| .accept hp ((after_complete _ _).from
          ⟨rfl, rfl, rfl, rfl, rfl, rfl, rfl, rfl, rfl, rfl, rfl, rfl, rfl, rfl, rfl, rfl⟩ rfl rfl rfl rfl)
      · exact .inl <| .accept hp ((after_startAttempt _).from
          ⟨rfl, rfl, rfl, rfl, rfl, rfl, rfl, rfl, rfl, rfl, rfl, rfl, rfl, rfl, rfl, rfl⟩ rfl rfl rfl rfl)
    · have e : execEnq w s = attempt (fun _ k => k w) (retry enqFinish) s := by
        unfold execEnq
        split
        · contradiction
        · rfl
      exact .inl <| (runs_attempt (gives_const w) (computes_retry computes_enqFinish) (e.symm.trans h)).of_eq e
  | idle =>
    have h' : execIdle s = .next t := h
    unfold execIdle at h'
    split at h'
    · rename_i hp
      cases h'
      exact .inl <| .accept hp (after_startRead .iro _ _ _ (by decide) (by decide))
    · rename_i hp
      refine .inl <| .flight _ (fun u v hv => ?_) (by show execIdle s = _; simp only [execIdle, hp]; rfl) (by simp [hp])
      obtain ⟨rx, -, hv⟩ := readLatch_next hv
      cases hv
      exact (after_startRead .iwo _ _ _ (by decide) (by decide)).from
        ⟨rfl, rfl, rfl, rfl, rfl, rfl, rfl, rfl, rfl, rfl, rfl, rfl, rfl, rfl, rfl, rfl⟩ rfl rfl rfl rfl
    · rename_i hp
      refine .inl <| .flight _ (fun u v hv => ?_) (by show execIdle s = _; simp only [execIdle, hp]; rfl) (by simp [hp])
      obtain ⟨rx, -, hv⟩ := readLatch_next hv
      obtain ⟨ro, -, hv⟩ := readLatch_next hv
      cases hv
      exact (after_complete _ _).from
        ⟨rfl, rfl, rfl, rfl, rfl, rfl, rfl, rfl, rfl, rfl, rfl, rfl, rfl, rfl, rfl, rfl⟩ rfl rfl rfl rfl
    · rename_i hp
      cases h'
      exact .inl <| .stopped hp rfl
    · cases h'
  | pack bs =>
    have h' : execPack bs s = .next t := h
    unfold execPack at h'
    split at h'
    · rename_i hp
      cases h'
      exact .inl <| .accept hp (after_complete _ _)
    · rename_i hp
      cases h'
      exact .inl <| .stopped hp rfl
    · cases h'
  | textcmd ws bs =>
    by_cases hp : s.pc = .idle
    · have h' : execTextcmd ws bs s = .next t := h
      simp only [execTextcmd, hp] at h'
      split at h'
      · rename_i hc
        cases h'
        exact .inr ⟨hp, rfl, by simp [Instr.wf, Instr.illFormed, hc]⟩
      · split at h'
        · cases h'
          exact .inl <| .accept hp (after_complete _ _)
        · exact .inl <| .accept hp ((computes_nextWord _ _ h').from
            ⟨rfl, rfl, rfl, rfl, rfl, rfl, rfl, rfl, rfl, rfl, rfl, rfl, rfl, rfl, rfl, rfl⟩ rfl rfl rfl rfl)
    · have e : execTextcmd ws bs s =
          attempt currentWord (retry fun delivered _ s' => wordDone nextWord delivered s') s := by
        unfold execTextcmd
        split
        · contradiction
        · rfl
      exact .inl <| (runs_attempt gives_currentWord computes_textOutcome (e.symm.trans h)).of_eq e
  | wireRead _ _ => cases hw
  | wireWrite _ _ => cases hw
  | wireHostcmd _ => cases hw
  | wireHostcmdM11 _ => cases hw
  | wireWake => cases hw

/-- What a step of a request operation does to the state: nothing in FAULT, its computation at ACCEPT, one
bus event in flight, with the computation after DESEL. -/
inductive Acts (s t : State) : Prop where
  | stopped (fault : s.pc = .fault) (same : t = s)
  | refused (idle : s.pc = .idle) (same : t = refuse s)
  | accept (idle : s.pc = .idle) (after : After s t)
  | select (busy : s.pc ≠ .idle) (cs : s.cs = false) (same : t = select s)
  | exchange (busy : s.pc ≠ .idle) (bytes : List Byte) (cap i : Nat) (rx : List Byte) (o : Byte)
      (cs : s.cs = true) (txs : s.txs = some bytes) (txfrom : s.txfrom = some cap) (txpos : s.txpos = some i)
      (latch : s.rx = some rx) (byte : bytes[i]? = some o) (same : t = exchange bytes cap i rx o s)
  | deselect (busy : s.pc ≠ .idle) (cs : s.cs = true) (after : After (deselect s) t)

/-- Everything a step of a request operation can do to the state. -/
theorem exec_acts {i : Instr} {s t : State} (hw : i.isWire = false) (h : exec i s = .next t) : Acts s t := by
  rcases exec_runs hw h with (⟨hp, ha⟩ | ⟨k, hk, hr, hp⟩ | ⟨hf, ht⟩) | ⟨hp, ht, -⟩
  · exact .accept hp ha
  · rw [hr] at h
    rcases xferStep_cases h with ⟨hc, ht⟩ | ⟨bytes, cap, i, rx, o, hc, hb, hcap, hi, hrx, ho, ht⟩ |
      ⟨bytes, i, hc, -, -, -, ht⟩
    · exact .select hp hc ht
    · exact .exchange hp bytes cap i rx o hc hb hcap hi hrx ho ht
    · exact .deselect hp hc (hk _ _ ht)
  · exact .stopped hf ht
  · exact .refused hp ht

end Sys2Proof.Machine
end

