-- ==== Sys2Proof/Laws/PerInstr.lean ====
section
/-! SUPPORT. A family of statements about every instruction as syntax: its encoding is a request that carries
its operation code (spec/30_encoding.md R80, R81), or a transaction of at least three bytes with the marker
of its row (R72, R89), and it has an operation code exactly when it is a request. -/
namespace Sys2Proof.Laws.Encoding

/-- The encoding of an instruction carries the operation code of its row, or its marker. -/
def Statement (i : Instr) : Prop :=
  match encode i with
  | .request r => i.opcode = some (reqOp r.q)
  | .wire bytes => i.opcode = none ∧ 3 ≤ bytes.length ∧ bytes.head?.map prefixMarker = some (marker i)
where
  /-- The marker of a wire row (R72, R77). -/
  marker : Instr → BitVec 2
    | .wireWrite _ _ => 0b10#2
    | .wireHostcmd _ => 0b01#2
    | .wireHostcmdM11 _ => 0b11#2
    | .wireRead _ _ => 0b00#2
    | .wireWake => 0b00#2
    | .rdb _ _ => 0b00#2
    | .wrb _ _ => 0b00#2
    | .rd8 _ => 0b00#2
    | .rd16 _ => 0b00#2
    | .rd32 _ => 0b00#2
    | .wr8 _ _ => 0b00#2
    | .wr16 _ _ => 0b00#2
    | .wr32 _ _ => 0b00#2
    | .hostcmd _ => 0b00#2
    | .wake => 0b00#2
    | .chkid => 0b00#2
    | .tryenq _ => 0b00#2
    | .enq _ => 0b00#2
    | .idle => 0b00#2
    | .pack _ => 0b00#2
    | .textcmd _ _ => 0b00#2

theorem rdb (addr : Addr) (count : Word) : Statement (.rdb addr count) :=
  congrArg some (reqOp_reqWord _ _ _).symm

theorem wrb (addr : Addr) (inbytes : List Byte) : Statement (.wrb addr inbytes) :=
  congrArg some (reqOp_reqWord _ _ _).symm

theorem rd8 (addr : Addr) : Statement (.rd8 addr) :=
  congrArg some (reqOp_reqWord _ _ _).symm

theorem rd16 (addr : Addr) : Statement (.rd16 addr) :=
  congrArg some (reqOp_reqWord _ _ _).symm

theorem rd32 (addr : Addr) : Statement (.rd32 addr) :=
  congrArg some (reqOp_reqWord _ _ _).symm

theorem wr8 (addr : Addr) (value : BitVec 8) : Statement (.wr8 addr value) :=
  congrArg some (reqOp_reqWord _ _ _).symm

theorem wr16 (addr : Addr) (value : BitVec 16) : Statement (.wr16 addr value) :=
  congrArg some (reqOp_reqWord _ _ _).symm

theorem wr32 (addr : Addr) (value : Word) : Statement (.wr32 addr value) :=
  congrArg some (reqOp_reqWord _ _ _).symm

theorem hostcmd (code : Byte) : Statement (.hostcmd code) :=
  congrArg some (reqOp_reqWord _ _ _).symm

theorem wake : Statement .wake :=
  congrArg some (reqOp_reqWord _ _ _).symm

theorem chkid : Statement .chkid :=
  congrArg some (reqOp_reqWord _ _ _).symm

theorem tryenq (word : Word) : Statement (.tryenq word) :=
  congrArg some (reqOp_reqWord _ _ _).symm

theorem enq (word : Word) : Statement (.enq word) :=
  congrArg some (reqOp_reqWord _ _ _).symm

theorem idle : Statement .idle :=
  congrArg some (reqOp_reqWord _ _ _).symm

theorem pack (inbytes : List Byte) : Statement (.pack inbytes) :=
  congrArg some (reqOp_reqWord _ _ _).symm

theorem textcmd (inwords : List Word) (inbytes : List Byte) : Statement (.textcmd inwords inbytes) :=
  congrArg some (reqOp_reqWord _ _ _).symm

theorem wireRead (addr : WireAddr) (count : Nat) : Statement (.wireRead addr count) :=
  ⟨rfl, by simp, congrArg some (prefixMarker_append _ _)⟩

theorem wireWrite (addr : WireAddr) (bytes : List Byte) : Statement (.wireWrite addr bytes) :=
  ⟨rfl, by simp, congrArg some (prefixMarker_append _ _)⟩

theorem wireHostcmd (code : BitVec 6) : Statement (.wireHostcmd code) :=
  ⟨rfl, Nat.le_refl 3, congrArg some (prefixMarker_append _ _)⟩

theorem wireHostcmdM11 (code : BitVec 6) : Statement (.wireHostcmdM11 code) :=
  ⟨rfl, Nat.le_refl 3, congrArg some (prefixMarker_append _ _)⟩

theorem wireWake : Statement .wireWake :=
  ⟨rfl, by decide, by decide⟩

end Sys2Proof.Laws.Encoding
end

