-- ==== Sys2Proof/Laws/Ring.lean ====
section
/-! SUPPORT. The equations of the ring controller and of the text-command sequencer (spec/41_ring_buffer.md
R107 to R117, spec/42_payload.md R133), one per case, so that no proof unfolds them. -/
namespace Sys2Proof.Machine

/-- The DESEL step of a transaction, where every byte is exchanged. -/
theorem atDesel_run {k : State → Out} {p : Pc} {rx : List Byte} {s : State} (h : atDesel p rx s) :
    xferStep k s = k (deselect s) := by
  obtain ⟨-, hc, -, bytes, hb, hi⟩ := h
  exact xferStep_deselect k hc hb hi (by simp)

/-- More than four bytes free: accepted (R110). -/
theorem accepts_eq_true {f : Word} (h : 4 < f.toNat) : accepts f = true := by
  simp [accepts, headroom, h]

/-- At most four bytes free: rejected (R111). -/
theorem accepts_eq_false {f : Word} (h : f.toNat ≤ 4) : accepts f = false := by
  simp [accepts, headroom]; omega

section
variable {word : State → (Word → Out) → Out} {outcome : Verdict → State → Out} {wo occ f : Word} {s : State}

/-- Diverged pointers under a policy that gives no free space (R109, R141). -/
theorem decideAttempt_diverged (h : freeOf s.cfg.policy occ = none) :
    decideAttempt word wo occ outcome s = .next (enterFault faultDivergence true s) := by
  simp only [decideAttempt, h]

/-- Room for the word (R110). -/
theorem decideAttempt_roomy (h : freeOf s.cfg.policy occ = some f) (hf : 4 < f.toNat) :
    decideAttempt word wo occ outcome s =
      word { s with free := some f } fun w => .next (startRingWrite w wo { s with free := some f }) := by
  simp only [decideAttempt, h, accepts_eq_true hf, if_true]

/-- No room for the word (R111). -/
theorem decideAttempt_full (h : freeOf s.cfg.policy occ = some f) (hf : f.toNat ≤ 4) :
    decideAttempt word wo occ outcome s = outcome .rejected { s with free := some f } := by
  simp only [decideAttempt, h, accepts_eq_false hf, Bool.false_eq_true, if_false]

end

section
variable {finish : Bool → BitVec 16 → State → Out} {n : BitVec 16} {s : State}

/-- An accepted word is delivered (R115). -/
theorem retry_enqueued (h : s.attempts = some n) :
    retry finish .enqueued s = finish true (n + 1#16) { s with attempts := some (n + 1#16) } := by
  simp only [retry, h, readLatch_some]

/-- The last attempt of the budget gives up (R115). -/
theorem retry_gaveup (h : s.attempts = some n) (hb : (n + 1#16).toNat = s.cfg.retryBudget) :
    retry finish .rejected s = finish false (n + 1#16) { s with attempts := some (n + 1#16) } := by
  simp only [retry, h, readLatch_some, hb, if_true]

/-- Below the budget the word is tried again (R115, R117). -/
theorem retry_again (h : s.attempts = some n) (hb : (n + 1#16).toNat ≠ s.cfg.retryBudget) :
    retry finish .rejected s = .next (startAttempt { s with attempts := some (n + 1#16) }) := by
  simp only [retry, h, readLatch_some, hb, if_false]

end

/-- StartWord with a budget begins the word's first attempt (R133). -/
theorem nextWord_starts {s : State} {ws : List Word} {i : BitVec 17} (hb : s.cfg.retryBudget ≠ 0)
    (hw : s.words = some ws) (hi : s.widx = some i) (h : i.toNat < ws.length) :
    nextWord s = .next (startAttempt { s with attempts := some 0#16 }) := by
  obtain ⟨m, hm⟩ : ∃ m, wordsLeft s = m + 1 :=
    ⟨ws.length - i.toNat - 1, by simp [wordsLeft, hw, hi]; omega⟩
  simp [nextWord, hm, startWord, hb]

section
variable {again : State → Out} {s : State} {ws : List Word} {i : BitVec 17} {nd ng : BitVec 16}

/-- The latches of a text command after a word (R133). -/
def countWord (delivered : Bool) (i : BitVec 17) (nd ng : BitVec 16) (s : State) : State :=
  { s with
    ndeliv := some (if delivered then nd + 1#16 else nd),
    ngaveup := some (if delivered then ng else ng + 1#16), widx := some (i + 1#17) }

/-- WordDone where the command ends (R133, R134). -/
theorem wordDone_ends (delivered : Bool) (hd : s.ndeliv = some nd) (hg : s.ngaveup = some ng)
    (hi : s.widx = some i) (hw : s.words = some ws)
    (h : (i + 1#17).toNat = ws.length ∨ delivered = false ∧ s.cfg.abortOnGaveup = true) :
    wordDone again delivered s =
      .next (complete
        (textResult (if delivered then nd + 1#16 else nd) (if delivered then ng else ng + 1#16))
        (countWord delivered i nd ng s)) := by
  simp only [wordDone, hd, hg, hi, hw, readLatch_some]
  rw [if_pos h]
  simp only [countWord, hw]

/-- WordDone where the next word starts (R133). -/
theorem wordDone_goes (delivered : Bool) (hd : s.ndeliv = some nd) (hg : s.ngaveup = some ng)
    (hi : s.widx = some i) (hw : s.words = some ws)
    (h : ¬ ((i + 1#17).toNat = ws.length ∨ delivered = false ∧ s.cfg.abortOnGaveup = true)) :
    wordDone again delivered s = again (countWord delivered i nd ng s) := by
  simp only [wordDone, hd, hg, hi, hw, readLatch_some]
  rw [if_neg h]
  simp only [countWord, hw]

end

end Sys2Proof.Machine
end

