-- ==== Sys2Proof/Laws/Step.lean ====
section
/-! SUPPORT. Everything one step of the block can do (spec/10_state.md R24, R32): the request on the port is
accepted or refused, the latched request goes on, a placed wire transaction goes on, or nothing moves. -/
namespace Sys2Proof

/-- One arm of the request decoder. -/
theorem decodeArm {p : Prop} [Decidable p] {a i : Instr} {e : Except Reject Instr}
    (h : (if p then .ok a else e) = Except.ok i) : p ∧ a = i ∨ ¬ p ∧ e = .ok i := by
  by_cases hp : p
  · rw [if_pos hp] at h; exact .inl ⟨hp, by injection h⟩
  · rw [if_neg hp] at h; exact .inr ⟨hp, h⟩

/-- A request never decodes to a wire transaction (R81, R89). -/
theorem decodeRequest_request {r : Request} {i : Instr} (h : decodeRequest r = .ok i) : i.isWire = false := by
  unfold decodeRequest at h
  simp only at h
  obtain ⟨-, rfl⟩ | ⟨-, h⟩ := decodeArm h
  · rfl
  obtain ⟨-, rfl⟩ | ⟨-, h⟩ := decodeArm h
  · rfl
  obtain ⟨-, rfl⟩ | ⟨-, h⟩ := decodeArm h
  · rfl
  obtain ⟨-, rfl⟩ | ⟨-, h⟩ := decodeArm h
  · rfl
  obtain ⟨-, rfl⟩ | ⟨-, h⟩ := decodeArm h
  · rfl
  obtain ⟨-, rfl⟩ | ⟨-, h⟩ := decodeArm h
  · rfl
  obtain ⟨-, rfl⟩ | ⟨-, h⟩ := decodeArm h
  · rfl
  obtain ⟨-, rfl⟩ | ⟨-, h⟩ := decodeArm h
  · rfl
  obtain ⟨-, rfl⟩ | ⟨-, h⟩ := decodeArm h
  · rfl
  obtain ⟨-, rfl⟩ | ⟨-, h⟩ := decodeArm h
  · rfl
  obtain ⟨-, rfl⟩ | ⟨-, h⟩ := decodeArm h
  · rfl
  obtain ⟨-, rfl⟩ | ⟨-, h⟩ := decodeArm h
  · rfl
  obtain ⟨-, rfl⟩ | ⟨-, h⟩ := decodeArm h
  · rfl
  obtain ⟨-, rfl⟩ | ⟨-, h⟩ := decodeArm h
  · rfl
  obtain ⟨-, rfl⟩ | ⟨-, h⟩ := decodeArm h
  · rfl
  obtain ⟨-, rfl⟩ | ⟨-, h⟩ := decodeArm h
  · rfl
  cases h

/-- The operation code of a decoded request is that of its operation (R81). -/
theorem decodeRequest_opcode {r : Request} {i : Instr} (h : decodeRequest r = .ok i) :
    some (reqOp r.q) = i.opcode := by
  unfold decodeRequest at h
  simp only at h
  obtain ⟨e, rfl⟩ | ⟨-, h⟩ := decodeArm h
  · exact congrArg some e
  obtain ⟨e, rfl⟩ | ⟨-, h⟩ := decodeArm h
  · exact congrArg some e
  obtain ⟨e, rfl⟩ | ⟨-, h⟩ := decodeArm h
  · exact congrArg some e
  obtain ⟨e, rfl⟩ | ⟨-, h⟩ := decodeArm h
  · exact congrArg some e
  obtain ⟨e, rfl⟩ | ⟨-, h⟩ := decodeArm h
  · exact congrArg some e
  obtain ⟨e, rfl⟩ | ⟨-, h⟩ := decodeArm h
  · exact congrArg some e
  obtain ⟨e, rfl⟩ | ⟨-, h⟩ := decodeArm h
  · exact congrArg some e
  obtain ⟨e, rfl⟩ | ⟨-, h⟩ := decodeArm h
  · exact congrArg some e
  obtain ⟨e, rfl⟩ | ⟨-, h⟩ := decodeArm h
  · exact congrArg some e
  obtain ⟨e, rfl⟩ | ⟨-, h⟩ := decodeArm h
  · exact congrArg some e
  obtain ⟨e, rfl⟩ | ⟨-, h⟩ := decodeArm h
  · exact congrArg some e
  obtain ⟨e, rfl⟩ | ⟨-, h⟩ := decodeArm h
  · exact congrArg some e
  obtain ⟨e, rfl⟩ | ⟨-, h⟩ := decodeArm h
  · exact congrArg some e
  obtain ⟨e, rfl⟩ | ⟨-, h⟩ := decodeArm h
  · exact congrArg some e
  obtain ⟨e, rfl⟩ | ⟨-, h⟩ := decodeArm h
  · exact congrArg some e
  obtain ⟨e, rfl⟩ | ⟨-, h⟩ := decodeArm h
  · exact congrArg some e
  cases h

/-- Bytes of the wire space decode to a wire transaction (R89). -/
theorem decodeWire_wire {b : List Byte} {i : Instr} (h : decodeWire b = .ok i) : i.isWire = true := by
  unfold decodeWire at h
  split at h
  · split at h
    · cases h; rfl
    · split at h
      · split at h
        · split at h
          · cases h; rfl
          · cases h
        · split at h
          · cases h; rfl
          · cases h
      · split at h
        · split at h <;> cases h <;> rfl
        · cases h
  · cases h

end Sys2Proof

namespace Sys2Proof.Machine

/-- A code byte with bit 6 set is sent as it is (R75). -/
theorem txHost_marker (m : BitVec 2) (c : BitVec 6) (h : m.getLsbD 0 = true) :
    txHost (m ++ c) = [m ++ c, 0#8, 0#8] := by
  have e : (m ++ c) ||| 0x40#8 = m ++ c := by
    apply BitVec.eq_of_getLsbD_eq
    intro i hi
    have : i = 0 ∨ i = 1 ∨ i = 2 ∨ i = 3 ∨ i = 4 ∨ i = 5 ∨ i = 6 ∨ i = 7 := by omega
    rcases this with rfl | rfl | rfl | rfl | rfl | rfl | rfl | rfl <;>
      simp only [BitVec.getLsbD_or, BitVec.getLsbD_append] <;> simp
    simpa using h
  simp [txHost, e]

/-- A wire transaction is the engine's Xfer of the bytes of a row. -/
theorem exec_wire {i : Instr} (h : i.isWire = true) :
    ∃ bytes cap, IsRow bytes ∧ ∀ s, exec i s = bareXfer bytes cap s := by
  cases i with
  | wireRead a n => exact ⟨_, _, .inl ⟨a.setWidth 24, n, rfl⟩, fun _ => rfl⟩
  | wireWrite a bs => exact ⟨_, _, .inr (.inl ⟨a.setWidth 24, bs, rfl⟩), fun _ => rfl⟩
  | wireHostcmd c =>
    exact ⟨_, _, .inr (.inr (.inl ⟨markHost ++ c, (txHost_marker _ c (by decide)).symm⟩)), fun _ => rfl⟩
  | wireHostcmdM11 c =>
    exact ⟨_, _, .inr (.inr (.inl ⟨markReserved ++ c, (txHost_marker _ c (by decide)).symm⟩)),
      fun _ => rfl⟩
  | wireWake => exact ⟨_, _, .inr (.inr (.inr rfl)), fun _ => rfl⟩
  | _ => cases h

/-- What the latches hold when a request is in them (R25). -/
theorem latchedRequest_ok {s : State} {r : Request} (h : latchedRequest s = .ok r) :
    ∃ op a d bs ws, s.op = some op ∧ s.addr = some a ∧ s.data = some d ∧ s.inbytes = some bs ∧
      s.inwords = some ws ∧ r = ⟨reqWord op a d, bs, ws⟩ := by
  unfold latchedRequest at h
  split at h
  · rename_i h1 h2 h3 h4 h5
    cases h
    exact ⟨_, _, _, _, _, h1, h2, h3, h4, h5, rfl⟩
  all_goals cases h

/-- One step of the block. -/
inductive Block (s t : State) : Prop where
  | still (same : t = s) (why : s.pc = .fault ∨ s.pc = .idle ∧ s.wire = none ∧ s.reqs = [])
  | refused (r : Request) (rest : List Request) (idle : s.pc = .idle) (bare : s.wire = none)
      (port : s.reqs = r :: rest) (x : Reject) (decode : decodeRequest r = .error x)
      (next : t = refuse (takeRequest r rest s))
  | accepted (r : Request) (rest : List Request) (i : Instr) (idle : s.pc = .idle) (bare : s.wire = none)
      (port : s.reqs = r :: rest) (decode : decodeRequest r = .ok i)
      (run : exec i (takeRequest r rest s) = .next t)
  | flight (r : Request) (i : Instr) (busy : s.pc ≠ .idle) (live : s.pc ≠ .fault) (bare : s.wire = none)
      (latched : latchedRequest s = .ok r) (decode : decodeRequest r = .ok i) (run : exec i s = .next t)
  | wire (bytes : List Byte) (i : Instr) (live : s.pc ≠ .fault) (placed : s.wire = some bytes)
      (decode : decodeWire bytes = .ok i) (run : exec i s = .next t)

theorem fetch_fault {s : State} (h : s.pc = .fault) : fetch s = .nothing := by
  unfold fetch
  rw [h]

theorem fetch_wire {s : State} {bytes : List Byte} (h : s.pc ≠ .fault) (hw : s.wire = some bytes) :
    fetch s = match decodeWire bytes with
      | .ok i => .run i s
      | .error _ => .noRow := by
  unfold fetch
  split
  · contradiction
  · cases hd : decodeWire bytes <;> simp only [hw, hd]

theorem fetch_idle {s : State} (h : s.pc = .idle) (hw : s.wire = none) : fetch s = fetchRequest s := by
  unfold fetch
  simp only [h, hw]

theorem fetch_flight {s : State} (h : s.pc ≠ .fault) (hi : s.pc ≠ .idle) (hw : s.wire = none) :
    fetch s = fetchLatched s := by
  unfold fetch
  split
  · contradiction
  · simp only [hw]

/-- Everything one step of the block can do. -/
theorem blockStep_cases {s t : State} (h : blockStep s = .next t) : Block s t := by
  unfold blockStep at h
  by_cases hf : s.pc = .fault
  · rw [fetch_fault hf] at h
    cases h
    exact .still rfl (.inl hf)
  · cases hw : s.wire with
    | some bytes =>
      rw [fetch_wire hf hw] at h
      cases hd : decodeWire bytes with
      | ok i => rw [hd] at h; exact .wire bytes i hf hw hd h
      | error x => rw [hd] at h; cases h
    | none =>
      by_cases hi : s.pc = .idle
      · rw [fetch_idle hi hw] at h
        unfold fetchRequest at h
        cases hr : s.reqs with
        | nil => simp only [hr] at h; cases h; exact .still rfl (.inr ⟨hi, hw, hr⟩)
        | cons r rest =>
          simp only [hr] at h
          cases hd : decodeRequest r with
          | ok i => rw [hd] at h; exact .accepted r rest i hi hw hr hd h
          | error x => rw [hd] at h; cases h; exact .refused r rest hi hw hr x hd rfl
      · rw [fetch_flight hf hi hw] at h
        unfold fetchLatched at h
        cases hl : latchedRequest s with
        | error f => rw [hl] at h; cases h
        | ok r =>
          rw [hl] at h
          simp only at h
          cases hd : decodeRequest r with
          | ok i => rw [hd] at h; exact .flight r i hi hf hw hl hd h
          | error x => rw [hd] at h; cases h

end Sys2Proof.Machine
end

