-- ==== Sys2Proof/Laws/Run.lean ====
section
/-! SUPPORT. Runs of the transaction engine (spec/10_state.md R31): from a transaction set up to its DESEL
step, one exchange after another, said once for every operation. -/
namespace Sys2Proof.Machine

/-- Runs are put together. -/
theorem runSteps_add {m n : Nat} {s t : State} (h : runSteps m s = .next t) :
    runSteps (m + n) s = runSteps n t := by
  induction m generalizing s with
  | zero => simp only [runSteps] at h; cases h; simp
  | succ m ih =>
    rw [Nat.succ_add]
    simp only [runSteps] at h ⊢
    cases hs : step s with
    | next u => rw [hs] at h; exact ih h
    | fault f => rw [hs] at h; cases h
    | refused f => rw [hs] at h; cases h

theorem runSteps_one {s t : State} (h : step s = .next t) : runSteps 1 s = .next t := by
  simp [runSteps, h]

/-- The state after the first `n` exchanges of a transaction of `bytes` (R31). -/
def exchanges (bytes : List Byte) (cap : Nat) : Nat → State → State
  | 0, s => s
  | n + 1, s =>
    let u := exchanges bytes cap n s
    exchange bytes cap n (u.rx.getD []) (bytes.getD n 0#8) u

theorem exchanges_succ (bytes : List Byte) (cap n : Nat) (s : State) :
    exchanges bytes cap (n + 1) s =
      exchange bytes cap n ((exchanges bytes cap n s).rx.getD []) (bytes.getD n 0#8)
        (exchanges bytes cap n s) := rfl

/-- What no exchange changes. -/
structure Engaged (s u : State) : Prop where
  cfg : u.cfg = s.cfg
  reqs : u.reqs = s.reqs
  resp : u.resp = s.resp
  pc : u.pc = s.pc
  op : u.op = s.op
  addr : u.addr = s.addr
  data : u.data = s.data
  inbytes : u.inbytes = s.inbytes
  inwords : u.inwords = s.inwords
  roL : u.roL = s.roL
  woL : u.woL = s.woL
  occ : u.occ = s.occ
  free : u.free = s.free
  attempts : u.attempts = s.attempts
  words : u.words = s.words
  widx : u.widx = s.widx
  ndeliv : u.ndeliv = s.ndeliv
  ngaveup : u.ngaveup = s.ngaveup
  txs : u.txs = s.txs
  txfrom : u.txfrom = s.txfrom
  fault : u.fault = s.fault
  results : u.results = s.results
  consumed : u.consumed = s.consumed
  sched : u.sched = s.sched
  wire : u.wire = s.wire

theorem Engaged.refl (s : State) : Engaged s s := by constructor <;> rfl

theorem Engaged.trans {s u v : State} (h : Engaged s u) (k : Engaged u v) : Engaged s v := by
  constructor
  all_goals first
    | exact k.cfg.trans h.cfg | exact k.reqs.trans h.reqs | exact k.resp.trans h.resp
    | exact k.pc.trans h.pc | exact k.op.trans h.op | exact k.addr.trans h.addr
    | exact k.data.trans h.data | exact k.inbytes.trans h.inbytes | exact k.inwords.trans h.inwords
    | exact k.roL.trans h.roL | exact k.woL.trans h.woL | exact k.occ.trans h.occ
    | exact k.free.trans h.free | exact k.attempts.trans h.attempts | exact k.words.trans h.words
    | exact k.widx.trans h.widx | exact k.ndeliv.trans h.ndeliv | exact k.ngaveup.trans h.ngaveup
    | exact k.txs.trans h.txs | exact k.txfrom.trans h.txfrom | exact k.fault.trans h.fault
    | exact k.results.trans h.results | exact k.consumed.trans h.consumed
    | exact k.sched.trans h.sched | exact k.wire.trans h.wire

theorem engaged_select (s : State) : Engaged s (select s) := by constructor <;> rfl

theorem engaged_exchange (bytes : List Byte) (cap i : Nat) (rx : List Byte) (o : Byte) (s : State) :
    Engaged s (exchange bytes cap i rx o s) := by constructor <;> rfl

theorem engaged_exchanges (bytes : List Byte) (cap n : Nat) (s : State) :
    Engaged s (exchanges bytes cap n s) := by
  induction n with
  | zero => exact Engaged.refl s
  | succ n ih => exact ih.trans (engaged_exchange _ _ _ _ _ _)

/-- The latches the engine moves, after `n` exchanges. -/
theorem exchanges_engine (bytes : List Byte) (cap n : Nat) {s : State} (hc : s.cs = true)
    (hi : s.txpos = some 0) (hr : s.rx.isSome) :
    (exchanges bytes cap n s).cs = true ∧ (exchanges bytes cap n s).txpos = some n ∧
      (exchanges bytes cap n s).rx.isSome := by
  induction n with
  | zero => exact ⟨hc, hi, hr⟩
  | succ n ih => exact ⟨ih.1, rfl, rfl⟩

/-- From a transaction set up to its DESEL step: SEL and every exchange, in `bytes.length + 1` steps, where
every step of the operation at this program point is one of the engine's. -/
theorem engine_run {k : State → Out} {s : State} {bytes : List Byte} {cap : Nat}
    (hstep : ∀ u, Engaged s u → step u = xferStep k u) (hc : s.cs = false) (hb : s.txs = some bytes)
    (hcap : s.txfrom = some cap) (hi : s.txpos = some 0) (hr : s.rx.isSome) :
    runSteps (bytes.length + 1) s = .next (exchanges bytes cap bytes.length (select s)) := by
  have go : ∀ n, n ≤ bytes.length →
      runSteps (n + 1) s = .next (exchanges bytes cap n (select s)) := by
    intro n hn
    induction n with
    | zero =>
      exact runSteps_one ((hstep s (Engaged.refl s)).trans (xferStep_select k hc))
    | succ n ih =>
      rw [runSteps_add (ih (by omega))]
      have g := (engaged_select s).trans (engaged_exchanges bytes cap n (select s))
      obtain ⟨e1, e2, e3⟩ := exchanges_engine bytes cap n (s := select s) rfl hi hr
      obtain ⟨rx, hrx⟩ := Option.isSome_iff_exists.1 e3
      have ho : bytes[n]? = some (bytes.getD n 0#8) := by
        rw [List.getD_eq_getElem?_getD, List.getElem?_eq_getElem (by omega)]; rfl
      refine runSteps_one ((hstep _ g).trans ?_)
      rw [xferStep_exchange k e1 (g.txs.trans hb) e2 ho (g.txfrom.trans hcap) hrx]
      simp [exchanges, hrx]
  exact go _ (Nat.le_refl _)

/-- With the answers forced, the exchanges receive exactly them (R153). -/
theorem exchanges_forced (bytes : List Byte) (cap : Nat) (d : List Byte) (rest : List (Option Byte))
    {s : State} (hd : s.draws = d.map some ++ rest) (hl : d.length = bytes.length)
    (hr : s.rx = some []) (n : Nat) (hn : n ≤ bytes.length) :
    (exchanges bytes cap n s).draws = (d.drop n).map some ++ rest ∧
      (exchanges bytes cap n s).rx = some ((d.take n).drop cap) ∧
      (exchanges bytes cap n s).trace =
        s.trace ++ List.zipWith BusEvent.x (bytes.take n) (d.take n) := by
  induction n with
  | zero => simp [exchanges, hd, hr]
  | succ n ih =>
    obtain ⟨h1, h2, h3⟩ := ih (by omega)
    have hnd : n < d.length := by omega
    have hdn : d.drop n = d[n] :: d.drop (n + 1) := by rw [List.drop_eq_getElem_cons hnd]
    have hrec : received (exchanges bytes cap n s) (bytes.take n) = d[n] := by
      rw [hdn] at h1
      simp only [received, h1, List.map_cons, List.cons_append]
    have ho : bytes.getD n 0#8 = bytes[n] := by
      rw [List.getD_eq_getElem?_getD, List.getElem?_eq_getElem (by omega)]; rfl
    have ht : d.take (n + 1) = d.take n ++ [d[n]] := by rw [List.take_add_one]; simp [hnd]
    have htb : bytes.take (n + 1) = bytes.take n ++ [bytes[n]] := by
      rw [List.take_add_one, List.getElem?_eq_getElem (by omega)]; rfl
    refine ⟨?_, ?_, ?_⟩
    · rw [hdn] at h1
      simp only [exchanges, exchange, h1, List.map_cons, List.cons_append, List.tail_cons]
    · simp only [exchanges, exchange, h2, hrec, Option.getD_some]
      by_cases hc : cap ≤ n
      · rw [if_pos hc, ht, List.drop_append_of_le_length (by simp; omega)]
      · rw [if_neg hc]
        have e1 : (d.take (n + 1)).drop cap = [] := by apply List.drop_of_length_le; simp; omega
        have e2 : (d.take n).drop cap = [] := by apply List.drop_of_length_le; simp; omega
        rw [e1, e2]
    · simp only [exchanges, exchange, h3, hrec, ho]
      rw [ht, htb, List.zipWith_append (by simp; omega)]
      simp

/-! ## A chip that answers from its memory (R52, R156) -/

/-- The address in the first three bytes of a read or write transaction (R49, R71). -/
theorem sentAddr_prefix (a : Addr) (m : BitVec 2) (rest : List Byte) {i : Nat} (h : 3 ≤ i) :
    sentAddr ((framePrefix a m ++ rest).take i) = (a.setWidth 22).toNat := by
  obtain ⟨j, rfl⟩ : ∃ j, i = j + 3 := ⟨i - 3, by omega⟩
  simp [framePrefix, sentAddr, prefixAddr_framePrefix]

/-- The marker in the first byte of a transaction (R71, R72). -/
theorem sentMarker_prefix (a : Addr) (m : BitVec 2) (rest : List Byte) {i : Nat} (h : 1 ≤ i) :
    sentMarker ((framePrefix a m ++ rest).take i) = m := by
  obtain ⟨j, rfl⟩ : ∃ j, i = j + 1 := ⟨i - 1, by omega⟩
  simp [framePrefix, sentMarker]

/-- A read stores nothing. -/
theorem storeAddr_read (a : Addr) (n i : Nat) : storeAddr ((txRead a n).take i) = none := by
  unfold storeAddr
  cases i with
  | zero => rfl
  | succ i =>
    rw [txRead, sentMarker_prefix a markRead _ (by omega)]
    rfl

/-- A write stores nothing while its prefix is sent. -/
theorem storeAddr_write_prefix (a : Addr) (s : List Byte) {i : Nat} (h : i < 3) :
    storeAddr ((txWrite a s).take i) = none := by
  unfold storeAddr
  rw [if_neg]
  rintro ⟨-, h'⟩
  simp at h'
  omega

/-- Byte `k` of a write goes to A + k (R52). -/
theorem storeAddr_write_data (a : Addr) (s : List Byte) {k : Nat} (h : k ≤ s.length) :
    storeAddr ((txWrite a s).take (3 + k)) = some ((a.setWidth 22).toNat + k) := by
  unfold storeAddr
  have hl : ((txWrite a s).take (3 + k)).length = 3 + k := by simp; omega
  rw [hl, txWrite, sentMarker_prefix a markWrite s (by omega), sentAddr_prefix a markWrite s (by omega),
    if_pos ⟨rfl, by omega⟩]
  simp

theorem Memory.writeBytes_append (m : Memory) (x : Nat) (s : List Byte) (b : Byte) :
    m.writeBytes x (s ++ [b]) = (m.writeBytes x s).write (x + s.length) b := by
  induction s generalizing m x with
  | nil => rfl
  | cons c s ih =>
    simp only [List.cons_append, Memory.writeBytes, ih, List.length_cons]
    congr 1
    omega

/-- The exchanges of a read leave the chip alone. -/
theorem exchanges_read_mem (a : Addr) (n cap i : Nat) (s : State) :
    (exchanges (txRead a n) cap i s).mem = s.mem := by
  induction i with
  | zero => rfl
  | succ i ih => simp [exchanges, exchange, chipStore, storeAddr_read, ih]

/-- The exchanges of a write store its bytes at the address (R52). -/
theorem exchanges_write_mem (a : Addr) (bs : List Byte) (cap : Nat) (s : State) :
    (exchanges (txWrite a bs) cap (txWrite a bs).length s).mem =
      s.mem.writeBytes (a.setWidth 22).toNat bs := by
  have pre : ∀ i, i ≤ 3 → (exchanges (txWrite a bs) cap i s).mem = s.mem := by
    intro i hi
    induction i with
    | zero => rfl
    | succ i ih => simp [exchanges, exchange, chipStore, storeAddr_write_prefix a bs (by omega : i < 3),
        ih (by omega)]
  have go : ∀ k, k ≤ bs.length → (exchanges (txWrite a bs) cap (3 + k) s).mem =
      s.mem.writeBytes (a.setWidth 22).toNat (bs.take k) := by
    intro k hk
    induction k with
    | zero => simpa [Memory.writeBytes] using pre 3 (Nat.le_refl 3)
    | succ k ih =>
      have hb : (txWrite a bs).getD (3 + k) 0#8 = bs[k] := by
        rw [txWrite, List.getD_eq_getElem?_getD, List.getElem?_append_right (by simp)]
        simp [show k < bs.length by omega]
      have ht : bs.take (k + 1) = bs.take k ++ [bs[k]] := by
        rw [List.take_add_one, List.getElem?_eq_getElem (by omega)]; rfl
      rw [ht, Memory.writeBytes_append, ← ih (by omega), show 3 + (k + 1) = (3 + k) + 1 by omega,
        exchanges_succ]
      simp only [exchange, chipStore, storeAddr_write_data a bs (show k ≤ bs.length by omega), hb,
        List.length_take]
      rw [Nat.min_eq_left (by omega)]
  simpa using go bs.length (Nat.le_refl _)

/-- The exchanges of a read receive the chip's bytes, where it has them and no answer is forced (R156). -/
theorem exchanges_read_rx (a : Addr) (n : Nat) (d : List Byte) {s : State} (hd : s.draws = [])
    (hr : s.rx = some []) (hl : d.length = n)
    (hm : ∀ k, (h : k < d.length) → s.mem.read ((a.setWidth 22).toNat + k) = some d[k]) :
    (exchanges (txRead a n) readCap (n + 4) s).rx = some d ∧
      (exchanges (txRead a n) readCap (n + 4) s).draws = [] := by
  have dr : ∀ i, (exchanges (txRead a n) readCap i s).draws = [] := by
    intro i
    induction i with
    | zero => exact hd
    | succ i ih => simp [exchanges, exchange, ih]
  have pre : ∀ i, i ≤ 4 → (exchanges (txRead a n) readCap i s).rx = some [] := by
    intro i hi
    induction i with
    | zero => exact hr
    | succ i ih =>
      rw [exchanges_succ]
      simp only [exchange, ih (by omega), Option.getD_some]
      rw [if_neg (by simp only [readCap]; omega)]
  have go : ∀ k, k ≤ d.length →
      (exchanges (txRead a n) readCap (k + 4) s).rx = some (d.take k) := by
    intro k hk
    induction k with
    | zero => simpa using pre 4 (Nat.le_refl 4)
    | succ k ih =>
      have hans : received (exchanges (txRead a n) readCap (k + 4) s) ((txRead a n).take (k + 4)) = d[k] := by
        have hlen : ((txRead a n).take (k + 4)).length = k + 4 := by simp; omega
        have hc : chipAnswer s.mem ((txRead a n).take (k + 4)) = some d[k] := by
          unfold chipAnswer
          rw [hlen, txRead, sentMarker_prefix a markRead _ (by omega),
            sentAddr_prefix a markRead _ (by omega), if_pos ⟨rfl, by omega⟩]
          simpa using hm k (by omega)
        simp [received, dr, exchanges_read_mem, hc]
      have ht : d.take (k + 1) = d.take k ++ [d[k]] := by
        rw [List.take_add_one, List.getElem?_eq_getElem (by omega)]; rfl
      rw [show k + 1 + 4 = (k + 4) + 1 by omega, exchanges_succ]
      simp only [exchange, ih (by omega), hans, Option.getD_some]
      rw [if_pos (by simp [readCap]), ht]
  refine ⟨?_, dr _⟩
  have := go d.length (Nat.le_refl _)
  rwa [List.take_length, hl] at this

end Sys2Proof.Machine
end

