-- ==== Sys2Proof/Laws/Phases.lean ====
section
/-! SUPPORT. A request in service with no forced answer, one transaction at a time: from the set-up of a
read or a write to its DESEL step (spec/10_state.md R31, spec/60_exceptions.md R156), and 32-bit words in
chip memory (spec/20_memory.md R53). -/
namespace Sys2Proof.Machine

/-! ## Words in chip memory -/

/-- The four bytes of a known word (R53). -/
theorem Memory.readWord_bytes {m : Memory} {x : Nat} {v : Word} (h : m.readWord x = some v) :
    ∃ d : List Byte, d.length = 4 ∧ leWord d = v ∧
      ∀ k, (hk : k < d.length) → m.read (x + k) = some d[k] := by
  unfold Memory.readWord at h
  split at h
  · rename_i b0 b1 b2 b3 h0 h1 h2 h3
    refine ⟨[b0, b1, b2, b3], rfl, by injection h, ?_⟩
    intro k hk
    have : k = 0 ∨ k = 1 ∨ k = 2 ∨ k = 3 := by simp at hk; omega
    rcases this with rfl | rfl | rfl | rfl <;> simpa
  · cases h

/-- Four bytes stored read back as one word. -/
theorem Memory.readWord_writeBytes (m : Memory) (x : Nat) (b0 b1 b2 b3 : Byte) (h : x + 4 ≤ chipSpace) :
    (m.writeBytes x [b0, b1, b2, b3]).readWord x = some (leWord [b0, b1, b2, b3]) := by
  have h0 : (m.writeBytes x [b0, b1, b2, b3]).read x = some b0 := by
    show Memory.read (Memory.writeBytes (m.write x b0) (x + 1) [b1, b2, b3]) x = _
    rw [Memory.read_writeBytes_other _ _ (by omega), Memory.read_write_self _ _ (by omega)]
  have h1 : (m.writeBytes x [b0, b1, b2, b3]).read (x + 1) = some b1 := by
    show Memory.read (Memory.writeBytes (Memory.write _ (x + 1) b1) (x + 1 + 1) [b2, b3]) (x + 1) = _
    rw [Memory.read_writeBytes_other _ _ (by omega), Memory.read_write_self _ _ (by omega)]
  have h2 : (m.writeBytes x [b0, b1, b2, b3]).read (x + 2) = some b2 := by
    show Memory.read (Memory.writeBytes (Memory.write _ (x + 2) b2) (x + 2 + 1) [b3]) (x + 2) = _
    rw [Memory.read_writeBytes_other _ _ (by omega), Memory.read_write_self _ _ (by omega)]
  have h3 : (m.writeBytes x [b0, b1, b2, b3]).read (x + 3) = some b3 := by
    show Memory.read (Memory.write _ (x + 3) b3) (x + 3) = _
    rw [Memory.read_write_self _ _ (by omega)]
  unfold Memory.readWord
  rw [h0, h1, h2, h3]

/-- A word stored reads back. -/
theorem Memory.readWord_le4_self (m : Memory) (x : Nat) (w : Word) (h : x + 4 ≤ chipSpace) :
    (m.writeBytes x (le4 w)).readWord x = some w := by
  have hw := leWord_le4 w
  rw [le4_eq] at hw ⊢
  rw [Memory.readWord_writeBytes m x _ _ _ _ h, hw]

/-- A word stored leaves every word apart from it. -/
theorem Memory.readWord_le4_other (m : Memory) (x y : Nat) (w : Word) (h : y + 4 ≤ x ∨ x + 4 ≤ y) :
    (m.writeBytes x (le4 w)).readWord y = m.readWord y := by
  unfold Memory.readWord
  rw [Memory.read_writeBytes_other _ _ (by simp; omega), Memory.read_writeBytes_other _ _ (by simp; omega),
    Memory.read_writeBytes_other _ _ (by simp; omega), Memory.read_writeBytes_other _ _ (by simp; omega)]

/-! ## A request in service -/

/-- The request `r`, accepted in `s`, is in the latches of `u`, the block has the next turn, no answer is
forced, and nothing was delivered since. -/
structure InService (r : Request) (s u : State) : Prop where
  cfg : u.cfg = s.cfg
  fault : u.fault = s.fault
  results : u.results = s.results
  reqs : u.reqs = s.reqs.tail
  op : u.op = some (reqOp r.q)
  addr : u.addr = some (reqAddr r.q)
  data : u.data = some (reqData r.q)
  inbytes : u.inbytes = some r.inbytes
  inwords : u.inwords = some r.inwords
  sched : u.sched = []
  wire : u.wire = none
  draws : u.draws = []

theorem InService.of_engaged {r : Request} {s u v : State} (h : InService r s u) (g : Engaged u v)
    (hd : v.draws = []) : InService r s v :=
  ⟨g.cfg.trans h.cfg, g.fault.trans h.fault, g.results.trans h.results, g.reqs.trans h.reqs,
    g.op.trans h.op, g.addr.trans h.addr, g.data.trans h.data, g.inbytes.trans h.inbytes,
    g.inwords.trans h.inwords, g.sched.trans h.sched, g.wire.trans h.wire, hd⟩

/-- A transaction of `bytes` is set up for the program point `p`. -/
def SetUp (p : Pc) (bytes : List Byte) (cap : Nat) (u : State) : Prop :=
  u.pc = p ∧ u.cs = false ∧ u.txs = some bytes ∧ u.txfrom = some cap ∧ u.txpos = some 0 ∧ u.rx = some []

theorem exchanges_trace_length (bytes : List Byte) (cap n : Nat) (s : State) :
    (exchanges bytes cap n s).trace.length = s.trace.length + n := by
  induction n with
  | zero => rfl
  | succ n ih => simp [exchanges, exchange, ih]; omega

theorem exchanges_draws {s : State} (h : s.draws = []) (bytes : List Byte) (cap n : Nat) :
    (exchanges bytes cap n s).draws = [] := by
  induction n with
  | zero => exact h
  | succ n ih => simp [exchanges, exchange, ih]

section
variable {r : Request} {s u : State} {i : Instr} {k : State → Out} {p : Pc}

/-- A request in service runs its operation (R25, R32). -/
theorem InService.step (h : InService r s u) (hd : decodeRequest r = .ok i) (hp : u.pc ≠ .idle)
    (hf : u.pc ≠ .fault) : step u = exec i u := by
  have hl : latchedRequest u = .ok r := by
    simp only [latchedRequest, h.op, h.addr, h.data, h.inbytes, h.inwords]
    rw [reqWord_fields]
  simp only [Sys2Proof.Machine.step, h.sched, blockStep, fetch_flight hf hp h.wire, fetchLatched, hl, hd]

/-- From a transaction set up to its DESEL step, and what that step then computes. -/
theorem InService.phase {bytes : List Byte} {cap : Nat} (h : InService r s u)
    (hd : decodeRequest r = .ok i) (hp : p ≠ .idle) (hf : p ≠ .fault) (hl : SetUp p bytes cap u)
    (hk : ∀ w, w.pc = p → exec i w = xferStep k w) :
    ∃ v, v = exchanges bytes cap bytes.length (select u) ∧
      runSteps (bytes.length + 1) u = .next v ∧ Engaged u v ∧ InService r s v ∧
      Sys2Proof.Machine.step v = k (deselect v) ∧ v.trace.length = u.trace.length + bytes.length + 1 := by
  obtain ⟨h1, h2, h3, h4, h5, h6⟩ := hl
  have g := (engaged_select u).trans (engaged_exchanges bytes cap bytes.length (select u))
  have hR := h.of_engaged g (exchanges_draws (s := select u) h.draws _ _ _)
  have e := exchanges_engine bytes cap bytes.length (s := select u) rfl h5 (by simp [h6])
  have e3 : (exchanges bytes cap bytes.length (select u)).pc = p := g.pc.trans h1
  refine ⟨_, rfl, engine_run (k := k) (fun w gw => ?_) h2 h3 h4 h5 (by simp [h6]), g, hR, ?_, ?_⟩
  · have hpw : w.pc = p := gw.pc.trans h1
    have hl : latchedRequest w = .ok r := by
      simp only [latchedRequest, gw.op.trans h.op, gw.addr.trans h.addr, gw.data.trans h.data,
        gw.inbytes.trans h.inbytes, gw.inwords.trans h.inwords]
      rw [reqWord_fields]
    rw [← hk w hpw]
    simp only [Sys2Proof.Machine.step, gw.sched.trans h.sched, blockStep,
      fetch_flight (by rw [hpw]; exact hf) (by rw [hpw]; exact hp) (gw.wire.trans h.wire), fetchLatched,
      hl, hd]
  · rw [hR.step hd (by rw [e3]; exact hp) (by rw [e3]; exact hf), hk _ e3]
    exact xferStep_deselect k e.1 (g.txs.trans h3) e.2.1 (by simp)
  · rw [exchanges_trace_length]; simp [select]; omega

/-- The read of a known 32-bit register: nine steps to its DESEL step, its bytes captured (R156). -/
theorem InService.readPhase {a : Addr} {x : Word} (h : InService r s u) (hd : decodeRequest r = .ok i)
    (hp : p ≠ .idle) (hf : p ≠ .fault) (hl : SetUp p (txRead a 4) readCap u)
    (hk : ∀ w, w.pc = p → exec i w = xferStep k w)
    (hm : u.mem.readWord (a.setWidth 22).toNat = some x) :
    ∃ v, runSteps 9 u = .next v ∧ Engaged u v ∧ InService r s v ∧
      Sys2Proof.Machine.step v = k (deselect v) ∧ v.trace.length = u.trace.length + 9 ∧
      v.mem = u.mem ∧ ∃ d, v.rx = some d ∧ leWord d = x := by
  obtain ⟨v, rfl, p1, p2, p3, p4, p5⟩ := h.phase hd hp hf hl hk
  obtain ⟨d, d1, d2, d3⟩ := Memory.readWord_bytes hm
  have := exchanges_read_rx a 4 d (s := select u) h.draws hl.2.2.2.2.2 d1 d3
  exact ⟨_, p1, p2, p3, p4, p5, exchanges_read_mem _ _ _ _ _, d, this.1, d2⟩

/-- The write of a 32-bit word: eight steps to its DESEL step, the word stored (R52). -/
theorem InService.writePhase {a : Addr} {b : Word} (h : InService r s u) (hd : decodeRequest r = .ok i)
    (hp : p ≠ .idle) (hf : p ≠ .fault) (hl : SetUp p (txWrite a (le4 b)) 7 u)
    (hk : ∀ w, w.pc = p → exec i w = xferStep k w) :
    ∃ v, runSteps 8 u = .next v ∧ Engaged u v ∧ InService r s v ∧
      Sys2Proof.Machine.step v = k (deselect v) ∧
      v.mem = u.mem.writeBytes (a.setWidth 22).toNat (le4 b) := by
  obtain ⟨v, rfl, p1, p2, p3, p4, -⟩ := h.phase hd hp hf hl hk
  exact ⟨_, p1, p2, p3, p4, exchanges_write_mem _ _ _ _⟩

end

/-- An offered request is accepted: its ACCEPT runs in the state with the request latched (R24, R25). -/
theorem inService_accept {r : Request} {s : State} {i : Instr} (hd : decodeRequest r = .ok i)
    (ho : offered r [] s) (hdr : s.draws = []) :
    step s = exec i (takeRequest r s.reqs.tail s) ∧ InService r s (takeRequest r s.reqs.tail s) ∧
      (takeRequest r s.reqs.tail s).pc = .idle := by
  obtain ⟨hp, hc, hs, hw, hr, -⟩ := ho
  cases hq : s.reqs with
  | nil => simp [hq] at hr
  | cons r' rs =>
    simp [hq] at hr
    subst hr
    refine ⟨by simp [step, hs, blockStep, fetch_idle hp hw, fetchRequest, hq, hd], ?_, hp⟩
    constructor <;> simp [takeRequest, latchRequest, hq, hs, hw, hdr]

end Sys2Proof.Machine
end

