-- ==== Sys2Proof/Tests/Slice0.lean ====
section
/-! SUPPORT. Tests. Every expected value is taken from spec/95_test_vectors.md (the section is named) or worked
out by hand from the rule named. First the ill-formed terms, then words of each family, single steps, the
assembler, and last a witness for the hypotheses of every statement of Certificates/Slice0. -/
namespace Sys2Proof.Tests
open Sys2Proof.Machine

/-! ## Helpers -/

/-- The next state of a step, or `State.reset` where it has none. -/
def nextOf (o : Out) : State :=
  match o with
  | .next t => t
  | .fault _ => State.reset
  | .refused _ => State.reset

/-- Whether a step answers a next state. -/
def isNext (o : Out) : Bool :=
  match o with
  | .next _ => true
  | .fault _ => false
  | .refused _ => false

/-- The bytes an ACCEPT step puts into the engine. -/
def sends (i : Instr) : Option (List Byte) := (nextOf (exec i State.reset)).txs

/-- A state whose next step is the DESEL step at `p`, with `rx` captured. -/
def last (p : Pc) (rx : List Byte) : State :=
  { State.reset with
    pc := p, cs := true, rx := some rx, txs := some [0x10#8, 0x24#8], txfrom := some 2, txpos := some 2 }

/-- `last` at Q_WO with both pointers read. -/
def full (p : DivergencePolicy) (ro wo : Word) : State :=
  { last .qwo (le4 wo) with cfg := { Config.tc with policy := p }, roL := some ro, attempts := some 0#16 }

/-- An idle block with one request and the environment's answers. -/
def asked (r : Request) (d : List Byte) : State :=
  { State.reset with reqs := [r], draws := d.map some }

/-- A transaction in flight at `p` with one byte of three exchanged. -/
def flying (p : Pc) : State :=
  { State.reset with
    pc := p, cs := true, rx := some [], txs := some [0x44#8, 0x00#8, 0x00#8], txfrom := some 3,
    txpos := some 1 }

/-- An idle block with one request and the chip's pointers known. -/
def stillChip (r : Request) (ro wo : Word) : State :=
  { asked r [] with
    mem := ((chipInit Config.tc).writeBytes 0x1024E4 (le4 ro)).writeBytes 0x1024E8 (le4 wo) }

/-- A text command in flight: two words, the first being enqueued. -/
def text (s : State) : State :=
  { s with
    words := some [0x11111111#32, 0x4241#32], widx := some 0#17, ndeliv := some 0#16,
    ngaveup := some 0#16, attempts := some 0#16 }

theorem last_atDesel (p : Pc) (rx : List Byte) : atDesel p rx (last p rx) :=
  ⟨rfl, rfl, rfl, _, rfl, rfl⟩

theorem asked_offered (r : Request) (d : List Byte) : offered r d (asked r d) :=
  ⟨rfl, rfl, rfl, rfl, rfl, List.prefix_refl _⟩

/-! ## Ill-formed terms (R60, R84) -/

theorem ill_wrb {bs : List Byte} (h : ¬ bs.length < 2 ^ 32) :
    Instr.illFormed (.wrb 0#24 bs) = some .oversizeWrb ∧
      exec (.wrb 0#24 bs) State.reset = .next (refuse State.reset) := by
  have hf : wrbFits bs = false := decide_eq_false h
  simp [Instr.illFormed, exec, execWrb, hf, show State.reset.pc = .idle from rfl]

theorem ill_text {ws : List Word} {bs : List Byte} (h : ¬ ws.length + packLen bs.length ≤ 65535) :
    Instr.illFormed (.textcmd ws bs) = some .oversizeText ∧
      exec (.textcmd ws bs) State.reset = .next (refuse State.reset) := by
  have hf : textFits ws bs = false := decide_eq_false h
  simp [Instr.illFormed, exec, execTextcmd, hf, show State.reset.pc = .idle from rfl]

theorem ill_wireWrite {bs : List Byte} (h : ¬ bs.length < 2 ^ 32) :
    Instr.illFormed (.wireWrite 0#22 bs) = some .oversizeWireWrite := by
  exact if_neg h

/-- A WRB of 2^32 bytes is ill-formed, and refused at ACCEPT. -/
theorem test_ill_formed_wrb :
    Instr.illFormed (.wrb 0#24 (List.replicate (2 ^ 32) 0#8)) = some .oversizeWrb ∧
      exec (.wrb 0#24 (List.replicate (2 ^ 32) 0#8)) State.reset = .next (refuse State.reset) :=
  ill_wrb (by rw [List.length_replicate]; exact Nat.lt_irrefl _)

/-- A TEXTCMD of 65536 words is ill-formed, and refused at ACCEPT (2.7). -/
theorem test_ill_formed_text :
    Instr.illFormed (.textcmd (List.replicate 65535 0#32) [0x41#8]) = some .oversizeText ∧
      exec (.textcmd (List.replicate 65535 0#32) [0x41#8]) State.reset = .next (refuse State.reset) :=
  ill_text (by rw [List.length_replicate]; decide)

theorem test_ill_formed_wire_read :
    Instr.illFormed (.wireRead 0#22 (2 ^ 32)) = some .oversizeWireRead := by
  simp [Instr.illFormed]

theorem test_ill_formed_wire_write :
    Instr.illFormed (.wireWrite 0#22 (List.replicate (2 ^ 32) 0#8)) = some .oversizeWireWrite :=
  ill_wireWrite (by rw [List.length_replicate]; exact Nat.lt_irrefl _)

theorem test_well_formed_boundary : Instr.wf (.textcmd [] [0x41#8]) = true := by decide

/-! ## Words of each family, written out from R80, R81 and R71 to R77 -/

theorem test_decode_rdb : decodeRequest ⟨0x0112ABCD00000002#64, [], []⟩ = .ok (.rdb 0x12ABCD#24 2#32) := rfl

theorem test_decode_wrb :
    decodeRequest ⟨0x0212ABCD00000000#64, [0x01#8, 0x02#8], []⟩ =
      .ok (.wrb 0x12ABCD#24 [0x01#8, 0x02#8]) := rfl

theorem test_decode_rd8 : decodeRequest ⟨0x0300001000000000#64, [], []⟩ = .ok (.rd8 0x000010#24) := rfl

theorem test_decode_rd16 : decodeRequest ⟨0x0400010000000000#64, [], []⟩ = .ok (.rd16 0x000100#24) := rfl

theorem test_decode_rd32 : decodeRequest ⟨0x051024E400000000#64, [], []⟩ = .ok (.rd32 0x1024E4#24) := rfl

theorem test_decode_wr8 : decodeRequest ⟨0x06000010000001FF#64, [], []⟩ = .ok (.wr8 0x000010#24 0xFF#8) := rfl

theorem test_decode_wr16 :
    decodeRequest ⟨0x07000100ABCD1234#64, [], []⟩ = .ok (.wr16 0x000100#24 0x1234#16) := rfl

theorem test_decode_wr32 :
    decodeRequest ⟨0x0812ABCDDEADBEEF#64, [], []⟩ = .ok (.wr32 0x12ABCD#24 0xDEADBEEF#32) := rfl

theorem test_decode_hostcmd : decodeRequest ⟨0x0900000000000044#64, [], []⟩ = .ok (.hostcmd 0x44#8) := rfl

theorem test_decode_wake : decodeRequest ⟨0x0A00000000000000#64, [], []⟩ = .ok .wake := rfl

theorem test_decode_chkid : decodeRequest ⟨0x0B00000000000000#64, [], []⟩ = .ok .chkid := rfl

theorem test_decode_tryenq :
    decodeRequest ⟨0x10000000CAFEF00D#64, [], []⟩ = .ok (.tryenq 0xCAFEF00D#32) := rfl

theorem test_decode_enq : decodeRequest ⟨0x11000000FFFFFF00#64, [], []⟩ = .ok (.enq 0xFFFFFF00#32) := rfl

theorem test_decode_idle : decodeRequest ⟨0x1200000000000000#64, [], []⟩ = .ok .idle := rfl

theorem test_decode_pack : decodeRequest ⟨0x2000000000000000#64, [0x41#8], []⟩ = .ok (.pack [0x41#8]) := rfl

theorem test_decode_textcmd :
    decodeRequest ⟨0x2100000000000000#64, [0x41#8], [0xAAAAAAAA#32]⟩ =
      .ok (.textcmd [0xAAAAAAAA#32] [0x41#8]) := rfl

/-- R84: reserved operation codes beside the assigned ones. -/
theorem test_decode_reserved :
    decodeRequest ⟨0x0000000000000000#64, [], []⟩ = .error (.reservedOp 0x00#8) ∧
    decodeRequest ⟨0x0C00000000000000#64, [], []⟩ = .error (.reservedOp 0x0C#8) ∧
    decodeRequest ⟨0x1300000000000000#64, [], []⟩ = .error (.reservedOp 0x13#8) ∧
    decodeRequest ⟨0x2200000000000000#64, [], []⟩ = .error (.reservedOp 0x22#8) ∧
    decodeRequest ⟨0xFF00000000000000#64, [], []⟩ = .error (.reservedOp 0xFF#8) := ⟨rfl, rfl, rfl, rfl, rfl⟩

theorem test_decode_wire_read :
    decodeWire [0x10#8, 0x24#8, 0xE4#8, 0x00#8, 0x00#8] = .ok (.wireRead 0x1024E4#22 1) := rfl

theorem test_decode_wire_write :
    decodeWire [0x90#8, 0x24#8, 0xE8#8, 0x04#8] = .ok (.wireWrite 0x1024E8#22 [0x04#8]) := rfl

theorem test_decode_wire_hostcmd : decodeWire [0x44#8, 0x00#8, 0x00#8] = .ok (.wireHostcmd 0x04#6) := rfl

theorem test_decode_wire_m11 : decodeWire [0xFF#8, 0x00#8, 0x00#8] = .ok (.wireHostcmdM11 0x3F#6) := rfl

/-- R78: a wake and a read of address 0 differ in length only. -/
theorem test_decode_wire_wake :
    decodeWire [0x00#8, 0x00#8, 0x00#8] = .ok .wireWake ∧
    decodeWire [0x00#8, 0x00#8, 0x00#8, 0x00#8] = .ok (.wireRead 0x000000#22 0) := ⟨rfl, rfl⟩

/-- R73, R75: bytes that are no transaction. -/
theorem test_decode_wire_refused :
    decodeWire [0x10#8, 0x24#8] = .error .shortTransaction ∧
    decodeWire [0x10#8, 0x24#8, 0xE4#8] = .error .shortRead ∧
    decodeWire [0x10#8, 0x24#8, 0xE4#8, 0x01#8] = .error .readSendsData ∧
    decodeWire [0x44#8, 0x00#8, 0x01#8] = .error .hostcmdShape ∧
    decodeWire [0xC0#8, 0x00#8, 0x00#8, 0x00#8] = .error .hostcmdShape := ⟨rfl, rfl, rfl, rfl, rfl⟩

/-! ## What each operation sends (2.1, 2.2, S9 to S12) -/

theorem test_sends_rdb :
    sends (.rdb 0x12ABCD#24 2#32) = some [0x12#8, 0xAB#8, 0xCD#8, 0x00#8, 0x00#8, 0x00#8] := by decide

theorem test_sends_rdb_nothing :
    sends (.rdb 0x000010#24 0#32) = some [0x00#8, 0x00#8, 0x10#8, 0x00#8] := by decide

theorem test_sends_rd8_dropped_bits :
    sends (.rd8 0xD02400#24) = some [0x10#8, 0x24#8, 0x00#8, 0x00#8, 0x00#8] := by decide

theorem test_sends_rd16 :
    sends (.rd16 0x000100#24) = some [0x00#8, 0x01#8, 0x00#8, 0x00#8, 0x00#8, 0x00#8] := by decide

theorem test_sends_wrb : sends (.wrb 0x400000#24 []) = some [0x80#8, 0x00#8, 0x00#8] := by decide

theorem test_sends_wr8 : sends (.wr8 0x3FFFFF#24 0xFF#8) = some [0xBF#8, 0xFF#8, 0xFF#8, 0xFF#8] := by decide

theorem test_sends_wr16 :
    sends (.wr16 0x000100#24 0x1234#16) = some [0x80#8, 0x01#8, 0x00#8, 0x34#8, 0x12#8] := by decide

theorem test_sends_wr32 :
    sends (.wr32 0x12ABCD#24 0xDEADBEEF#32) =
      some [0x92#8, 0xAB#8, 0xCD#8, 0xEF#8, 0xBE#8, 0xAD#8, 0xDE#8] := by decide

theorem test_sends_hostcmd :
    sends (.hostcmd 0x00#8) = some [0x40#8, 0x00#8, 0x00#8] ∧
    sends (.hostcmd 0x80#8) = some [0xC0#8, 0x00#8, 0x00#8] := by decide

theorem test_sends_wake : sends .wake = some [0x00#8, 0x00#8, 0x00#8] := by decide

theorem test_sends_chkid : sends .chkid = some [0x10#8, 0x24#8, 0x00#8, 0x00#8, 0x00#8] := by decide

theorem test_sends_pointer_read :
    sends (.tryenq 0#32) = some [0x10#8, 0x24#8, 0xE4#8, 0x00#8, 0x00#8, 0x00#8, 0x00#8, 0x00#8] ∧
    sends (.enq 0#32) = sends (.tryenq 0#32) ∧ sends .idle = sends (.tryenq 0#32) ∧
    sends (.textcmd [] [0x41#8]) = sends (.tryenq 0#32) := by decide

theorem test_sends_wire_rows :
    sends (.wireRead 0x3FFFFF#22 0) = some [0x3F#8, 0xFF#8, 0xFF#8, 0x00#8] ∧
    sends (.wireWrite 0x108000#22 [0x0D#8]) = some [0x90#8, 0x80#8, 0x00#8, 0x0D#8] ∧
    sends (.wireHostcmd 0x3F#6) = some [0x7F#8, 0x00#8, 0x00#8] ∧
    sends (.wireHostcmdM11 0x00#6) = some [0xC0#8, 0x00#8, 0x00#8] ∧
    sends .wireWake = some [0x00#8, 0x00#8, 0x00#8] := by decide

/-! ## Results (2.2) -/

/-- The last result after the DESEL step at F_X. -/
def gives (i : Instr) (rx : List Byte) : List Result := (nextOf (exec i (last .fx rx))).results

theorem test_result_rdb :
    gives (.rdb 0x12ABCD#24 2#32) [0x5A#8, 0xA5#8] = [⟨.done, 2#32, [0x5A#8, 0xA5#8], []⟩] := by decide

theorem test_result_wrb :
    gives (.wrb 0x12ABCD#24 [0x01#8, 0x02#8]) [] = [⟨.done, 2#32, [], []⟩] := by decide

theorem test_result_rd8 : gives (.rd8 0x10#24) [0x80#8] = [⟨.done, 0x00000080#32, [], []⟩] := by decide

theorem test_result_rd16 :
    gives (.rd16 0x100#24) [0x34#8, 0x12#8] = [⟨.done, 0x00001234#32, [], []⟩] := by decide

theorem test_result_rd32 :
    gives (.rd32 0x1024E4#24) [0x78#8, 0x56#8, 0x34#8, 0x12#8] = [⟨.done, 0x12345678#32, [], []⟩] := by decide

theorem test_result_chkid :
    gives .chkid [0x7C#8] = [⟨.done, 0x0000017C#32, [], []⟩] ∧
    gives .chkid [0x7D#8] = [⟨.done, 0x0000007D#32, [], []⟩] ∧
    gives .chkid [0xFF#8] = [⟨.done, 0x000000FF#32, [], []⟩] := by decide

theorem test_result_wr8 : gives (.wr8 0x10#24 0xFF#8) [] = [⟨.done, 0#32, [], []⟩] := by decide

theorem test_result_hostcmd :
    gives (.hostcmd 0x44#8) [] = [⟨.done, 0#32, [], []⟩] ∧ gives .wake [] = [⟨.done, 0#32, [], []⟩] := by decide

/-! ## The ring controller (2.3, 2.4, 2.5) -/

/-- What one attempt decides: the results, the fault register, `pc` and the bytes of the next transaction. -/
def decides (i : Instr) (s : State) : List Result × BitVec 4 × Pc × Option (List Byte) :=
  let t := nextOf (exec i s)
  (t.results, t.fault, t.pc, t.txs)

theorem test_tryenq_occ_4091 :
    decides (.tryenq 0xCAFEF00D#32) (full .fault 0x5#32 0x1000#32) =
      ([], 0#4, .qww, some [0x90#8, 0x80#8, 0x00#8, 0x0D#8, 0xF0#8, 0xFE#8, 0xCA#8]) := by decide

theorem test_tryenq_occ_4092 :
    (nextOf (exec (.tryenq 0xCAFEF00D#32) (full .fault 0x4#32 0x1000#32))).results =
      [⟨.rejected, 0x1000#32, [], []⟩] := by decide

theorem test_attempt_occ_4097 :
    (decides (.tryenq 1#32) (full .fault 0xFFFFFFFF#32 0x1000#32)).1 = [⟨.faulted, 0#32, [], []⟩] ∧
    (decides (.tryenq 1#32) (full .fault 0xFFFFFFFF#32 0x1000#32)).2.1 = 0b0010#4 ∧
    (decides (.tryenq 1#32) (full .reject 0xFFFFFFFF#32 0x1000#32)).1 = [⟨.rejected, 0x1000#32, [], []⟩] ∧
    (decides (.tryenq 1#32) (full .wrap32 0xFFFFFFFF#32 0x1000#32)).2.2.1 = .qww := by decide

theorem test_attempt_wraps :
    (decides (.enq 0xCAFEF00D#32) (full .fault 0xFFFFFFF0#32 0xFFFFFFFC#32)).2.2.2 =
      some [0x90#8, 0x8F#8, 0xFC#8, 0x0D#8, 0xF0#8, 0xFE#8, 0xCA#8] := by decide

/-- The advanced pointer wraps to 0 (2.3). -/
theorem test_pointer_write_wraps :
    (nextOf (exec (.tryenq 0#32) { last .qww [] with woL := some 0xFFFFFFFC#32 })).txs =
      some [0x90#8, 0x24#8, 0xE8#8, 0x00#8, 0x00#8, 0x00#8, 0x00#8] := by decide

theorem test_tryenq_enqueued :
    (nextOf (exec (.tryenq 0#32) { last .qwp [] with woL := some 0x1000#32 })).results =
      [⟨.enqueued, 0x1004#32, [], []⟩] := by decide

/-- The budget's last attempt gives up, an earlier one retries (2.4). -/
theorem test_enq_gives_up :
    (nextOf (exec (.enq 0#32) { full .fault 0#32 0xFFC#32 with attempts := some 254#16 })).results =
      [⟨.gaveup, 255#32, [], []⟩] ∧
    (nextOf (exec (.enq 0#32) { full .fault 0#32 0xFFC#32 with attempts := some 253#16 })).pc = .qro := by decide

theorem test_enq_zero_budget :
    (nextOf (exec (.enq 0#32)
      { State.reset with cfg := { Config.tc with retryBudget := 0 } })).results = [⟨.gaveup, 0#32, [], []⟩] := by
  decide

theorem test_idle_raw_pointers :
    (nextOf (exec .idle { last .iwo (le4 0x1000#32) with roL := some 0#32 })).results =
      [⟨.done, 0#32, [], []⟩] ∧
    (nextOf (exec .idle { last .iwo (le4 0xFFFFFFFC#32) with roL := some 0xFFFFFFFC#32 })).results =
      [⟨.done, 1#32, [], []⟩] := by decide

/-! ## Payload (2.6, 2.7) -/

theorem test_pack_abcde :
    (nextOf (exec (.pack [0x41#8, 0x42#8, 0x43#8, 0x44#8, 0x45#8]) State.reset)).results =
      [⟨.done, 2#32, [], [0x44434241#32, 0x00000045#32]⟩] := by decide

theorem test_pack_empty :
    (nextOf (exec (.pack []) State.reset)).results = [⟨.done, 0#32, [], []⟩] := by decide

theorem test_textcmd_skipped :
    (nextOf (exec (.textcmd [0xAAAAAAAA#32] []) State.reset)).results = [⟨.skipped, 0#32, [], []⟩] := by decide

theorem test_textcmd_zero_budget :
    (nextOf (exec (.textcmd [0x00000001#32] [0x78#8, 0x79#8, 0x7A#8])
      { State.reset with cfg := { Config.tc with retryBudget := 0 } })).results =
      [⟨.gaveup, 0x00020000#32, [], []⟩] := by decide

/-! ## Wire transactions, refusals, faults and reset (2.8) -/

theorem test_wire_write_stores :
    (nextOf (exec (.wireWrite 0x108000#22 [0x0D#8])
      { last .fx [] with txs := txWrite 0x108000#24 [0x0D#8], txpos := some 3, txfrom := some 4 })).mem =
      [(0x108000, 0x0D#8)] := by decide

theorem test_wire_read_answers :
    (nextOf (exec (.wireRead 0x102400#22 1)
      { last .fx [] with
        txs := txRead 0x102400#24 1, txpos := some 4, txfrom := some 4, mem := chipInit Config.tc })).rx =
      some [0x7C#8] := by decide

theorem test_wire_hostcmd_ends :
    (nextOf (exec (.wireHostcmd 0x04#6) (last .fx []))).pc = .idle ∧
    (nextOf (exec (.wireHostcmdM11 0x3F#6) (last .fx []))).results = [] ∧
    (nextOf (exec .wireWake (last .fx []))).cs = false := by decide

theorem test_reserved_op_illegal :
    (nextOf (step (asked ⟨0#64, [], []⟩ []))).results = [⟨.illegal, 0#32, [], []⟩] ∧
    (nextOf (step (asked ⟨0#64, [], []⟩ []))).fault = 0b0001#4 ∧
    (nextOf (step (asked ⟨0#64, [], []⟩ []))).pc = .idle := by decide

theorem test_config_boundaries :
    configValid { Config.tc with cmdBufBase := 0x3FF000 } = true ∧
    configValid { Config.tc with cmdBufBase := 0x3FF001 } = false ∧
    configValid { Config.tc with regCmdWrite := 0x1024E4 } = false ∧
    configValid { Config.tc with retryBudget := 65535 } = true ∧
    configValid { Config.tc with retryBudget := 65536 } = false ∧
    configValid { Config.tc with policy := .unknown 3 } = false := by decide

theorem test_reset_invalid_config :
    (nextOf (step { State.reset with
      cfg := { Config.tc with retryBudget := 65536 }, sched := [.reset] })).fault = 0b0100#4 := by decide

/-- Reset in Q_WW after SEL and four exchanges emits DESEL and gives no result (2.8). -/
theorem test_reset_in_flight :
    (nextOf (step { last .qww [] with sched := [.reset] })).trace = [.desel] ∧
    (nextOf (step { last .qww [] with sched := [.reset] })).results = [] ∧
    (nextOf (step { last .qww [] with sched := [.reset] })).pc = .idle := by decide

/-- The result word (R86): status 0x5 of SKIPPED over a value. -/
theorem test_result_word : Result.word ⟨.skipped, 0#32, [], []⟩ = 0x500000000#36 := by decide

/-! ## Every row runs as the first instruction after reset -/

/-- The rows of spec/opcode_table.json, each by its match bits. -/
theorem test_rows_run :
    ([0x01, 0x02, 0x03, 0x04, 0x05, 0x06, 0x07, 0x08, 0x09, 0x0A, 0x0B, 0x10, 0x11, 0x12, 0x20, 0x21].all
      fun op => isNext (step (State.reset.withFetchWord 64 (op * 2 ^ 56)))) = true ∧
    ([0x000000, 0x400000, 0x800000, 0xC00000].all
      fun w => isNext (step (State.reset.withFetchWord 24 w))) = true := by decide

/-! ## The assembler (R87, R88) -/

theorem test_assemble_line :
    assembleLine Config.tc "WR16 0x000100, 0x1234 ; low byte first" =
      some [⟨0x0700010000001234#64, [], []⟩] := by decide

theorem test_assemble_text :
    assembleLine Config.tc "TEXTCMD [0xAAAAAAAA, 0x00100020], \"AB\\0\"" =
      some [⟨0x2100000000000000#64, [0x41#8, 0x42#8, 0x00#8], [0xAAAAAAAA#32, 0x00100020#32]⟩] := by decide

theorem test_assemble_cmd :
    assembleLine Config.tc "CMD 0xFFFFFF00, 7" =
      some [⟨0x11000000FFFFFF00#64, [], []⟩, ⟨0x1100000000000007#64, [], []⟩] := by decide

theorem test_assemble_name :
    assembleLine Config.tc "RD32 REG_CMD_READ_ADDR" = some [⟨0x051024E400000000#64, [], []⟩] := by decide

/-- The parameters the source fixes (R10), and one that is no number. -/
theorem test_assemble_parameters :
    assembleLine Config.tc "RDB CMD_BUF_BASE, RING_SIZE" = some [⟨0x0110800000001000#64, [], []⟩] ∧
    assembleLine Config.tc "ENQ DEVICE_ID_EXPECTED" = some [⟨0x110000000000007C#64, [], []⟩] ∧
    assembleLine Config.tc "ENQ DIVERGENCE_POLICY" = none := by decide

theorem test_assemble_backslash :
    assembleLine Config.tc "PACK \"A\\B\\0\"" =
      some [⟨0x2000000000000000#64, [0x41#8, 0x5C#8, 0x42#8, 0x00#8], []⟩] := by decide

/-! ## The chip's consumer (R65, R159) -/

/-- The state after a consuming turn. -/
def consumes (s : State) : State := agentTurn .consume s

/-- One to three bytes left are no word, four are one. -/
theorem test_consume_whole_words :
    consumes (stillChip ⟨0#64, [], []⟩ 1#32 4#32) = stillChip ⟨0#64, [], []⟩ 1#32 4#32 ∧
    chipRead (consumes (stillChip ⟨0#64, [], []⟩ 0#32 4#32)) = some 4#32 := by decide

/-- A pointer write of 0xFC to 0x100, after its first byte: the chip goes by 0xFC, which it has consumed. -/
theorem test_consume_mid_pointer_write :
    chipWrite { stillChip ⟨0#64, [], []⟩ 0xFC#32 0x00#32 with cs := true, woSeen := some 0xFC#32 } =
      some 0x00#32 ∧
    (consumes { stillChip ⟨0#64, [], []⟩ 0xFC#32 0x00#32 with
      cs := true, woSeen := some 0xFC#32 }).consumed = [] := by decide

/-- SEL notes the `write_offset` the chip goes by. -/
theorem test_select_notes_write_offset :
    (nextOf (exec (.tryenq 0#32) { stillChip ⟨0#64, [], []⟩ 0#32 8#32 with pc := .qro })).woSeen =
      some 8#32 := by decide

/-- A word that would run past the window end is unknown (N5). -/
theorem test_consume_past_window :
    (consumes (stillChip ⟨0#64, [], []⟩ 0xFFD#32 0x1001#32)).consumed = [none] := by decide

/-- A pointer write of 0x100 to 0x204 that reset cuts short after its first data byte leaves 0x104, and the
consumer goes by it (N6, I6: any value; log 26). -/
theorem test_reset_cuts_pointer_write :
    seenWrite (agentTurn .reset { stillChip ⟨0#64, [], []⟩ 0#32 0x104#32 with
      pc := .qwp, cs := true, woSeen := some 0x100#32 }) = some 0x104#32 := by decide

/-- With no pointer byte known a consuming turn does nothing (log 27). -/
theorem test_consume_unknown_pointers : consumes State.reset = State.reset := by decide

/-- A host write of 0 to a `read_offset` of 8 is no step of a monotone consumer (R159). -/
theorem test_monotone_bars_host_write :
    ¬ monotoneConsumer { stillChip ⟨0#64, [], []⟩ 8#32 16#32 with
      pc := .fx, cs := true, woSeen := some 16#32, wire := some (txWrite 0x1024E4#24 [0#8]),
      txs := some (txWrite 0x1024E4#24 [0#8]), txfrom := some 4, txpos := some 3, rx := some [] } :=
  fun h => absurd (h _ 8#32 0#32 16#32 rfl (by decide) (by decide) (by decide)) (by decide)

/-- A read of `write_offset` with its first data byte received is in the middle of the register, with its
fourth it is past it (R158). -/
theorem test_mid_read :
    midRead 0x1024E8 { last .qwo [] with txs := txRead 0x1024E8#24 4, txpos := some 5 } ∧
    midRead 0x1024E8 { last .qwo [] with txs := txRead 0x1024E8#24 4, txpos := some 7 } ∧
    ¬ midRead 0x1024E8 { last .qwo [] with txs := txRead 0x1024E8#24 4, txpos := some 8 } := by
  refine ⟨⟨rfl, _, _, rfl, rfl, ?_⟩, ⟨rfl, _, _, rfl, rfl, ?_⟩, ?_⟩
  · decide
  · decide
  · rintro ⟨-, b, i, hb, hi, -, -, -, -, h⟩
    cases hb
    cases hi
    exact absurd h (by decide)

/-- The 32-bit latches of the engine (R25). -/
theorem test_engine_latches : (flying .fx).txi = some 1#32 ∧ (flying .fx).txcap = some 3#32 := by decide

/-! ## Witnesses: states and operands that meet the hypotheses of each statement, clause by clause -/

/-- The step answers some next state. -/
theorem next_of {o : Out} (h : isNext o = true) : o = .next (nextOf o) := by
  cases o with
  | next t => rfl
  | fault f => cases h
  | refused r => cases h

theorem reset_inv : Inv State.reset :=
  ⟨fun _ => by decide, by decide, by decide, by decide, by decide⟩

theorem witness_EveryRequestWordHasOneReading :
    reqOp 0x0B00000000000000#64 ∈ allOps ∧ reqOp 0x2100000000000000#64 ∈ allOps ∧
      reqOp 0x0C00000000000000#64 ∉ allOps ∧
      ∀ op ∈ allOps, reqOp (reqWord op 0x12ABCD#24 0xDEADBEEF#32) = op := by decide

theorem witness_UpperAddressBitsNeverReachTheBus :
    (0xD02400#24).setWidth 22 = (0x102400#24).setWidth 22 ∧ 0xD02400#24 ≠ 0x102400#24 := by decide

/-- The boundaries of the four ranges (2.3, S1, S2). -/
theorem witness_OccupancyDecidesAcceptance :
    (0#32).toNat ≤ 4091 ∧ (4091#32).toNat ≤ 4091 ∧ freeOf .fault 4091#32 = some 5#32 ∧
      accepts 5#32 = true ∧ 4092 ≤ (4092#32).toNat ∧ freeOf .fault 4092#32 = some 4#32 ∧
      accepts 4#32 = false ∧ (4096#32).toNat ≤ 4096 ∧ freeOf .wrap32 4096#32 = some 0#32 ∧
      4097 ≤ (4097#32).toNat ∧ freeOf .fault 4097#32 = none ∧ freeOf .reject 4097#32 = some 0#32 ∧
      freeOf .wrap32 4097#32 = some 0xFFFFFFFF#32 := by decide

theorem witness_AcceptedWordKeepsHeadroom :
    (occupied 0x1000#32 0x5#32).toNat ≤ 4091 ∧
      (occupied 0x1000#32 0xFF0#32).toNat ≤ (occupied 0x1000#32 0x5#32).toNat := by decide

theorem witness_RingAddressStaysInWindow :
    configValid Config.tc = true ∧ configValid { Config.tc with cmdBufBase := 0x3FF000 } = true := by decide

theorem witness_FramingOperationsAccept : State.reset.pc = .idle ∧ ([] : List Byte).length < 2 ^ 32 := by
  decide

theorem witness_RequestsMoveOneByteAStep :
    ((Instr.isFraming .wake = true ∧ (flying .fx).pc = .fx) ∧
      ((flying .qro).pc ∈ [Pc.qro, .qwo, .qww, .qwp] ∧ (flying .qwp).pc ∈ [Pc.qro, .qwo, .qww, .qwp]) ∧
      (flying .iro).pc ∈ [Pc.iro, .iwo]) ∧
    { flying .fx with cs := false }.cs = false ∧ (flying .fx).cs = true ∧
      (flying .fx).txs = some [0x44#8, 0x00#8, 0x00#8] ∧ (flying .fx).txpos = some 1 ∧
      (flying .fx).txfrom = some 3 ∧ (flying .fx).rx = some [] ∧
      ([0x44#8, 0x00#8, 0x00#8] : List Byte)[1]? = some 0x00#8 ∧
      (txWrite 0x108000#24 [0x0D#8])[3]? = some 0x0D#8 ∧
      chipStore [] ((txWrite 0x108000#24 [0x0D#8]).take 3) 0x0D#8 = [(0x108000, 0x0D#8)] := by decide

theorem witness_FramingOperationsDeliver :
    atDesel .fx [] (last .fx []) ∧ atDesel .fx [0x80#8] (last .fx [0x80#8]) ∧
      atDesel .fx [0x34#8, 0x12#8] (last .fx [0x34#8, 0x12#8]) ∧
      atDesel .fx [0x78#8, 0x56#8, 0x34#8, 0x12#8] (last .fx [0x78#8, 0x56#8, 0x34#8, 0x12#8]) ∧
      atDesel .fx [0x7C#8] (last .fx [0x7C#8]) ∧ (0x80#8 : Byte) ≠ 0x7C#8 :=
  ⟨last_atDesel _ _, last_atDesel _ _, last_atDesel _ _, last_atDesel _ _, last_atDesel _ _, by decide⟩

/-- A count of 0 and a count of 2. -/
theorem witness_RdbServesEveryCount :
    (decodeRequest ⟨0x0100001000000000#64, [], []⟩ = .ok (.rdb 0x10#24 0#32) ∧
      offered ⟨0x0100001000000000#64, [], []⟩ [1#8, 2#8, 3#8, 4#8]
        (asked ⟨0x0100001000000000#64, [], []⟩ [1#8, 2#8, 3#8, 4#8])) ∧
    (decodeRequest ⟨0x0112ABCD00000002#64, [], []⟩ = .ok (.rdb 0x12ABCD#24 2#32) ∧
      offered ⟨0x0112ABCD00000002#64, [], []⟩ [1#8, 2#8, 3#8, 4#8, 0x5A#8, 0xA5#8]
        (asked ⟨0x0112ABCD00000002#64, [], []⟩ [1#8, 2#8, 3#8, 4#8, 0x5A#8, 0xA5#8])) :=
  ⟨⟨rfl, asked_offered _ _⟩, ⟨rfl, asked_offered _ _⟩⟩

/-- No bytes and two bytes. -/
theorem witness_WrbServesEveryList :
    (decodeRequest ⟨0x0200001000000000#64, [], []⟩ = .ok (.wrb 0x10#24 []) ∧
      offered ⟨0x0200001000000000#64, [], []⟩ [1#8, 2#8, 3#8]
        (asked ⟨0x0200001000000000#64, [], []⟩ [1#8, 2#8, 3#8])) ∧
    (decodeRequest ⟨0x0200001000000000#64, [7#8, 8#8], []⟩ = .ok (.wrb 0x10#24 [7#8, 8#8]) ∧
      offered ⟨0x0200001000000000#64, [7#8, 8#8], []⟩ [1#8, 2#8, 3#8, 4#8, 5#8]
        (asked ⟨0x0200001000000000#64, [7#8, 8#8], []⟩ [1#8, 2#8, 3#8, 4#8, 5#8])) :=
  ⟨⟨rfl, asked_offered _ _⟩, ⟨rfl, asked_offered _ _⟩⟩

theorem witness_RegisterOperationsServed (d : List Byte) :
    (decodeRequest ⟨0x0300001000000000#64, [], []⟩ = .ok (.rd8 0x10#24) ∧
      offered ⟨0x0300001000000000#64, [], []⟩ d (asked ⟨0x0300001000000000#64, [], []⟩ d)) ∧
    (decodeRequest ⟨0x0400001000000000#64, [], []⟩ = .ok (.rd16 0x10#24) ∧
      offered ⟨0x0400001000000000#64, [], []⟩ d (asked ⟨0x0400001000000000#64, [], []⟩ d)) ∧
    (decodeRequest ⟨0x0500001000000000#64, [], []⟩ = .ok (.rd32 0x10#24) ∧
      offered ⟨0x0500001000000000#64, [], []⟩ d (asked ⟨0x0500001000000000#64, [], []⟩ d)) ∧
    (decodeRequest ⟨0x0B00000000000000#64, [], []⟩ = .ok .chkid ∧
      offered ⟨0x0B00000000000000#64, [], []⟩ d (asked ⟨0x0B00000000000000#64, [], []⟩ d)) ∧
    (decodeRequest ⟨0x0600001000000001#64, [], []⟩ = .ok (.wr8 0x10#24 1#8) ∧
      offered ⟨0x0600001000000001#64, [], []⟩ d (asked ⟨0x0600001000000001#64, [], []⟩ d)) ∧
    (decodeRequest ⟨0x0700001000000001#64, [], []⟩ = .ok (.wr16 0x10#24 1#16) ∧
      offered ⟨0x0700001000000001#64, [], []⟩ d (asked ⟨0x0700001000000001#64, [], []⟩ d)) ∧
    (decodeRequest ⟨0x0800001000000001#64, [], []⟩ = .ok (.wr32 0x10#24 1#32) ∧
      offered ⟨0x0800001000000001#64, [], []⟩ d (asked ⟨0x0800001000000001#64, [], []⟩ d)) ∧
    (decodeRequest ⟨0x0900000000000044#64, [], []⟩ = .ok (.hostcmd 0x44#8) ∧
      offered ⟨0x0900000000000044#64, [], []⟩ d (asked ⟨0x0900000000000044#64, [], []⟩ d)) ∧
    (decodeRequest ⟨0x0A00000000000000#64, [], []⟩ = .ok .wake ∧
      offered ⟨0x0A00000000000000#64, [], []⟩ d (asked ⟨0x0A00000000000000#64, [], []⟩ d)) := by
  refine ⟨⟨rfl, ?_⟩, ⟨rfl, ?_⟩, ⟨rfl, ?_⟩, ⟨rfl, ?_⟩, ⟨rfl, ?_⟩, ⟨rfl, ?_⟩, ⟨rfl, ?_⟩, ⟨rfl, ?_⟩, ⟨rfl, ?_⟩⟩ <;>
    exact asked_offered _ _

theorem witness_IllegalRequestsRefused :
    offered ⟨0x2200000000000000#64, [], []⟩ [] (asked ⟨0x2200000000000000#64, [], []⟩ []) ∧
      reqOp 0x2200000000000000#64 ∉ allOps ∧ State.reset.pc = .idle ∧
      2 ^ 32 ≤ (List.replicate (2 ^ 32) (0x00#8 : Byte)).length ∧
      65535 < (List.replicate 65535 (0#32 : Word)).length + (([0x41#8] : List Byte).length + 3) / 4 :=
  ⟨asked_offered _ _, by decide, rfl, Nat.le_of_eq List.length_replicate.symm,
    by rw [List.length_replicate]; decide⟩

/-- An ACCEPT step and an exchange. -/
theorem witness_FramingFrame :
    exec (.rd8 0x10#24) State.reset = .next (nextOf (exec (.rd8 0x10#24) State.reset)) ∧
      exec (.hostcmd 0x44#8) (flying .fx) = .next (nextOf (exec (.hostcmd 0x44#8) (flying .fx))) :=
  ⟨next_of (by decide), next_of (by decide)⟩

theorem witness_RingOperationsAccept :
    State.reset.pc = .idle ∧ State.reset.cfg.retryBudget ≠ 0 ∧
      { State.reset with cfg := { Config.tc with retryBudget := 0 } }.cfg.retryBudget = 0 := by decide

theorem witness_AttemptLatchesReadOffset :
    atDesel .qro [4#8, 0#8, 0#8, 0#8] (last .qro [4#8, 0#8, 0#8, 0#8]) := last_atDesel _ _

theorem full_atDesel (p : DivergencePolicy) (ro wo : Word) : atDesel .qwo (le4 wo) (full p ro wo) :=
  ⟨rfl, rfl, rfl, _, rfl, rfl⟩

/-- Occupancy 0 and 4091, and the current word of a text command. -/
theorem witness_RoomyAttemptWritesTheWord :
    (atDesel .qwo (le4 0#32) (full .fault 0#32 0#32) ∧ ((0#32 : Word) - 0#32).toNat ≤ 4091) ∧
    (atDesel .qwo (le4 0x1000#32) (text (full .fault 0x5#32 0x1000#32)) ∧
      (text (full .fault 0x5#32 0x1000#32)).roL = some 0x5#32 ∧ leWord (le4 0x1000#32) = 0x1000#32 ∧
      ((0x1000#32 : Word) - 0x5#32).toNat ≤ 4091 ∧
      ([0x11111111#32, 0x4241#32] : List Word)[(0#17).toNat]? = some 0x11111111#32) :=
  ⟨⟨full_atDesel _ _ _, by decide⟩, ⟨rfl, rfl, rfl, _, rfl, rfl⟩, rfl, by decide, by decide, by decide⟩

/-- Occupancy 4092 and 4096. -/
theorem witness_FullRingRejectsTryenq :
    atDesel .qwo (le4 0x1000#32) (full .fault 0x4#32 0x1000#32) ∧ leWord (le4 0x1000#32) = 0x1000#32 ∧
      (full .fault 0x4#32 0x1000#32).roL = some 0x4#32 ∧
      4092 ≤ ((0x1000#32 : Word) - 0x4#32).toNat ∧ ((0x1000#32 : Word) - 0x0#32).toNat ≤ 4096 :=
  ⟨full_atDesel _ _ _, by decide, rfl, by decide, by decide⟩

/-- Occupancy 4097. -/
theorem witness_DivergedPointersEnterFault :
    atDesel .qwo (le4 0x1000#32) (full .fault 0xFFFFFFFF#32 0x1000#32) ∧
      (full .fault 0xFFFFFFFF#32 0x1000#32).roL = some 0xFFFFFFFF#32 ∧
      leWord (le4 0x1000#32) = 0x1000#32 ∧ 4097 ≤ ((0x1000#32 : Word) - 0xFFFFFFFF#32).toNat ∧
      (full .fault 0xFFFFFFFF#32 0x1000#32).cfg.policy = .fault :=
  ⟨full_atDesel _ _ _, rfl, by decide, by decide, rfl⟩

theorem witness_OtherPoliciesOnDivergence :
    (atDesel .qwo (le4 0x1000#32) (full .reject 0xFFFFFFFF#32 0x1000#32) ∧
      (full .reject 0xFFFFFFFF#32 0x1000#32).cfg.policy = .reject) ∧
    (atDesel .qwo (le4 0x1000#32) (full .wrap32 0xFFFFFFFF#32 0x1000#32) ∧
      (full .wrap32 0xFFFFFFFF#32 0x1000#32).cfg.policy = .wrap32) ∧
    (atDesel .qwo (le4 0x1000#32) (text (full .wrap32 0xFFFFFFFF#32 0x1000#32)) ∧
      (text (full .wrap32 0xFFFFFFFF#32 0x1000#32)).words = some [0x11111111#32, 0x4241#32] ∧
      (text (full .wrap32 0xFFFFFFFF#32 0x1000#32)).widx = some 0#17 ∧
      ([0x11111111#32, 0x4241#32] : List Word)[(0#17).toNat]? = some 0x11111111#32) ∧
    leWord (le4 0x1000#32) = 0x1000#32 ∧ 4097 ≤ ((0x1000#32 : Word) - 0xFFFFFFFF#32).toNat :=
  ⟨⟨full_atDesel _ _ _, rfl⟩, ⟨full_atDesel _ _ _, rfl⟩, ⟨⟨rfl, rfl, rfl, _, rfl, rfl⟩, rfl, rfl, by decide⟩,
    by decide, by decide⟩

theorem witness_PointerWriteFollowsWordWrite :
    atDesel .qww [] { last .qww [] with woL := some 0xFFFFFFFC#32 } ∧
      { last .qww [] with woL := some 0xFFFFFFFC#32 }.woL = some 0xFFFFFFFC#32 :=
  ⟨⟨rfl, rfl, rfl, _, rfl, rfl⟩, rfl⟩

theorem witness_AcceptedWordCompletes :
    atDesel .qwp [] { last .qwp [] with woL := some 4#32, attempts := some 0#16 } ∧
      { last .qwp [] with woL := some 4#32, attempts := some 0#16 }.woL = some 4#32 ∧
      { last .qwp [] with woL := some 4#32, attempts := some 0#16 }.attempts = some 0#16 :=
  ⟨⟨rfl, rfl, rfl, _, rfl, rfl⟩, rfl, rfl⟩

/-- The budget's last attempt and its first. -/
theorem witness_EnqRetriesUpToBudget :
    atDesel .qwo (le4 0xFFC#32) (full .fault 0#32 0xFFC#32) ∧ leWord (le4 0xFFC#32) = 0xFFC#32 ∧
      (full .fault 0#32 0xFFC#32).roL = some 0#32 ∧ (full .fault 0#32 0xFFC#32).attempts = some 0#16 ∧
      freeOf .fault ((0xFFC#32 : Word) - 0#32) = some 4#32 ∧ (4#32).toNat ≤ 4 ∧
      (254#16 + 1#16).toNat = Config.tc.retryBudget ∧ (0#16 + 1#16).toNat ≠ Config.tc.retryBudget :=
  ⟨full_atDesel _ _ _, by decide, rfl, rfl, by decide, by decide, by decide, by decide⟩

theorem witness_IdleComparesRawPointers :
    atDesel .iro [0#8, 0#8, 0#8, 0#8] (last .iro [0#8, 0#8, 0#8, 0#8]) ∧
      atDesel .iwo [0#8, 0x10#8, 0#8, 0#8] { last .iwo [0#8, 0x10#8, 0#8, 0#8] with roL := some 0#32 } ∧
      { last .iwo [0#8, 0x10#8, 0#8, 0#8] with roL := some 0#32 }.roL = some 0#32 :=
  ⟨last_atDesel _ _, ⟨rfl, rfl, rfl, _, rfl, rfl⟩, rfl⟩

/-- `TRYENQ 0xCAFEF00D` and `ENQ 1`. -/
def q10 : Request := ⟨0x10000000CAFEF00D#64, [], []⟩

def q11 : Request := ⟨0x1100000000000001#64, [], []⟩

theorem stillChip_offered (r : Request) (ro wo : Word) : offered r [] (stillChip r ro wo) :=
  ⟨rfl, rfl, rfl, rfl, rfl, List.nil_prefix⟩

theorem tc_apart : apart Config.tc :=
  ⟨.inl (by decide), .inl (by decide), .inl (by decide), by decide, by decide⟩

/-- Occupancy 4091 with an aligned `write_offset`, and 4092 and 4096. -/
theorem witness_TryenqOnAStillChip :
    decodeRequest q10 = .ok (.tryenq 0xCAFEF00D#32) ∧
      offered q10 [] (stillChip q10 5#32 0x1000#32) ∧ (stillChip q10 5#32 0x1000#32).draws = [] ∧
      configValid Config.tc = true ∧ apart Config.tc ∧
      chipRead (stillChip q10 5#32 0x1000#32) = some 5#32 ∧
      chipWrite (stillChip q10 5#32 0x1000#32) = some 0x1000#32 ∧
      ((0x1000#32 : Word) - 5#32).toNat ≤ 4091 ∧ (0x1000#32).toNat % 4 = 0 ∧
      4092 ≤ ((0x1000#32 : Word) - 4#32).toNat ∧ ((0x1000#32 : Word) - 0#32).toNat ≤ 4096 := by
  exact ⟨rfl, stillChip_offered _ _ _, rfl, by decide, tc_apart, by decide, by decide, by decide, by decide, by decide,
    by decide⟩

theorem witness_EnqGivesUpOnAFullStillChip :
    decodeRequest q11 = .ok (.enq 1#32) ∧
      offered q11 [] (stillChip q11 0#32 0x1000#32) ∧ (stillChip q11 0#32 0x1000#32).draws = [] ∧
      configValid Config.tc = true ∧ apart Config.tc ∧
      chipRead (stillChip q11 0#32 0x1000#32) = some 0#32 ∧
      chipWrite (stillChip q11 0#32 0x1000#32) = some 0x1000#32 ∧
      4092 ≤ ((0x1000#32 : Word) - 0#32).toNat ∧ ((0x1000#32 : Word) - 0#32).toNat ≤ 4096 ∧
      Config.tc.retryBudget ≠ 0 := by
  exact ⟨rfl, stillChip_offered _ _ _, rfl, by decide, tc_apart, by decide, by decide, by decide, by decide, by decide⟩

/-- An ACCEPT step of each operation named. -/
theorem witness_RingAndPayloadFrame :
    isNext (exec (.tryenq 1#32) State.reset) = true ∧ isNext (exec (.enq 1#32) State.reset) = true ∧
      isNext (exec .idle State.reset) = true ∧ isNext (exec (.pack []) State.reset) = true ∧
      isNext (exec (.textcmd [] [0x41#8]) State.reset) = true ∧
      isNext (exec (.tryenq 1#32) (full .fault 0#32 0xFFC#32)) = true := by decide

theorem witness_PackWordsLittleEndian : 0 < (([0x41#8] : List Byte).length + 3) / 4 := by decide

theorem witness_PackedBytesComeBack :
    ([0x41#8] : List Byte).length = ([0x41#8] : List Byte).length ∧ pack [0x41#8] = pack [0x41#8] := ⟨rfl, rfl⟩

theorem witness_PackCompletesAtOnce :
    State.reset.pc = .idle ∧ (([0x41#8] : List Byte).length + 3) / 4 < 2 ^ 32 := by decide

theorem witness_TextcmdAccepts :
    State.reset.pc = .idle ∧ ([] : List Word).length + (([] : List Byte).length + 3) / 4 ≤ 65535 ∧
      (List.replicate 65534 (0#32 : Word)).length + (([0x41#8] : List Byte).length + 3) / 4 ≤ 65535 ∧
      ([0x41#8] : List Byte) ≠ [] ∧ State.reset.cfg.retryBudget ≠ 0 :=
  ⟨rfl, by decide, by rw [List.length_replicate]; decide, by decide, by decide⟩

theorem witness_TextcmdWithZeroBudget :
    { State.reset with cfg := { Config.tc with retryBudget := 0 } }.pc = .idle ∧ ([0x41#8] : List Byte) ≠ [] ∧
      ([1#32] : List Word).length + (([0x41#8] : List Byte).length + 3) / 4 ≤ 65535 ∧
      { State.reset with cfg := { Config.tc with retryBudget := 0 } }.cfg.retryBudget = 0 := by decide

/-- The last word and one before it. -/
theorem witness_TextcmdCountsDeliveredWord :
    atDesel .qwp [] (text (last .qwp [])) ∧
      (text (last .qwp [])).words = some [0x11111111#32, 0x4241#32] ∧
      (text (last .qwp [])).widx = some 0#17 ∧ (text (last .qwp [])).ndeliv = some 0#16 ∧
      (text (last .qwp [])).ngaveup = some 0#16 ∧ (text (last .qwp [])).attempts = some 0#16 ∧
      (text (last .qwp [])).cfg.retryBudget ≠ 0 ∧
      (1#17 + 1#17).toNat = ([0x11111111#32, 0x4241#32] : List Word).length ∧
      (0#17 + 1#17).toNat < ([0x11111111#32, 0x4241#32] : List Word).length :=
  ⟨⟨rfl, rfl, rfl, _, rfl, rfl⟩, rfl, rfl, rfl, rfl, rfl, by decide, by decide, by decide⟩

theorem witness_TextcmdGivesUpWord :
    atDesel .qwo (le4 0xFFC#32) (text (full .fault 0#32 0xFFC#32)) ∧
      (text (full .fault 0#32 0xFFC#32)).roL = some 0#32 ∧ leWord (le4 0xFFC#32) = 0xFFC#32 ∧
      freeOf .fault ((0xFFC#32 : Word) - 0#32) = some 4#32 ∧ (4#32).toNat ≤ 4 ∧
      (text (full .fault 0#32 0xFFC#32)).words = some [0x11111111#32, 0x4241#32] ∧
      (text (full .fault 0#32 0xFFC#32)).attempts = some 0#16 ∧
      (text (full .fault 0#32 0xFFC#32)).cfg.retryBudget ≠ 0 ∧
      (0#16 + 1#16).toNat ≠ Config.tc.retryBudget ∧ (254#16 + 1#16).toNat = Config.tc.retryBudget ∧
      (1#17 + 1#17).toNat = ([0x11111111#32, 0x4241#32] : List Word).length ∧
      (0#17 + 1#17).toNat < ([0x11111111#32, 0x4241#32] : List Word).length ∧
      Config.tc.abortOnGaveup = false :=
  ⟨⟨rfl, rfl, rfl, _, rfl, rfl⟩, rfl, by decide, by decide, by decide, rfl, rfl, by decide, by decide,
    by decide, by decide, by decide, rfl⟩

theorem witness_TextcmdWordsAreFixed :
    ((text (flying .qro)).pc ≠ .idle ∧
      exec (.textcmd [] [0x41#8]) (text (flying .qro)) =
        .next (nextOf (exec (.textcmd [] [0x41#8]) (text (flying .qro))))) ∧
    (State.reset.pc = .idle ∧ ([0x41#8] : List Byte) ≠ [] ∧
      exec (.textcmd [] [0x41#8]) State.reset =
        .next (nextOf (exec (.textcmd [] [0x41#8]) State.reset))) :=
  ⟨⟨by decide, next_of (by decide)⟩, rfl, by decide, next_of (by decide)⟩

theorem witness_WireTransactionsRun :
    State.reset.pc = .idle ∧ State.reset.cs = false ∧ Instr.isWire .wireWake = true ∧
      (flying .fx).pc = .fx ∧ (flying .fx).cs = true ∧
      (flying .fx).txs = some [0x44#8, 0x00#8, 0x00#8] ∧ (flying .fx).txpos = some 1 ∧
      (flying .fx).txfrom = some 3 ∧ (flying .fx).rx = some [] ∧
      ([0x44#8, 0x00#8, 0x00#8] : List Byte)[1]? = some 0x00#8 ∧ atDesel .fx [] (last .fx []) :=
  ⟨rfl, rfl, rfl, rfl, rfl, rfl, rfl, rfl, rfl, rfl, last_atDesel _ _⟩

theorem witness_WireFrame :
    Instr.isWire .wireWake = true ∧
      exec .wireWake State.reset = .next (nextOf (exec .wireWake State.reset)) ∧
      exec (.wireHostcmd 4#6) (flying .fx) = .next (nextOf (exec (.wireHostcmd 4#6) (flying .fx))) :=
  ⟨rfl, next_of (by decide), next_of (by decide)⟩

theorem witness_RequestsRunTheirWireTransaction :
    Instr.isWire (.hostcmd 0x44#8) = false ∧ (flying .fx).pc ≠ .idle ∧ (flying .fx).pc ≠ .fault ∧
      (flying .fx).txs = some [0x44#8, 0x00#8, 0x00#8] ∧
      decodeWire [0x44#8, 0x00#8, 0x00#8] = .ok (.wireHostcmd 0x04#6) ∧
      exec (.hostcmd 0x44#8) (flying .fx) = .next (nextOf (exec (.hostcmd 0x44#8) (flying .fx))) :=
  ⟨rfl, by decide, by decide, rfl, rfl, next_of (by decide)⟩

/-- A valid configuration, and one beyond a boundary of each constraint of R10. -/
theorem witness_ResetChecksConfiguration :
    { last .qww [] with sched := [.reset] }.sched = [.reset] ∧
      (Config.tc.cmdBufBase + 4095 < 2 ^ 22 ∧ Config.tc.regCmdRead < 2 ^ 22 ∧
        Config.tc.regCmdWrite < 2 ^ 22 ∧ Config.tc.regId < 2 ^ 22 ∧ Config.tc.regTouchTag < 2 ^ 22 ∧
        Config.tc.regCmdRead ≠ Config.tc.regCmdWrite ∧ Config.tc.retryBudget ≤ 65535 ∧
        ∀ k, Config.tc.policy ≠ .unknown k) ∧
      ¬ (0x3FF001 + 4095 < 2 ^ 22) ∧ ¬ (65536 ≤ 65535) :=
  ⟨rfl, ⟨by decide, by decide, by decide, by decide, by decide, by decide, by decide, fun _ h => by cases h⟩,
    by decide, by decide⟩

theorem witness_ResetClearsBlockNotChip :
    { last .qww [] with sched := [.reset] }.sched = [.reset] ∧
      { last .qww [] with sched := [.reset] }.cs = true := ⟨rfl, rfl⟩

theorem witness_FaultLeftOnlyByReset :
    { State.reset with pc := .fault }.pc = .fault ∧ { State.reset with pc := .fault }.sched = [] ∧
      step { State.reset with pc := .fault, sched := [.take] } =
        .next { State.reset with pc := .fault } ∧
      ([.take] : List Turn).head? ≠ some .reset :=
  ⟨rfl, rfl, rfl, by decide⟩

theorem witness_FaultBitsAreSticky :
    isNext (step (asked ⟨0#64, [], []⟩ [])) = true ∧
      (asked ⟨0#64, [], []⟩ []).sched.head? ≠ some .reset ∧
      (asked ⟨0#64, [], []⟩ []).fault.getLsbD 3 = false := by decide

theorem witness_RequestsWaitTheirTurn :
    isNext (blockStep (asked ⟨0x0A00000000000000#64, [], []⟩ [])) = true ∧
      (asked ⟨0x0A00000000000000#64, [], []⟩ []).pc = .idle ∧
      (asked ⟨0x0A00000000000000#64, [], []⟩ []).wire = none ∧
      isNext (blockStep { State.reset with pc := .fault }) = true ∧
      { State.reset with pc := .fault }.pc ≠ .idle ∧
      isNext (blockStep { State.reset with wire := some txWake }) = true ∧
      { State.reset with wire := some txWake }.wire ≠ none ∧ ∀ r, Turn.consume ≠ .request r :=
  ⟨by decide, by decide, by decide, by decide, by decide, by decide, by decide, fun _ h => by cases h⟩

theorem witness_OneResultPerRequest :
    (asked ⟨0x2000000000000000#64, [], []⟩ []).wire = none ∧
      isNext (blockStep (asked ⟨0x2000000000000000#64, [], []⟩ [])) = true := by decide

theorem witness_StepRunsTheDecodedInstruction :
    ((asked ⟨0x0A00000000000000#64, [], []⟩ []).sched = [] ∧
      (asked ⟨0x0A00000000000000#64, [], []⟩ []).pc = .idle ∧
      (asked ⟨0x0A00000000000000#64, [], []⟩ []).wire = none ∧
      decodeRequest ⟨0x0A00000000000000#64, [], []⟩ = .ok .wake) ∧
    (latched { flying .fx with
        op := some 0x0A#8, addr := some 0#24, data := some 0#32, inbytes := some [], inwords := some [] } =
      true ∧ decodeRequest ⟨reqWord 0x0A#8 0#24 0#32, [], []⟩ = .ok .wake) ∧
    ({ State.reset with wire := some txWake }.wire = some txWake ∧ decodeWire txWake = .ok .wireWake) ∧
    { State.reset with sched := [.block] }.sched = [.block] ∧
    ({ State.reset with sched := [.consume] }.sched = [.consume] ∧ Turn.consume ≠ .block) :=
  ⟨⟨rfl, rfl, rfl, rfl⟩, ⟨rfl, rfl⟩, ⟨rfl, rfl⟩, rfl, rfl, by decide⟩

theorem witness_InvariantHoldsAtReset : configValid Config.tc = true := by decide

/-- An idle step and the ACCEPT step of a request, from states that meet the invariant. -/
theorem witness_EveryStepKeepsTheInvariant :
    Inv State.reset ∧ step State.reset = .next State.reset ∧
      Inv (asked ⟨0x1100000000000001#64, [], []⟩ []) ∧
      isNext (step (asked ⟨0x1100000000000001#64, [], []⟩ [])) = true :=
  ⟨reset_inv, rfl, ⟨fun _ => by decide, by decide, by decide, by decide, by decide⟩, by decide⟩

theorem witness_NoLatchIsReadBeforeItIsWritten : Inv State.reset := reset_inv

theorem witness_BusTraceStaysFramed :
    State.reset.wellFramed ∧ (flying .fx).cs = true ∧
      { flying .fx with trace := [.sel, .x 0x44#8 0#8] }.wellFramed ∧
      isNext (step State.reset) = true := ⟨rfl, rfl, rfl, by decide⟩

theorem witness_EngineHoldsOnlyWireRows :
    State.reset.engineRow ∧ (flying .fx).engineRow ∧ isNext (step State.reset) = true :=
  ⟨(by intro _ h; cases h), (by intro _ h; cases h; exact ⟨.wireHostcmd 4#6, rfl⟩), by decide⟩

theorem witness_EveryRequestCompletesWithinItsBound :
    Inv (asked ⟨0x1100000000000001#64, [], []⟩ []) ∧
      offered ⟨0x1100000000000001#64, [], []⟩ [] (asked ⟨0x1100000000000001#64, [], []⟩ []) ∧
      decodeRequest ⟨0x1100000000000001#64, [], []⟩ = .ok (.enq 1#32) :=
  ⟨⟨fun _ => by decide, by decide, by decide, by decide, by decide⟩, asked_offered _ _, rfl⟩

theorem witness_BlockSeesOnlyTheReceivedByte :
    (asked ⟨0x0A00000000000000#64, [], []⟩ [0x55#8]).draws = some 0x55#8 :: [] := rfl

/-- Occupancy 0, 3 and 4, the last position without a wrap, and a transaction in flight. -/
theorem witness_ChipConsumesInOrder :
    apart Config.tc ∧ chipRead (stillChip ⟨0#64, [], []⟩ 0#32 0#32) = some 0#32 ∧
      seenWrite (stillChip ⟨0#64, [], []⟩ 0#32 0#32) = some 0#32 ∧
      ((0#32 : Word) - 0#32).toNat < 4 ∧ ((4#32 : Word) - 1#32).toNat < 4 ∧
      chipRead (stillChip ⟨0#64, [], []⟩ 0xFFC#32 0x1000#32) = some 0xFFC#32 ∧
      seenWrite (stillChip ⟨0#64, [], []⟩ 0xFFC#32 0x1000#32) = some 0x1000#32 ∧
      4 ≤ ((0x1000#32 : Word) - 0xFFC#32).toNat ∧ (0xFFC#32).toNat % 4096 ≤ 4092 ∧
      seenWrite { stillChip ⟨0#64, [], []⟩ 0#32 0#32 with cs := true, woSeen := some 4#32 } = some 4#32 :=
  ⟨tc_apart, by decide, by decide, by decide, by decide, by decide, by decide, by decide, by decide, by decide⟩

end Sys2Proof.Tests
end

section
/-! SUPPORT. The block depends on the chip only through the received byte (spec/00_scope.md R17,
spec/60_exceptions.md R153): a computation is `Blind` when replacing the chip's side of the state, its memory
and the `write_offset` its consumer goes by (log 25), leaves every other part of the outcome alone. Every
computation of a step is blind as it stands; the exchange of a byte is where the next answer is fixed. -/
namespace Sys2Proof.Machine

/-! ## Outcomes that differ on the chip's side only -/

/-- The state with another chip memory and another `write_offset` seen by the chip's consumer. -/
def withChip (m : Memory) (w : Option Word) (s : State) : State := { s with mem := m, woSeen := w }

@[simp] theorem withChip_cfg (m : Memory) (w : Option Word) (s : State) : (withChip m w s).cfg = s.cfg := rfl
@[simp] theorem withChip_pc (m : Memory) (w : Option Word) (s : State) : (withChip m w s).pc = s.pc := rfl
@[simp] theorem withChip_cs (m : Memory) (w : Option Word) (s : State) : (withChip m w s).cs = s.cs := rfl
@[simp] theorem withChip_draws (m : Memory) (w : Option Word) (s : State) : (withChip m w s).draws = s.draws := rfl

/-- Two outcomes that the block cannot tell apart: the same stop, or next states that differ at most in chip
memory and in what the chip's consumer goes by (log 25). -/
def Alike : Out → Out → Prop
  | .next t, .next u => u = { t with mem := u.mem, woSeen := u.woSeen }
  | .fault f, .fault g => f = g
  | .refused f, .refused g => f = g
  | _, _ => False

/-- A computation that goes by nothing on the chip's side of the state. -/
def Blind (k : State → Out) : Prop := ∀ m w s, Alike (k s) (k (withChip m w s))

/-- A word source that goes by nothing on the chip's side of the state. -/
def BlindWord (word : State → (Word → Out) → Out) : Prop :=
  ∀ m w s k k', (∀ x, Alike (k x) (k' x)) → Alike (word s k) (word (withChip m w s) k')

/-- A latch read goes by the latch alone (R15, R26). -/
theorem alike_readLatch {α : Type} {l : Latch} {v : Option α} {k k' : α → Out}
    (h : ∀ a, Alike (k a) (k' a)) : Alike (readLatch l v k) (readLatch l v k') := by
  cases v with
  | none => exact rfl
  | some a => exact h a

/-! ## The computations of a step -/

theorem blind_tryenqOutcome (v : Verdict) : Blind (tryenqOutcome v) := by
  intro m w s
  refine alike_readLatch fun wo => ?_
  cases v with
  | enqueued => exact rfl
  | rejected => exact rfl

theorem blind_enqFinish (b : Bool) (n : BitVec 16) : Blind (enqFinish b n) := fun _ _ _ => rfl

theorem blind_retry {finish : Bool → BitVec 16 → State → Out} (hf : ∀ b n, Blind (finish b n))
    (v : Verdict) : Blind (retry finish v) := by
  intro m w s
  refine alike_readLatch fun n => ?_
  cases v with
  | enqueued => exact hf true _ m w _
  | rejected =>
    by_cases hb : (n + 1#16).toNat = s.cfg.retryBudget
    · simp only [withChip_cfg, hb, if_true]
      exact hf false _ m w _
    · simp only [withChip_cfg, hb, if_false]
      exact rfl

theorem blind_wordDone {again : State → Out} (ha : Blind again) (b : Bool) : Blind (wordDone again b) := by
  intro m w s
  refine alike_readLatch fun nd => alike_readLatch fun ng => alike_readLatch fun i =>
    alike_readLatch fun ws => ?_
  by_cases he : (i + 1#17).toNat = ws.length ∨ b = false ∧ s.cfg.abortOnGaveup = true
  · simp only [withChip_cfg, he, if_true]
    exact rfl
  · simp only [withChip_cfg, he, if_false]
    exact ha m w _

theorem blind_startWord (fuel : Nat) : Blind (startWord fuel) := by
  induction fuel with
  | zero => exact fun _ _ _ => rfl
  | succ n ih =>
    intro m w s
    by_cases hb : s.cfg.retryBudget = 0
    · simp only [startWord, withChip_cfg, hb, if_true]
      exact blind_wordDone ih false m w _
    · simp only [startWord, withChip_cfg, hb, if_false]
      exact rfl

theorem blind_nextWord : Blind nextWord := fun m w s => blind_startWord (wordsLeft s) m w s

theorem blindWord_const (x : Word) : BlindWord (fun _ k => k x) := fun _ _ _ _ _ h => h x

theorem blindWord_currentWord : BlindWord currentWord := by
  intro m w s k k' h
  refine alike_readLatch fun ws => alike_readLatch fun i => ?_
  cases ws[i.toNat]? with
  | none => exact rfl
  | some x => exact h x

theorem blind_decideAttempt {word : State → (Word → Out) → Out} {outcome : Verdict → State → Out}
    (hw : BlindWord word) (ho : ∀ v, Blind (outcome v)) (wo occ : Word) :
    Blind (decideAttempt word wo occ outcome) := by
  intro m w s
  cases hf : freeOf s.cfg.policy occ with
  | none =>
    rw [decideAttempt_diverged hf, decideAttempt_diverged (s := withChip m w s) hf]
    exact rfl
  | some f =>
    by_cases ha : 4 < f.toNat
    · rw [decideAttempt_roomy hf ha, decideAttempt_roomy (s := withChip m w s) hf ha]
      exact hw m w { s with free := some f } _ _ fun _ => rfl
    · rw [decideAttempt_full hf (by omega), decideAttempt_full (s := withChip m w s) hf (by omega)]
      exact ho .rejected m w _

/-! ## One bus event with the next answer fixed -/

/-- A fixed answer is the byte received (R153). -/
theorem received_fixed {s : State} {d : Byte} {ds : List (Option Byte)} (h : s.draws = some d :: ds)
    (sent : List Byte) : received s sent = d := by
  simp only [received, h]

/-- A fixed answer draws no free byte (R153). -/
theorem freeDrawn_fixed {s : State} {d : Byte} {ds : List (Option Byte)} (h : s.draws = some d :: ds)
    (sent : List Byte) : freeDrawn s sent = 0 := by
  simp only [freeDrawn, h]

section
variable {s : State} {d : Byte} {ds : List (Option Byte)} (h : s.draws = some d :: ds)
  (m : Memory) (w : Option Word)
include h

/-- An exchange whose answer is fixed goes by nothing of the chip (R22, R153). -/
theorem alike_exchange (bytes : List Byte) (cap i : Nat) (rx : List Byte) (o : Byte) :
    Alike (.next (exchange bytes cap i rx o s)) (.next (exchange bytes cap i rx o (withChip m w s))) := by
  have h' := (withChip_draws m w s).trans h
  simp only [exchange, received_fixed h, received_fixed h', freeDrawn_fixed h, freeDrawn_fixed h']
  exact rfl

/-- One bus event (R31, R32). -/
theorem alike_xferStep {k : State → Out} (hk : Blind k) :
    Alike (xferStep k s) (xferStep k (withChip m w s)) := by
  cases hc : s.cs with
  | false =>
    rw [xferStep_select k hc, xferStep_select k (s := withChip m w s) hc]
    exact rfl
  | true =>
    simp only [xferStep, withChip_cs, hc, if_true]
    refine alike_readLatch fun bytes => alike_readLatch fun i => ?_
    cases bytes[i]? with
    | none => exact hk m w (deselect s)
    | some o =>
      exact alike_readLatch fun cap => alike_readLatch fun rx => alike_exchange h m w bytes cap i rx o

/-- One step of a one-transaction operation. -/
theorem alike_framing (bytes : List Byte) (cap : Nat) (finish : List Byte → Result) :
    Alike (framing bytes cap finish s) (framing bytes cap finish (withChip m w s)) := by
  unfold framing
  rw [withChip_pc]
  cases s.pc with
  | fx => exact alike_xferStep h m w fun _ _ _ => alike_readLatch fun _ => rfl
  | _ => exact rfl

/-- One step of a transaction with no request (log 9). -/
theorem alike_bareXfer (bytes : List Byte) (cap : Nat) :
    Alike (bareXfer bytes cap s) (bareXfer bytes cap (withChip m w s)) := by
  unfold bareXfer
  rw [withChip_pc]
  cases s.pc with
  | idle => exact alike_xferStep (s := goto .fx (startXfer bytes cap s)) h m w fun _ _ _ => rfl
  | fx => exact alike_xferStep h m w fun _ _ _ => rfl
  | _ => exact rfl

/-- One step of an attempt (R107). -/
theorem alike_attempt {word : State → (Word → Out) → Out} {outcome : Verdict → State → Out}
    (hw : BlindWord word) (ho : ∀ v, Blind (outcome v)) :
    Alike (attempt word outcome s) (attempt word outcome (withChip m w s)) := by
  unfold attempt
  rw [withChip_pc]
  cases s.pc with
  | qro => exact alike_xferStep h m w fun _ _ _ => alike_readLatch fun _ => rfl
  | qwo =>
    exact alike_xferStep h m w fun m w s' => alike_readLatch fun rx => alike_readLatch fun ro =>
      blind_decideAttempt hw ho _ _ m w (latchWo rx ro s')
  | qww => exact alike_xferStep h m w fun _ _ _ => alike_readLatch fun _ => rfl
  | qwp => exact alike_xferStep h m w (ho .enqueued)
  | _ => exact rfl

/-! ## Every instruction -/

theorem alike_execWrb (a : Addr) (bs : List Byte) :
    Alike (execWrb a bs s) (execWrb a bs (withChip m w s)) := by
  by_cases hc : s.pc = .idle ∧ wrbFits bs = false
  · simp only [execWrb, withChip_pc, hc, and_self, if_true]
    exact rfl
  · simp only [execWrb, withChip_pc, hc, if_false]
    exact alike_framing h m w _ _ _

theorem alike_execTryenq (x : Word) : Alike (execTryenq x s) (execTryenq x (withChip m w s)) := by
  have run := alike_attempt h m w (blindWord_const x) blind_tryenqOutcome
  unfold execTryenq
  rw [withChip_pc]
  cases s.pc with
  | idle => exact rfl
  | _ => exact run

theorem alike_execEnq (x : Word) : Alike (execEnq x s) (execEnq x (withChip m w s)) := by
  have run := alike_attempt h m w (blindWord_const x) (blind_retry blind_enqFinish)
  unfold execEnq
  rw [withChip_pc]
  cases s.pc with
  | idle =>
    by_cases hz : s.cfg.retryBudget = 0
    · simp only [withChip_cfg, hz, if_true]
      exact rfl
    · simp only [withChip_cfg, hz, if_false]
      exact rfl
  | _ => exact run

theorem alike_execIdle : Alike (execIdle s) (execIdle (withChip m w s)) := by
  unfold execIdle
  rw [withChip_pc]
  cases s.pc with
  | iro => exact alike_xferStep h m w fun _ _ _ => alike_readLatch fun _ => rfl
  | iwo => exact alike_xferStep h m w fun _ _ _ => alike_readLatch fun _ => alike_readLatch fun _ => rfl
  | _ => exact rfl

theorem alike_execTextcmd (ws : List Word) (bs : List Byte) :
    Alike (execTextcmd ws bs s) (execTextcmd ws bs (withChip m w s)) := by
  have run := alike_attempt h m w blindWord_currentWord
    (blind_retry fun delivered _ => blind_wordDone blind_nextWord delivered)
  unfold execTextcmd
  rw [withChip_pc]
  cases s.pc with
  | idle =>
    simp only
    split
    · exact rfl
    · split
      · exact rfl
      · exact blind_nextWord m w (latchText (textWords ws bs) s)
  | _ => exact run

end

theorem blind_execPack (bs : List Byte) : Blind (execPack bs) := by
  intro m w s
  unfold execPack
  rw [withChip_pc]
  cases s.pc <;> exact rfl

/-- A step whose next answer is fixed goes by nothing on the chip's side (R17, R153). -/
theorem alike_exec {s : State} {d : Byte} {ds : List (Option Byte)} (h : s.draws = some d :: ds)
    (m : Memory) (w : Option Word) (i : Instr) : Alike (exec i s) (exec i (withChip m w s)) := by
  cases i with
  | wrb a bs => exact alike_execWrb h m w a bs
  | tryenq x => exact alike_execTryenq h m w x
  | enq x => exact alike_execEnq h m w x
  | idle => exact alike_execIdle h m w
  | pack bs => exact blind_execPack bs m w s
  | textcmd ws bs => exact alike_execTextcmd h m w ws bs
  | rdb | rd8 | rd16 | rd32 | wr8 | wr16 | wr32 | hostcmd | wake | chkid =>
    exact alike_framing h m w _ _ _
  | wireRead | wireWrite | wireHostcmd | wireHostcmdM11 | wireWake => exact alike_bareXfer h m w _ _

end Sys2Proof.Machine

namespace Sys2Proof
open Machine

/-- Settles O59: the state with memory `m` is the state with its chip's side replaced, and a step whose next
answer is fixed is blind to that. -/
theorem blockSeesOnlyTheReceivedByte : Obligations.BlockSeesOnlyTheReceivedByte := by
  intro i s m d ds h
  exact alike_exec h m s.woSeen i

end Sys2Proof
end

section
/-! SUPPORT. The shape of a step in flight, said once for the proofs of this part (spec/10_state.md R29, R31,
R32): at its program points an operation of the request interface takes one bus event, and only its DESEL
step computes; a wire transaction without a request takes one bus event from its first step on (log 9). -/
namespace Sys2Proof.Machine

/-! ## Operations of one transaction -/

/-- The computation of the DESEL step of a one-transaction operation. -/
def deliverRx (finish : List Byte → Result) (s : State) : Out :=
  readLatch .rx s.rx fun rx => .next (complete (finish rx) s)

theorem framing_idle {bytes : List Byte} {cap : Nat} {finish : List Byte → Result} {s : State}
    (hp : s.pc = .idle) : framing bytes cap finish s = .next (goto .fx (startXfer bytes cap s)) := by
  simp only [framing, hp]

theorem framing_fx {bytes : List Byte} {cap : Nat} {finish : List Byte → Result} {s : State}
    (hp : s.pc = .fx) : framing bytes cap finish s = xferStep (deliverRx finish) s := by
  simp only [framing, hp]
  rfl

/-- Off IDLE a WRB is not checked again (R84). -/
theorem execWrb_busy {a : Addr} {bs : List Byte} {s : State} (hp : s.pc ≠ .idle) :
    execWrb a bs s = framingWrite a bs (BitVec.ofNat 32 bs.length) s :=
  if_neg fun h => hp h.1

/-- At F_X a framing operation takes one bus event of its transaction. -/
theorem exec_framing_fx {i : Instr} {s : State} (hi : i.isFraming = true) (hp : s.pc = .fx) :
    ∃ finish, exec i s = xferStep (deliverRx finish) s := by
  cases i with
  | wrb a bs => exact ⟨_, (execWrb_busy (by simp [hp])).trans (framing_fx hp)⟩
  | rdb | rd8 | rd16 | rd32 | wr8 | wr16 | wr32 | hostcmd | wake | chkid => exact ⟨_, framing_fx hp⟩
  | tryenq | enq | idle | pack | textcmd => cases hi
  | wireRead | wireWrite | wireHostcmd | wireHostcmdM11 | wireWake => cases hi

/-! ## Operations that enqueue -/

/-- The completion handler of TEXTCMD (R133). -/
def textOutcome (v : Verdict) (s : State) : Out :=
  retry (fun delivered _ s' => wordDone nextWord delivered s') v s

section
variable {s : State} (hp : s.pc ≠ .idle)
include hp

theorem exec_tryenq_busy (w : Word) :
    exec (.tryenq w) s = attempt (fun _ k => k w) tryenqOutcome s := by
  show execTryenq w s = _
  unfold execTryenq
  split
  · contradiction
  · rfl

theorem exec_enq_busy (w : Word) :
    exec (.enq w) s = attempt (fun _ k => k w) (retry enqFinish) s := by
  show execEnq w s = _
  unfold execEnq
  split
  · contradiction
  · rfl

theorem exec_textcmd_busy (ws : List Word) (bs : List Byte) :
    exec (.textcmd ws bs) s = attempt currentWord textOutcome s := by
  show execTextcmd ws bs s = _
  unfold execTextcmd
  split
  · contradiction
  · rfl

end

section
variable {s : State} (hp : s.pc = .idle)
include hp

theorem exec_tryenq_accept (w : Word) : exec (.tryenq w) s = .next (startAttempt s) := by
  show execTryenq w s = _
  simp only [execTryenq, hp]

/-- ENQ begins its first attempt (R116). -/
theorem exec_enq_accept (w : Word) (hb : s.cfg.retryBudget ≠ 0) :
    exec (.enq w) s = .next (startAttempt { s with attempts := some 0#16 }) := by
  show execEnq w s = _
  simp only [execEnq, hp, hb, if_false]

/-- With a zero budget ENQ makes no attempt (R116). -/
theorem exec_enq_zero (w : Word) (hb : s.cfg.retryBudget = 0) :
    exec (.enq w) s =
      .next (complete (plainResult .gaveup 0#32) { s with attempts := some 0#16 }) := by
  show execEnq w s = _
  simp only [execEnq, hp, hb, if_true]

/-- ACCEPT of a TEXTCMD that is neither refused nor skipped (R130, R133). -/
theorem exec_textcmd_accept {ws : List Word} {bs : List Byte} (hf : textFits ws bs = true)
    (hb : bs ≠ []) : exec (.textcmd ws bs) s = nextWord (latchText (textWords ws bs) s) := by
  show execTextcmd ws bs s = _
  simp only [execTextcmd, hp, hf, hb, Bool.true_eq_false, if_false]

/-- A TEXTCMD with an empty payload is skipped (R133). -/
theorem exec_textcmd_skipped {ws : List Word} (hf : textFits ws [] = true) :
    exec (.textcmd ws []) s = .next (complete (plainResult .skipped 0#32) s) := by
  show execTextcmd ws [] s = _
  simp only [execTextcmd, hp, hf, Bool.true_eq_false, if_false, if_true]

/-- A TEXTCMD with too many words is refused (R84). -/
theorem exec_textcmd_refused {ws : List Word} {bs : List Byte} (hf : textFits ws bs = false) :
    exec (.textcmd ws bs) s = .next (refuse s) := by
  show execTextcmd ws bs s = _
  simp only [execTextcmd, hp, hf, if_true]

theorem exec_pack_accept (bs : List Byte) : exec (.pack bs) s = .next (complete (packResult bs) s) := by
  show execPack bs s = _
  simp only [execPack, hp]

theorem exec_idle_accept :
    exec .idle s = .next (startRead .iro (paramAddr s.cfg.regCmdRead) 4 s) := by
  show execIdle s = _
  simp only [execIdle, hp]

end

section
variable {word : State → (Word → Out) → Out} {outcome : Verdict → State → Out} {s : State}

/-- The computation of Q_RO's DESEL step. -/
def afterRo (s : State) : Out := readLatch .rx s.rx fun rx => .next (latchRo rx s)

/-- The computation of Q_WO's DESEL step. -/
def afterWo (word : State → (Word → Out) → Out) (outcome : Verdict → State → Out) (s : State) : Out :=
  readLatch .rx s.rx fun rx =>
  readLatch .roL s.roL fun ro =>
    decideAttempt word (leWord rx) (occupied (leWord rx) ro) outcome (latchWo rx ro s)

/-- The computation of Q_WW's DESEL step. -/
def afterWordWrite (s : State) : Out := readLatch .woL s.woL fun wo => .next (startPointerWrite wo s)

theorem attempt_qro (hp : s.pc = .qro) : attempt word outcome s = xferStep afterRo s := by
  simp only [attempt, hp]
  rfl

theorem attempt_qwo (hp : s.pc = .qwo) : attempt word outcome s = xferStep (afterWo word outcome) s := by
  simp only [attempt, hp]
  rfl

theorem attempt_qww (hp : s.pc = .qww) : attempt word outcome s = xferStep afterWordWrite s := by
  simp only [attempt, hp]
  rfl

theorem attempt_qwp (hp : s.pc = .qwp) : attempt word outcome s = xferStep (outcome .enqueued) s := by
  simp only [attempt, hp]

/-- At each of its four program points an attempt takes one bus event. -/
theorem attempt_flight (hp : s.pc ∈ [Pc.qro, .qwo, .qww, .qwp]) :
    ∃ k, attempt word outcome s = xferStep k s := by
  simp only [List.mem_cons, List.not_mem_nil, or_false] at hp
  rcases hp with hp | hp | hp | hp
  · exact ⟨_, attempt_qro hp⟩
  · exact ⟨_, attempt_qwo hp⟩
  · exact ⟨_, attempt_qww hp⟩
  · exact ⟨_, attempt_qwp hp⟩

end

/-! ## IDLE -/

/-- The computation of I_RO's DESEL step (R118). -/
def afterIdleRo (s : State) : Out :=
  readLatch .rx s.rx fun rx =>
    .next (startRead .iwo (paramAddr s.cfg.regCmdWrite) 4 { s with roL := some (leWord rx) })

/-- The computation of I_WO's DESEL step (R118). -/
def afterIdleWo (s : State) : Out :=
  readLatch .rx s.rx fun rx =>
  readLatch .roL s.roL fun ro =>
    .next (complete (plainResult .done (drained ro (leWord rx))) { s with woL := some (leWord rx) })

theorem exec_idle_iro {s : State} (hp : s.pc = .iro) : exec .idle s = xferStep afterIdleRo s := by
  show execIdle s = _
  simp only [execIdle, hp]
  rfl

theorem exec_idle_iwo {s : State} (hp : s.pc = .iwo) : exec .idle s = xferStep afterIdleWo s := by
  show execIdle s = _
  simp only [execIdle, hp]
  rfl

/-! ## What the block does next (R24, R25, R32) -/

section
variable {s : State}

theorem blockStep_fault (hp : s.pc = .fault) : blockStep s = .next s := by
  simp only [blockStep, fetch_fault hp]

theorem blockStep_waiting (hp : s.pc = .idle) (hw : s.wire = none) (hr : s.reqs = []) :
    blockStep s = .next s := by
  simp only [blockStep, fetch_idle hp hw, fetchRequest, hr]

section
variable {r : Request} {rest : List Request} (hp : s.pc = .idle) (hw : s.wire = none)
  (hr : s.reqs = r :: rest)
include hp hw hr

theorem blockStep_accept {i : Instr} (hd : decodeRequest r = .ok i) :
    blockStep s = exec i (takeRequest r rest s) := by
  simp only [blockStep, fetch_idle hp hw, fetchRequest, hr, hd]

theorem blockStep_reserved {x : Reject} (hd : decodeRequest r = .error x) :
    blockStep s = .next (refuse (takeRequest r rest s)) := by
  simp only [blockStep, fetch_idle hp hw, fetchRequest, hr, hd]

end

theorem blockStep_flight {r : Request} {i : Instr} (hi : s.pc ≠ .idle) (hf : s.pc ≠ .fault)
    (hw : s.wire = none) (hl : latchedRequest s = .ok r) (hd : decodeRequest r = .ok i) :
    blockStep s = exec i s := by
  simp only [blockStep, fetch_flight hf hi hw, fetchLatched, hl, hd]

theorem blockStep_wire {bytes : List Byte} {i : Instr} (hf : s.pc ≠ .fault) (hw : s.wire = some bytes)
    (hd : decodeWire bytes = .ok i) : blockStep s = exec i s := by
  simp only [blockStep, fetch_wire hf hw, hd]

end

/-! ## Wire transactions (log 9) -/

/-- The engine lets go of a transaction that no request asked for. -/
def release (s : State) : State := { s with pc := .idle, wire := none }

/-- The computation of the DESEL step of a transaction without a request. -/
def releaseNext (s : State) : Out := .next (release s)

theorem bareXfer_idle {bytes : List Byte} {cap : Nat} {s : State} (hp : s.pc = .idle) :
    bareXfer bytes cap s = xferStep releaseNext (goto .fx (startXfer bytes cap s)) := by
  simp only [bareXfer, hp]
  rfl

theorem bareXfer_fx {bytes : List Byte} {cap : Nat} {s : State} (hp : s.pc = .fx) :
    bareXfer bytes cap s = xferStep releaseNext s := by
  simp only [bareXfer, hp]
  rfl

/-- What a step of a wire transaction begins from: at IDLE its bytes are put in the engine first. -/
def Entered (s u : State) : Prop :=
  u = s ∨ ∃ bytes cap, u = goto .fx (startXfer bytes cap s)

/-- One bus event of a transaction without a request. -/
inductive BareEvent (s t : State) : Prop where
  | select (cs : s.cs = false) (same : t = select s)
  | exchange (bytes : List Byte) (cap i : Nat) (rx : List Byte) (o : Byte) (cs : s.cs = true)
      (txs : s.txs = some bytes) (txpos : s.txpos = some i) (byte : bytes[i]? = some o)
      (same : t = exchange bytes cap i rx o s)
  | deselect (cs : s.cs = true) (same : t = release (deselect s))

/-- Everything a step of a wire transaction can do to the state. -/
theorem exec_wire_acts {i : Instr} {s t : State} (hw : i.isWire = true) (h : exec i s = .next t) :
    t = s ∨ ∃ u, Entered s u ∧ BareEvent u t := by
  obtain ⟨bytes, cap, -, he⟩ := exec_wire hw
  have event : ∀ u, xferStep releaseNext u = .next t → BareEvent u t := by
    intro u hu
    rcases xferStep_cases hu with ⟨hc, ht⟩ | ⟨bytes, cap, i, rx, o, hc, hb, -, hi, -, ho, ht⟩ |
      ⟨bytes, i, hc, -, -, -, ht⟩
    · exact .select hc ht
    · exact .exchange bytes cap i rx o hc hb hi ho ht
    · cases ht
      exact .deselect hc rfl
  rcases bareXfer_cases ((he s).symm.trans h) with ⟨-, ht⟩ | ⟨-, hx⟩ | ⟨-, hx⟩
  · exact .inl ht
  · exact .inr ⟨_, .inr ⟨bytes, cap, rfl⟩, event _ hx⟩
  · exact .inr ⟨s, .inl rfl, event _ hx⟩

end Sys2Proof.Machine
end

section
/-! SUPPORT. The machine's invariant and its progress (spec/10_state.md R26, spec/60_exceptions.md R142,
R143). Two questions are kept apart. `Answers` says of a computation that it answers a next state whose
latches hold what its program point needs; that is where each operation is looked at. `Serving` is the rest
of the invariant, which every operation keeps for the one reason that Laws/Meanings.lean gives (`Acts`). -/
namespace Sys2Proof.Machine

/-! ## The readiness predicates of the invariant as propositions -/

theorem engineReady_iff {s : State} : engineReady s = true ↔
    ∃ bytes cap i rx, s.txs = some bytes ∧ s.txfrom = some cap ∧ s.txpos = some i ∧ s.rx = some rx ∧
      i ≤ bytes.length := by
  unfold engineReady
  cases s.txs <;> cases s.txfrom <;> cases s.txpos <;> cases s.rx <;> simp

theorem attemptsBelow_iff {s : State} : attemptsBelow s = true ↔
    ∃ n, s.attempts = some n ∧ n.toNat < s.cfg.retryBudget := by
  unfold attemptsBelow
  cases s.attempts <;> simp

theorem textReady_iff {s : State} : textReady s = true ↔
    ∃ ws i nd ng, s.words = some ws ∧ s.widx = some i ∧ s.ndeliv = some nd ∧ s.ngaveup = some ng ∧
      i.toNat < ws.length ∧ ws.length ≤ 65535 ∧ nd.toNat + ng.toNat = i.toNat := by
  unfold textReady
  cases s.words <;> cases s.widx <;> cases s.ndeliv <;> cases s.ngaveup <;> simp [and_assoc]

theorem opAmong_iff {ops : List (BitVec 8)} {s : State} :
    opAmong ops s = true ↔ ∃ o, s.op = some o ∧ o ∈ ops := by
  unfold opAmong
  cases s.op <;> simp

theorem latched_iff {s : State} : latched s = true ↔
    ∃ op a d bs ws, s.op = some op ∧ s.addr = some a ∧ s.data = some d ∧ s.inbytes = some bs ∧
      s.inwords = some ws := by
  simp [latched, Option.isSome_iff_exists, and_assoc]

/-- A transaction just set up is ready (R30). -/
theorem engineReady_setUp {u : State} {bytes : List Byte} {cap : Nat} (hb : u.txs = some bytes)
    (hcap : u.txfrom = some cap) (hi : u.txpos = some 0) (hr : u.rx = some []) : engineReady u = true :=
  engineReady_iff.2 ⟨bytes, cap, 0, [], hb, hcap, hi, hr, Nat.zero_le _⟩

/-- What an attempt in flight needs besides the engine: its operation is latched and its counters hold values
(R107, R115, R133). -/
def enqueueing (s : State) : Bool :=
  latched s && s.wire.isNone
    && (opAmong [0x10#8] s || (opAmong [0x11#8] s && attemptsBelow s)
        || (opAmong [0x21#8] s && attemptsBelow s && textReady s))

theorem ringReady_eq (s : State) : ringReady s = (engineReady s && enqueueing s) := by
  simp only [ringReady, enqueueing, Bool.and_assoc]

/-- What an attempt needs, by the operation that makes it. -/
theorem enqueueing_iff {s : State} : enqueueing s = true ↔
    latched s = true ∧ s.wire = none ∧
      (s.op = some 0x10#8 ∨ s.op = some 0x11#8 ∧ attemptsBelow s = true ∨
        s.op = some 0x21#8 ∧ attemptsBelow s = true ∧ textReady s = true) := by
  simp only [enqueueing, Bool.and_eq_true, Bool.or_eq_true, opAmong_iff, Option.isNone_iff_eq_none,
    List.mem_singleton, exists_eq_right, and_assoc, or_assoc]

/-- The text latches of a command whose next word is to be enqueued (R133). -/
def commanding (s : State) : Prop :=
  latched s = true ∧ s.wire = none ∧ s.op = some 0x21#8 ∧ textReady s = true

theorem enqueueing_enq {s : State} (h : enqueueing s = true) (ho : s.op = some 0x11#8) :
    attemptsBelow s = true := by
  obtain ⟨-, -, e | ⟨-, ha⟩ | ⟨e, -⟩⟩ := enqueueing_iff.1 h
  · rw [ho] at e; cases e
  · exact ha
  · rw [ho] at e; cases e

theorem enqueueing_textcmd {s : State} (h : enqueueing s = true) (ho : s.op = some 0x21#8) :
    attemptsBelow s = true ∧ commanding s := by
  obtain ⟨hl, hw, e | ⟨e, -⟩ | ⟨-, ha, ht⟩⟩ := enqueueing_iff.1 h
  · rw [ho] at e; cases e
  · rw [ho] at e; cases e
  · exact ⟨ha, hl, hw, ho, ht⟩

/-- Any count of attempts below the budget will do (R115). -/
theorem enqueueing_attempts {s : State} (h : enqueueing s = true) {n : BitVec 16}
    (hn : n.toNat < s.cfg.retryBudget) : enqueueing { s with attempts := some n } = true := by
  have ha : attemptsBelow { s with attempts := some n } = true := attemptsBelow_iff.2 ⟨n, rfl, hn⟩
  obtain ⟨hl, hw, ho⟩ := enqueueing_iff.1 h
  refine enqueueing_iff.2 ⟨hl, hw, ?_⟩
  rcases ho with ho | ⟨ho, -⟩ | ⟨ho, -, ht⟩
  · exact .inl ho
  · exact .inr (.inl ⟨ho, ha⟩)
  · exact .inr (.inr ⟨ho, ha, ht⟩)

/-- A fresh budget, where the budget is not zero (R115, R133). -/
theorem commanding.enqueueing {s : State} (h : commanding s) (hb : s.cfg.retryBudget ≠ 0) :
    enqueueing { s with attempts := some 0#16 } = true := by
  obtain ⟨hl, hw, ho, ht⟩ := h
  exact enqueueing_iff.2
    ⟨hl, hw, .inr (.inr ⟨ho, attemptsBelow_iff.2 ⟨0#16, rfl, Nat.pos_of_ne_zero hb⟩, ht⟩)⟩

/-! ## The program points of a transaction set up -/

theorem ringReady_setUp {u : State} {bytes : List Byte} {cap : Nat} (h : enqueueing u = true)
    (hb : u.txs = some bytes) (hcap : u.txfrom = some cap) (hi : u.txpos = some 0) (hr : u.rx = some []) :
    ringReady u = true := by
  rw [ringReady_eq, engineReady_setUp hb hcap hi hr, h]
  rfl

section
variable {s : State} (h : enqueueing s = true)
include h

theorem pointReady_startAttempt : pointReady (startAttempt s) = true :=
  ringReady_setUp (u := startAttempt s) h rfl rfl rfl rfl

theorem pointReady_latchRo (rx : List Byte) : pointReady (latchRo rx s) = true :=
  Bool.and_eq_true_iff.2 ⟨ringReady_setUp (u := latchRo rx s) h rfl rfl rfl rfl, rfl⟩

theorem pointReady_startRingWrite (w wo : Word) (hw : s.woL.isSome = true) :
    pointReady (startRingWrite w wo s) = true :=
  Bool.and_eq_true_iff.2 ⟨ringReady_setUp (u := startRingWrite w wo s) h rfl rfl rfl rfl, hw⟩

theorem pointReady_startPointerWrite (wo : Word) (hw : s.woL.isSome = true) :
    pointReady (startPointerWrite wo s) = true :=
  Bool.and_eq_true_iff.2 ⟨ringReady_setUp (u := startPointerWrite wo s) h rfl rfl rfl rfl, hw⟩

end

/-- Only the engine's own latches move in a bus event, so the point is ready after it if the engine is. -/
theorem pointReady_engaged {s u : State} (g : Engaged s u) (hi : s.pc ≠ .idle) (hf : s.pc ≠ .fault)
    (he : engineReady u = true) (h : pointReady s = true) : pointReady u = true := by
  have hl : latched u = latched s := by simp only [latched, g.op, g.addr, g.data, g.inbytes, g.inwords]
  have ho : ∀ ops, opAmong ops u = opAmong ops s := fun ops => by simp only [opAmong, g.op]
  have hq : enqueueing u = enqueueing s := by
    simp only [enqueueing, hl, ho, g.wire, attemptsBelow, textReady, g.attempts, g.cfg, g.words, g.widx,
      g.ndeliv, g.ngaveup]
  unfold pointReady at h ⊢
  rw [g.pc]
  cases hp : s.pc with
  | idle => contradiction
  | fault => contradiction
  | fx | qro | qwo | qww | qwp | iro | iwo =>
    simp only [hp, ringReady_eq, Bool.and_eq_true, and_assoc, he, hl, ho, hq, g.wire, g.roL, g.woL,
      true_and] at h ⊢
    obtain ⟨-, rest⟩ := h
    exact rest

/-- Every program point in flight holds a transaction (R30). -/
theorem engineReady_of_pointReady {s : State} (hi : s.pc ≠ .idle) (hf : s.pc ≠ .fault)
    (h : pointReady s = true) : engineReady s = true := by
  unfold pointReady at h
  cases hp : s.pc with
  | idle => contradiction
  | fault => contradiction
  | fx | qro | qwo | qww | qwp | iro | iwo =>
    simp only [hp, ringReady_eq, Bool.and_eq_true, and_assoc] at h
    obtain ⟨he, -⟩ := h
    exact he

/-! ## Computations that answer -/

/-- The computation answers a next state, and where that is in flight its latches hold what its program point
needs. -/
def Answers (o : Out) : Prop :=
  ∃ t, o = .next t ∧ (t.pc ≠ .idle → t.pc ≠ .fault → pointReady t = true)

theorem answers_ready {t : State} (h : pointReady t = true) : Answers (.next t) := ⟨t, rfl, fun _ _ => h⟩

theorem answers_complete (r : Result) (s : State) : Answers (.next (complete r s)) :=
  ⟨_, rfl, fun h => absurd rfl h⟩

theorem answers_enterFault (s : State) : Answers (.next (enterFault faultDivergence true s)) :=
  ⟨_, rfl, fun _ h => absurd rfl h⟩

theorem answers_refuse (s : State) : Answers (.next (refuse s)) := ⟨_, rfl, fun h => absurd rfl h⟩

/-- One bus event answers, where its DESEL computation does. -/
theorem answers_xferStep {k : State → Out} {s : State} (hi : s.pc ≠ .idle) (hf : s.pc ≠ .fault)
    (h : pointReady s = true) (hk : Answers (k (deselect s))) : Answers (xferStep k s) := by
  obtain ⟨bytes, cap, i, rx, hb, hcap, hpos, hrx, hle⟩ :=
    engineReady_iff.1 (engineReady_of_pointReady hi hf h)
  cases hc : s.cs with
  | false =>
    rw [xferStep_select k hc]
    exact answers_ready (pointReady_engaged (engaged_select s) hi hf
      (engineReady_iff.2 ⟨bytes, cap, i, rx, hb, hcap, hpos, hrx, hle⟩) h)
  | true =>
    cases ho : bytes[i]? with
    | some o =>
      have hlt : i < bytes.length := (List.getElem?_eq_some_iff.1 ho).1
      rw [xferStep_exchange k hc hb hpos ho hcap hrx]
      exact answers_ready (pointReady_engaged (engaged_exchange _ _ _ _ _ s) hi hf
        (engineReady_iff.2 ⟨bytes, cap, i + 1, _, hb, hcap, rfl, rfl, hlt⟩) h)
    | none =>
      rw [xferStep_deselect k hc hb hpos ho]
      exact hk

theorem answers_deliverRx (finish : List Byte → Result) {s : State} (h : s.rx.isSome = true) :
    Answers (deliverRx finish s) := by
  obtain ⟨rx, hrx⟩ := Option.isSome_iff_exists.1 h
  simp only [deliverRx, hrx, readLatch_some]
  exact answers_complete _ _

theorem answers_tryenqOutcome (v : Verdict) {s : State} (h : s.woL.isSome = true) :
    Answers (tryenqOutcome v s) := by
  obtain ⟨wo, hwo⟩ := Option.isSome_iff_exists.1 h
  simp only [tryenqOutcome, hwo, readLatch_some]
  cases v with
  | enqueued => exact answers_complete _ _
  | rejected => exact answers_complete _ _

theorem answers_enqFinish (b : Bool) (n : BitVec 16) (s : State) : Answers (enqFinish b n s) :=
  answers_complete _ _

/-- The retry state machine keeps its count of attempts below the budget (R115). -/
theorem answers_retry {finish : Bool → BitVec 16 → State → Out} {s : State} (h : enqueueing s = true)
    (ha : attemptsBelow s = true) (hf : ∀ b n m, Answers (finish b n { s with attempts := some m }))
    (v : Verdict) : Answers (retry finish v s) := by
  obtain ⟨n, hn, hlt⟩ := attemptsBelow_iff.1 ha
  cases v with
  | enqueued => rw [retry_enqueued hn]; exact hf _ _ _
  | rejected =>
    by_cases hb : (n + 1#16).toNat = s.cfg.retryBudget
    · rw [retry_gaveup hn hb]
      exact hf _ _ _
    · rw [retry_again hn hb]
      have hle : (n + 1#16).toNat ≤ n.toNat + 1 := by
        rw [BitVec.toNat_add]
        exact Nat.mod_le _ _
      exact answers_ready (pointReady_startAttempt (enqueueing_attempts h (by omega)))

/-! ## The words of a text command -/

/-- With a zero budget every word gives up where it starts, to the end of the command or, under
ABORT_ON_GAVEUP, the first one only (R32, R133, R134). -/
theorem startWord_zero {s : State} {ws : List Word} {i : BitVec 17} {nd ng : BitVec 16} {n : Nat}
    (hb : s.cfg.retryBudget = 0) (hw : s.words = some ws) (hi : s.widx = some i) (hd : s.ndeliv = some nd)
    (hg : s.ngaveup = some ng) (hl : i.toNat + (n + 1) = ws.length) (hm : ws.length ≤ 65535) :
    ∃ u, u.results = s.results ∧ startWord (n + 1) s =
      .next (complete (textResult nd (ng + BitVec.ofNat 16 (if s.cfg.abortOnGaveup then 1 else n + 1))) u) := by
  induction n generalizing s i ng with
  | zero =>
    have he : (i + 1#17).toNat = ws.length := by rw [BitVec.toNat_add]; simp; omega
    refine ⟨countWord false i nd ng { s with attempts := some 0#16 }, rfl, ?_⟩
    simp only [startWord, hb, if_true]
    rw [wordDone_ends (s := { s with attempts := some 0#16 }) false hd hg hi hw (.inl he)]
    simp
  | succ n ih =>
    have hs : (i + 1#17).toNat = i.toNat + 1 := by rw [BitVec.toNat_add]; simp; omega
    simp only [startWord, hb, if_true] at ih ⊢
    cases ha : s.cfg.abortOnGaveup with
    | true =>
      refine ⟨countWord false i nd ng { s with attempts := some 0#16 }, rfl, ?_⟩
      rw [wordDone_ends (s := { s with attempts := some 0#16 }) false hd hg hi hw (.inr ⟨rfl, ha⟩)]
      simp
    | false =>
      have hsum : ng + 1#16 + BitVec.ofNat 16 (n + 1) = ng + BitVec.ofNat 16 (n + 1 + 1) := by
        rw [BitVec.add_assoc, Nat.add_comm (n + 1) 1, BitVec.ofNat_add 1 (n + 1)]
      obtain ⟨u, hu, e⟩ := ih (s := countWord false i nd ng { s with attempts := some 0#16 })
        (i := i + 1#17) (ng := ng + 1#16) hb hw rfl (congrArg some rfl) rfl (by omega)
      refine ⟨u, hu, ?_⟩
      rw [wordDone_goes (s := { s with attempts := some 0#16 }) false hd hg hi hw
        (by simp [ha]; omega)]
      simpa [countWord, ha, hsum] using e

end Sys2Proof.Machine
end

section
/-! SUPPORT. Every operation answers from a state that meets the invariant, and the answer meets it again
(spec/10_state.md R26, spec/60_exceptions.md R142, R143). -/
namespace Sys2Proof.Machine

/-! ## Text commands and attempts -/

/-- A command with a word left starts it, or with a zero budget gives up to its end (R32, R133). -/
theorem answers_nextWord {s : State} (h : commanding s) : Answers (nextWord s) := by
  have ⟨_, _, _, ht⟩ := h
  obtain ⟨ws, i, nd, ng, hw, hi, hd, hg, hlt, hm, -⟩ := textReady_iff.1 ht
  by_cases hb : s.cfg.retryBudget = 0
  · obtain ⟨n, hn⟩ : ∃ n, ws.length - i.toNat = n + 1 := ⟨ws.length - i.toNat - 1, by omega⟩
    obtain ⟨u, -, e⟩ := startWord_zero hb hw hi hd hg (n := n) (by omega) hm
    simp only [nextWord, wordsLeft, hw, hi, hn, e]
    exact answers_complete _ _
  · rw [nextWord_starts hb hw hi hlt]
    exact answers_ready (pointReady_startAttempt (h.enqueueing hb))

/-- A counted word that is not the last leaves the command with a word to start (R133). -/
theorem commanding_countWord {s : State} {ws : List Word} {i : BitVec 17} {nd ng : BitVec 16} (b : Bool)
    (h : commanding s) (hw : s.words = some ws) (hi : s.widx = some i) (hd : s.ndeliv = some nd)
    (hg : s.ngaveup = some ng) (hl : (i + 1#17).toNat ≠ ws.length) : commanding (countWord b i nd ng s) := by
  obtain ⟨hlat, hwire, hop, ht⟩ := h
  refine ⟨hlat, hwire, hop, textReady_iff.2 ⟨ws, _, _, _, hw, rfl, rfl, rfl, ?_⟩⟩
  obtain ⟨ws', i', nd', ng', hw', hi', hd', hg', hlt, hm, hsum⟩ := textReady_iff.1 ht
  obtain rfl : ws' = ws := by simpa [hw] using hw'.symm
  obtain rfl : i' = i := by simpa [hi] using hi'.symm
  obtain rfl : nd' = nd := by simpa [hd] using hd'.symm
  obtain rfl : ng' = ng := by simpa [hg] using hg'.symm
  have hs : (i' + 1#17).toNat = i'.toNat + 1 := by rw [BitVec.toNat_add]; simp; omega
  have hn : nd'.toNat < 65535 → (nd' + 1#16).toNat = nd'.toNat + 1 := by
    intro _; rw [BitVec.toNat_add]; simp; omega
  have hg : ng'.toNat < 65535 → (ng' + 1#16).toNat = ng'.toNat + 1 := by
    intro _; rw [BitVec.toNat_add]; simp; omega
  cases b <;> simp <;> omega

theorem answers_wordDone {s : State} (h : commanding s) (b : Bool) : Answers (wordDone nextWord b s) := by
  have ⟨_, _, _, ht⟩ := h
  obtain ⟨ws, i, nd, ng, hw, hi, hd, hg, -⟩ := textReady_iff.1 ht
  by_cases he : (i + 1#17).toNat = ws.length ∨ b = false ∧ s.cfg.abortOnGaveup = true
  · rw [wordDone_ends b hd hg hi hw he]
    exact answers_complete _ _
  · rw [wordDone_goes b hd hg hi hw he]
    exact answers_nextWord (commanding_countWord b h hw hi hd hg fun e => he (.inl e))

theorem answers_textOutcome (v : Verdict) {s : State} (h : enqueueing s = true)
    (ho : s.op = some 0x21#8) : Answers (textOutcome v s) := by
  obtain ⟨ha, hc⟩ := enqueueing_textcmd h ho
  exact answers_retry h ha (fun b _ m => answers_wordDone (s := { s with attempts := some m }) hc b) v

theorem answers_enqOutcome (v : Verdict) {s : State} (h : enqueueing s = true)
    (ho : s.op = some 0x11#8) : Answers (retry enqFinish v s) :=
  answers_retry h (enqueueing_enq h ho) (fun _ _ _ => answers_enqFinish _ _ _) v

/-- The word `widx` names is there (R107). -/
theorem answers_currentWord {s : State} {k : Word → Out} (h : enqueueing s = true)
    (ho : s.op = some 0x21#8) (hk : ∀ w, Answers (k w)) : Answers (currentWord s k) := by
  obtain ⟨-, -, -, -, ht⟩ := enqueueing_textcmd h ho
  obtain ⟨ws, i, -, -, hw, hi, -, -, hlt, -⟩ := textReady_iff.1 ht
  simp only [currentWord, hw, hi, readLatch_some, List.getElem?_eq_getElem hlt]
  exact hk _

section
variable {word : State → (Word → Out) → Out} {outcome : Verdict → State → Out} {op : BitVec 8}
  (hw : ∀ s k, enqueueing s = true → s.op = some op → (∀ w, Answers (k w)) → Answers (word s k))
  (ho : ∀ v s, enqueueing s = true → s.op = some op → s.woL.isSome = true → Answers (outcome v s))
include hw ho

theorem answers_decideAttempt {s : State} (h : enqueueing s = true) (hop : s.op = some op)
    (hwo : s.woL.isSome = true) (wo occ : Word) : Answers (decideAttempt word wo occ outcome s) := by
  cases hf : freeOf s.cfg.policy occ with
  | none =>
    rw [decideAttempt_diverged hf]
    exact answers_enterFault s
  | some f =>
    by_cases ha : 4 < f.toNat
    · rw [decideAttempt_roomy hf ha]
      exact hw { s with free := some f } _ h hop fun w =>
        answers_ready (pointReady_startRingWrite (s := { s with free := some f }) h w wo hwo)
    · rw [decideAttempt_full hf (by omega)]
      exact ho .rejected { s with free := some f } h hop hwo

/-- Every step of an attempt answers (R107), where its operation does. -/
theorem answers_attempt {s : State} (hop : s.op = some op) (hi : s.pc ≠ .idle) (hf : s.pc ≠ .fault)
    (h : pointReady s = true)
    (hp : s.pc = .qro ∨ s.pc = .qwo ∧ s.roL.isSome = true ∨
      (s.pc = .qww ∨ s.pc = .qwp) ∧ s.woL.isSome = true) (he : enqueueing s = true) :
    Answers (attempt word outcome s) := by
  obtain ⟨-, -, -, rx, -, -, -, hrx, -⟩ := engineReady_iff.1 (engineReady_of_pointReady hi hf h)
  rcases hp with hp | ⟨hp, hro⟩ | ⟨hp | hp, hwo⟩
  · rw [attempt_qro hp]
    refine answers_xferStep hi hf h ?_
    simp only [afterRo, deselect_rx, hrx, readLatch_some]
    exact answers_ready (pointReady_latchRo (s := deselect s) he rx)
  · obtain ⟨ro, hro⟩ := Option.isSome_iff_exists.1 hro
    rw [attempt_qwo hp]
    refine answers_xferStep hi hf h ?_
    simp only [afterWo, deselect_rx, deselect_roL, hrx, hro, readLatch_some]
    exact answers_decideAttempt hw ho (s := latchWo rx ro (deselect s)) he hop rfl _ _
  · obtain ⟨wo, e⟩ := Option.isSome_iff_exists.1 hwo
    rw [attempt_qww hp]
    refine answers_xferStep hi hf h ?_
    simp only [afterWordWrite, deselect_woL, e, readLatch_some]
    exact answers_ready (pointReady_startPointerWrite (s := deselect s) he wo hwo)
  · rw [attempt_qwp hp]
    exact answers_xferStep hi hf h (ho .enqueued (deselect s) he hop hwo)

end

/-! ## Operations in flight -/

/-- Where a request in flight stands, and what it finds in the latches (R29). -/
inductive Stands (s : State) : Prop where
  | framing (point : s.pc = .fx) (o : BitVec 8) (op : s.op = some o) (among : o ∈ framingOps)
  | ring (point : s.pc = .qro ∨ s.pc = .qwo ∧ s.roL.isSome = true ∨
      (s.pc = .qww ∨ s.pc = .qwp) ∧ s.woL.isSome = true) (ready : enqueueing s = true)
  | idle (point : s.pc = .iro ∨ s.pc = .iwo ∧ s.roL.isSome = true) (op : s.op = some 0x12#8)

theorem stands_of_pointReady {s : State} (hi : s.pc ≠ .idle) (hf : s.pc ≠ .fault) (hw : s.wire = none)
    (h : pointReady s = true) : latched s = true ∧ Stands s := by
  have ring : enqueueing s = true → latched s = true := fun e => (enqueueing_iff.1 e).1
  unfold pointReady at h
  cases hp : s.pc with
  | idle => contradiction
  | fault => contradiction
  | fx =>
    simp only [hp, hw, Option.isSome_none, Bool.false_or, Bool.and_eq_true, opAmong_iff] at h
    obtain ⟨-, hl, o, ho, hm⟩ := h
    exact ⟨hl, .framing hp o ho hm⟩
  | qro =>
    simp only [hp, ringReady_eq, Bool.and_eq_true] at h
    exact ⟨ring h.2, .ring (.inl hp) h.2⟩
  | qwo =>
    simp only [hp, ringReady_eq, Bool.and_eq_true] at h
    obtain ⟨⟨-, he⟩, hro⟩ := h
    exact ⟨ring he, .ring (.inr (.inl ⟨hp, hro⟩)) he⟩
  | qww =>
    simp only [hp, ringReady_eq, Bool.and_eq_true] at h
    obtain ⟨⟨-, he⟩, hwo⟩ := h
    exact ⟨ring he, .ring (.inr (.inr ⟨.inl hp, hwo⟩)) he⟩
  | qwp =>
    simp only [hp, ringReady_eq, Bool.and_eq_true] at h
    obtain ⟨⟨-, he⟩, hwo⟩ := h
    exact ⟨ring he, .ring (.inr (.inr ⟨.inr hp, hwo⟩)) he⟩
  | iro =>
    simp only [hp, Bool.and_eq_true, opAmong_iff, List.mem_singleton, exists_eq_right] at h
    obtain ⟨⟨⟨-, hl⟩, ho⟩, -⟩ := h
    exact ⟨hl, .idle (.inl hp) ho⟩
  | iwo =>
    simp only [hp, Bool.and_eq_true, opAmong_iff, List.mem_singleton, exists_eq_right] at h
    obtain ⟨⟨⟨⟨-, hl⟩, ho⟩, -⟩, hro⟩ := h
    exact ⟨hl, .idle (.inr ⟨hp, hro⟩) ho⟩

/-- The operation of a request in flight has one of the codes of R81. -/
theorem Stands.op_mem {s : State} (h : Stands s) : ∃ o, s.op = some o ∧ o ∈ allOps := by
  cases h with
  | framing point o op among => exact ⟨o, op, List.mem_append_left _ among⟩
  | ring point ready =>
    obtain ⟨-, -, e | ⟨e, -⟩ | ⟨e, -⟩⟩ := enqueueing_iff.1 ready
    · exact ⟨_, e, by decide⟩
    · exact ⟨_, e, by decide⟩
    · exact ⟨_, e, by decide⟩
  | idle point op => exact ⟨_, op, by decide⟩

/-- The framing operations have the codes of `framingOps` (R81). -/
theorem isFraming_of_opcode {i : Instr} {o : BitVec 8} (h : i.opcode = some o) (ho : o ∈ framingOps) :
    i.isFraming = true := by
  cases i with
  | rdb | wrb | rd8 | rd16 | rd32 | wr8 | wr16 | wr32 | hostcmd | wake | chkid => rfl
  | tryenq | enq | idle | pack | textcmd => cases h; exact absurd ho (by decide)
  | wireRead | wireWrite | wireHostcmd | wireHostcmdM11 | wireWake => cases h

/-- A request in flight answers (R26): its operation is the one its program point belongs to. -/
theorem answers_flight {i : Instr} {s : State} (hi : s.pc ≠ .idle) (hf : s.pc ≠ .fault)
    (h : pointReady s = true) (st : Stands s) (ho : s.op = i.opcode) : Answers (exec i s) := by
  obtain ⟨-, -, -, rx, -, -, -, hrx, -⟩ := engineReady_iff.1 (engineReady_of_pointReady hi hf h)
  cases st with
  | framing hp o op among =>
    obtain ⟨finish, e⟩ := exec_framing_fx (isFraming_of_opcode (ho.symm.trans op) among) hp
    rw [e]
    exact answers_xferStep hi hf h (answers_deliverRx finish (s := deselect s) (by simp [hrx]))
  | ring point ready =>
    have codes := (enqueueing_iff.1 ready).2.2
    cases i with
    | tryenq w =>
      rw [exec_tryenq_busy hi]
      exact answers_attempt (fun _ _ _ _ hk => hk w) (fun v _ _ _ hwo => answers_tryenqOutcome v hwo)
        ho hi hf h point ready
    | enq w =>
      rw [exec_enq_busy hi]
      exact answers_attempt (fun _ _ _ _ hk => hk w) (fun v _ he hop _ => answers_enqOutcome v he hop)
        ho hi hf h point ready
    | textcmd ws bs =>
      rw [exec_textcmd_busy hi]
      exact answers_attempt (fun _ _ he hop hk => answers_currentWord he hop hk)
        (fun v _ he hop _ => answers_textOutcome v he hop) ho hi hf h point ready
    | _ => simp [ho, Instr.opcode] at codes
  | idle point op =>
    cases i with
    | idle =>
      rcases point with hp | ⟨hp, hro⟩
      · rw [exec_idle_iro hp]
        refine answers_xferStep hi hf h ?_
        simp only [afterIdleRo, deselect_rx, hrx, readLatch_some]
        refine answers_ready ?_
        unfold pointReady at h ⊢
        simp only [hp, Bool.and_eq_true] at h
        obtain ⟨⟨⟨-, hl⟩, hop⟩, hw⟩ := h
        exact Bool.and_eq_true_iff.2 ⟨Bool.and_eq_true_iff.2 ⟨Bool.and_eq_true_iff.2
          ⟨Bool.and_eq_true_iff.2 ⟨engineReady_setUp rfl rfl rfl rfl, hl⟩, hop⟩, hw⟩, rfl⟩
      · obtain ⟨ro, hro⟩ := Option.isSome_iff_exists.1 hro
        rw [exec_idle_iwo hp]
        refine answers_xferStep hi hf h ?_
        simp only [afterIdleWo, deselect_rx, deselect_roL, hrx, hro, readLatch_some]
        exact answers_complete _ _
    | _ => simp [op, Instr.opcode] at ho

end Sys2Proof.Machine
end

section
/-! SUPPORT. The invariant from reset on (spec/10_state.md R26, R45): ACCEPT answers, a step of every agent
keeps the invariant, and none is stopped. -/
namespace Sys2Proof.Machine

/-! ## ACCEPT -/

/-- The packer makes `ceil(L / 4)` words (R124). -/
theorem pack_length (bs : List Byte) : (pack bs).length = packLen bs.length := by
  fun_induction pack bs with
  | case1 b0 b1 b2 b3 s ih => simp only [List.length_cons, ih, packLen]; omega
  | case2 | case3 | case4 | case5 => simp [packLen]

theorem textWords_length (ws : List Word) (bs : List Byte) :
    (textWords ws bs).length = ws.length + packLen bs.length := by
  rw [textWords, List.length_append, pack_length]

/-- A payload that is not empty makes at least one word (R124). -/
theorem packLen_pos {bs : List Byte} (h : bs ≠ []) : 0 < packLen bs.length := by
  have := List.length_pos_iff.2 h
  simp only [packLen]
  omega

theorem answers_framing_idle {s : State} (bytes : List Byte) (cap : Nat) (finish : List Byte → Result)
    (hp : s.pc = .idle) (hl : latched s = true) (ho : ∃ o, s.op = some o ∧ o ∈ framingOps) :
    Answers (framing bytes cap finish s) := by
  rw [framing_idle hp]
  have he : engineReady (goto .fx (startXfer bytes cap s)) = true := engineReady_setUp rfl rfl rfl rfl
  refine answers_ready (Bool.and_eq_true_iff.2 ⟨he, Bool.or_eq_true_iff.2 (.inr ?_)⟩)
  exact Bool.and_eq_true_iff.2 ⟨hl, opAmong_iff.2 ho⟩

/-- A TEXTCMD accepted, refused or skipped answers (R84, R133). -/
theorem answers_textcmd_idle {s : State} (ws : List Word) (bs : List Byte) (hp : s.pc = .idle)
    (hl : latched s = true) (hw : s.wire = none) (ho : s.op = some 0x21#8) :
    Answers (exec (.textcmd ws bs) s) := by
  by_cases hf : textFits ws bs = true
  · by_cases hb : bs = []
    · subst hb
      rw [exec_textcmd_skipped hp hf]
      exact answers_complete _ _
    · rw [exec_textcmd_accept hp hf hb]
      have hpos := packLen_pos hb
      have hfit : ws.length + packLen bs.length ≤ 65535 := of_decide_eq_true hf
      have hlen := textWords_length ws bs
      have ht : textReady (latchText (textWords ws bs) s) = true :=
        textReady_iff.2 ⟨_, _, _, _, rfl, rfl, rfl, rfl, by simp; omega, by omega, rfl⟩
      exact answers_nextWord ⟨hl, hw, ho, ht⟩
  · rw [exec_textcmd_refused hp (Bool.eq_false_iff.2 hf)]
    exact answers_refuse s

/-- An accepted request answers (R26, R32). -/
theorem answers_accept {i : Instr} {s : State} (hp : s.pc = .idle) (hl : latched s = true)
    (hw : s.wire = none) (ho : s.op = i.opcode) (hn : i.isWire = false) : Answers (exec i s) := by
  cases i with
  | wrb a bs =>
    show Answers (execWrb a bs s)
    unfold execWrb
    split
    · exact answers_refuse s
    · exact answers_framing_idle _ _ _ hp hl ⟨_, ho, by decide⟩
  | rdb | rd8 | rd16 | rd32 | wr8 | wr16 | wr32 | hostcmd | wake | chkid =>
    exact answers_framing_idle _ _ _ hp hl ⟨_, ho, by decide⟩
  | tryenq w =>
    rw [exec_tryenq_accept hp]
    exact answers_ready (pointReady_startAttempt (enqueueing_iff.2 ⟨hl, hw, .inl ho⟩))
  | enq w =>
    by_cases hb : s.cfg.retryBudget = 0
    · rw [exec_enq_zero hp w hb]
      exact answers_complete _ _
    · have ha : attemptsBelow { s with attempts := some 0#16 } = true :=
        attemptsBelow_iff.2 ⟨_, rfl, Nat.pos_of_ne_zero hb⟩
      rw [exec_enq_accept hp w hb]
      exact answers_ready (pointReady_startAttempt (s := { s with attempts := some 0#16 })
        (enqueueing_iff.2 ⟨hl, hw, .inr (.inl ⟨ho, ha⟩)⟩))
  | idle =>
    rw [exec_idle_accept hp]
    refine answers_ready (Bool.and_eq_true_iff.2 ⟨Bool.and_eq_true_iff.2 ⟨Bool.and_eq_true_iff.2
      ⟨engineReady_setUp rfl rfl rfl rfl, hl⟩, opAmong_iff.2 ⟨_, ho, by decide⟩⟩, ?_⟩)
    exact Option.isNone_iff_eq_none.2 hw
  | pack bs =>
    rw [exec_pack_accept hp]
    exact answers_complete _ _
  | textcmd ws bs => exact answers_textcmd_idle ws bs hp hl hw ho
  | wireRead | wireWrite | wireHostcmd | wireHostcmdM11 | wireWake => cases hn

/-! ## The rest of the invariant -/

/-- No fault bit is set but ILLEGAL_REQUEST (R33, R143). -/
def faultMild (f : BitVec 4) : Prop := f.getLsbD 1 = false ∧ f.getLsbD 2 = false ∧ f.getLsbD 3 = false

/-- What a block that serves requests keeps, whatever its program point (R27, R33, R142). -/
structure Serving (s : State) : Prop where
  config : configValid s.cfg = true
  bare : s.wire = none
  faults : faultMild s.fault
  memory : s.mem.wf = true

theorem faultReady_iff {s : State} (hp : s.pc ≠ .fault) : faultReady s = true ↔ faultMild s.fault := by
  simp only [faultReady, faultMild, hp, decide_false]
  cases s.fault.getLsbD 1 <;> cases s.fault.getLsbD 2 <;> cases s.fault.getLsbD 3 <;> decide

theorem faultMild_clear : faultMild 0b0000#4 := by
  unfold faultMild
  decide

theorem faultMild_illegal {f : BitVec 4} (h : faultMild f) : faultMild (f ||| faultIllegal) := by
  obtain ⟨h1, h2, h3⟩ := h
  simp only [faultMild, BitVec.getLsbD_or, h1, h2, h3]
  decide

theorem Serving.inv {s : State} (h : Serving s) (hf : s.pc ≠ .fault) (hp : pointReady s = true) : Inv s :=
  ⟨fun _ => h.config, hp, by simp [wireReady, h.bare], (faultReady_iff hf).2 h.faults, h.memory⟩

theorem Inv.serving {s : State} (h : Inv s) (hf : s.pc ≠ .fault) (hw : s.wire = none) : Serving s :=
  ⟨h.config hf, hw, (faultReady_iff hf).1 h.faults, h.memory⟩

/-- Chip-select is deasserted at IDLE. -/
theorem Inv.idle_cs {s : State} (h : Inv s) (hp : s.pc = .idle) : s.cs = false := by
  have hr := h.point
  unfold pointReady at hr
  simpa [hp] using hr

/-- A request that completes leaves an idle block (R32). -/
theorem Serving.inv_idle {s : State} (h : Serving s) (hp : s.pc = .idle) (hc : s.cs = false) : Inv s :=
  h.inv (by simp [hp]) (by simp [pointReady, hp, hc])

/-- What a computation does keeps the invariant, where the latches are ready for the point it goes to. -/
theorem inv_of_after {u t : State} (h : Serving u) (hc : u.cs = false) (a : After u t)
    (hp : t.pc ≠ .idle → t.pc ≠ .fault → pointReady t = true) : Inv t := by
  obtain ⟨k, e⟩ := a
  have config : configValid t.cfg = true := k.cfg ▸ h.config
  have bare : t.wire = none := k.wire.trans h.bare
  have memory : t.mem.wf = true := k.mem ▸ h.memory
  cases e with
  | goes bytes row txs txfrom txpos rx results resp fault idle stopped =>
    exact Serving.inv ⟨config, bare, fault ▸ h.faults, memory⟩ stopped (hp idle stopped)
  | completes r results resp fault idle txs =>
    exact Serving.inv_idle ⟨config, bare, fault ▸ h.faults, memory⟩ idle (k.cs.trans hc)
  | faults r results resp fault stopped txs =>
    obtain ⟨-, -, h3⟩ := h.faults
    refine ⟨fun n => absurd stopped n, by simp [pointReady, stopped, k.cs, hc],
      by simp [wireReady, bare], ?_, memory⟩
    simp only [faultReady, stopped, fault, BitVec.getLsbD_or, h3]
    cases u.fault.getLsbD 1 <;> cases u.fault.getLsbD 2 <;> decide

theorem Serving.refuse {s : State} (h : Serving s) : Serving (refuse s) :=
  ⟨h.config, h.bare, faultMild_illegal h.faults, h.memory⟩

theorem Serving.takeRequest {s : State} (h : Serving s) (r : Request) (rest : List Request) :
    Serving (takeRequest r rest s) := ⟨h.config, h.bare, h.faults, h.memory⟩

/-- A step of a request operation keeps the invariant, where the latches are ready for the point it goes
to. -/
theorem inv_of_acts {s t : State} (h : Serving s) (hf : s.pc ≠ .fault) (hc : s.pc = .idle → s.cs = false)
    (a : Acts s t) (hp : t.pc ≠ .idle → t.pc ≠ .fault → pointReady t = true) : Inv t := by
  cases a with
  | stopped fault same => contradiction
  | refused idle same => exact same ▸ h.refuse.inv_idle rfl (hc idle)
  | accept idle after => exact inv_of_after h (hc idle) after hp
  | select busy cs same =>
    subst same
    exact Serving.inv ⟨h.config, h.bare, h.faults, h.memory⟩ hf (hp busy hf)
  | exchange busy bytes cap i rx o cs txs txfrom txpos latch byte same =>
    subst same
    exact Serving.inv ⟨h.config, h.bare, h.faults, chipStore_wf _ _ h.memory⟩ hf (hp busy hf)
  | deselect busy cs after =>
    exact inv_of_after (u := deselect s) ⟨h.config, h.bare, h.faults, h.memory⟩ rfl after hp

/-! ## Steps that answer a state with the invariant -/

/-- The outcome is a next state that meets the invariant. -/
def Safe (o : Out) : Prop := ∃ t, o = .next t ∧ Inv t

theorem safe_exec {i : Instr} {s : State} (h : Serving s) (hf : s.pc ≠ .fault)
    (hc : s.pc = .idle → s.cs = false) (hn : i.isWire = false) (ha : Answers (exec i s)) :
    Safe (exec i s) := by
  obtain ⟨t, e, hp⟩ := ha
  exact ⟨t, e, inv_of_acts h hf hc (exec_acts hn e) hp⟩

/-- Every code of R81 is the code of an operation. -/
theorem decodeRequest_of_mem {r : Request} (h : reqOp r.q ∈ allOps) : ∃ i, decodeRequest r = .ok i := by
  simp only [allOps, framingOps, List.cons_append, List.nil_append, List.mem_cons, List.not_mem_nil,
    or_false] at h
  rcases h with h | h | h | h | h | h | h | h | h | h | h | h | h | h | h | h <;>
    simp [decodeRequest, h]

/-- An idle block answers: nothing to do, a request refused, or its ACCEPT step (R24, R84). -/
theorem safe_idle {s : State} (h : Inv s) (hp : s.pc = .idle) (hw : s.wire = none) : Safe (blockStep s) := by
  have hf : s.pc ≠ .fault := by simp [hp]
  have hs := h.serving hf hw
  have hc := h.idle_cs hp
  cases hr : s.reqs with
  | nil => exact ⟨s, blockStep_waiting hp hw hr, h⟩
  | cons r rest =>
    cases hd : decodeRequest r with
    | error x =>
      exact ⟨_, blockStep_reserved hp hw hr hd, (hs.takeRequest r rest).refuse.inv_idle rfl hc⟩
    | ok i =>
      rw [blockStep_accept hp hw hr hd]
      have hn := decodeRequest_request hd
      exact safe_exec (hs.takeRequest r rest) hf (fun _ => hc) hn
        (answers_accept hp rfl hw (decodeRequest_opcode hd) hn)

/-- A request in flight answers (R25, R26). -/
theorem safe_flight {s : State} (h : Inv s) (hf : s.pc ≠ .fault) (hi : s.pc ≠ .idle) (hw : s.wire = none) :
    Safe (blockStep s) := by
  obtain ⟨hl, st⟩ := stands_of_pointReady hi hf hw h.point
  obtain ⟨op, a, d, bs, ws, hop, ha, hd, hb, hws⟩ := latched_iff.1 hl
  have hmem : reqOp (reqWord op a d) ∈ allOps := by
    obtain ⟨o, ho, hm⟩ := st.op_mem
    obtain rfl : o = op := by simpa [hop] using ho.symm
    simpa using hm
  obtain ⟨i, hdec⟩ := decodeRequest_of_mem (r := ⟨reqWord op a d, bs, ws⟩) hmem
  have hcode : s.op = i.opcode := by
    rw [hop, ← decodeRequest_opcode hdec, reqOp_reqWord]
  have hl : latchedRequest s = .ok ⟨reqWord op a d, bs, ws⟩ := by
    simp only [latchedRequest, hop, ha, hd, hb, hws]
  rw [blockStep_flight hi hf hw hl hdec]
  exact safe_exec (h.serving hf hw) hf (fun hp => absurd hp hi) (decodeRequest_request hdec)
    (answers_flight hi hf h.point st hcode)

/-- What the invariant says of a placed wire transaction (log 9). -/
theorem wireReady_iff {s : State} {bytes : List Byte} (hw : s.wire = some bytes) :
    wireReady s = true ↔ (∃ i, decodeWire bytes = .ok i) ∧ (s.pc = .idle ∨ s.pc = .fx) := by
  cases hd : decodeWire bytes <;> simp [wireReady, hw, hd]

/-- A transaction without a request in flight meets the invariant, where its engine is ready. -/
theorem Inv.placed {s u : State} (h : Inv s) (hf : s.pc ≠ .fault) {bytes : List Byte}
    (hw : s.wire = some bytes) (hcfg : u.cfg = s.cfg) (hwu : u.wire = s.wire) (hfu : u.fault = s.fault)
    (hp : u.pc = .fx) (he : engineReady u = true) (hm : u.mem.wf = true) : Inv u := by
  have hpu : u.pc ≠ .fault := by simp [hp]
  refine ⟨fun _ => hcfg ▸ h.config hf, by simp [pointReady, hp, he, hwu, hw], ?_, ?_, hm⟩
  · exact (wireReady_iff (hwu.trans hw)).2 ⟨((wireReady_iff hw).1 h.row).1, .inr hp⟩
  · exact (faultReady_iff hpu).2 (hfu ▸ (faultReady_iff hf).1 h.faults)

/-- A placed wire transaction answers, from SEL to DESEL (R31, log 9). -/
theorem safe_bareXfer {s : State} {bytes b : List Byte} {cap : Nat} (h : Inv s) (hf : s.pc ≠ .fault)
    (hw : s.wire = some b) : Safe (bareXfer bytes cap s) := by
  obtain hp | hp := ((wireReady_iff hw).1 h.row).2
  · rw [bareXfer_idle hp, xferStep_select _ (by exact h.idle_cs hp)]
    exact ⟨_, rfl, h.placed hf hw rfl rfl rfl rfl (engineReady_setUp rfl rfl rfl rfl) h.memory⟩
  · have hi : s.pc ≠ .idle := by simp [hp]
    obtain ⟨tx, c, i, rx, hb, hcap, hpos, hrx, hle⟩ :=
      engineReady_iff.1 (engineReady_of_pointReady hi hf h.point)
    rw [bareXfer_fx hp]
    cases hc : s.cs with
    | false =>
      rw [xferStep_select _ hc]
      exact ⟨_, rfl, h.placed hf hw rfl rfl rfl hp
        (engineReady_iff.2 ⟨tx, c, i, rx, hb, hcap, hpos, hrx, hle⟩) h.memory⟩
    | true =>
      cases ho : tx[i]? with
      | some o =>
        have hlt : i < tx.length := (List.getElem?_eq_some_iff.1 ho).1
        rw [xferStep_exchange _ hc hb hpos ho hcap hrx]
        exact ⟨_, rfl, h.placed hf hw rfl rfl rfl hp
          (engineReady_iff.2 ⟨tx, c, i + 1, _, hb, hcap, rfl, rfl, hlt⟩) (chipStore_wf _ _ h.memory)⟩
      | none =>
        rw [xferStep_deselect _ hc hb hpos ho]
        refine ⟨_, rfl, Serving.inv_idle ⟨h.config hf, rfl, ?_, h.memory⟩ rfl rfl⟩
        exact (faultReady_iff hf).1 h.faults

theorem safe_wire {s : State} {bytes : List Byte} (h : Inv s) (hf : s.pc ≠ .fault)
    (hw : s.wire = some bytes) : Safe (blockStep s) := by
  obtain ⟨i, hd⟩ := ((wireReady_iff hw).1 h.row).1
  obtain ⟨tx, cap, -, he⟩ := exec_wire (decodeWire_wire hd)
  rw [blockStep_wire hf hw hd, he s]
  exact safe_bareXfer h hf hw

theorem safe_blockStep {s : State} (h : Inv s) : Safe (blockStep s) := by
  by_cases hf : s.pc = .fault
  · exact ⟨s, blockStep_fault hf, h⟩
  · cases hw : s.wire with
    | some bytes => exact safe_wire h hf hw
    | none =>
      by_cases hi : s.pc = .idle
      · exact safe_idle h hi hw
      · exact safe_flight h hf hi hw

/-! ## The other agents -/

/-- The invariant goes by the latches, the parameters and the fault register, and by chip memory only for
its canonical form. -/
theorem Inv.of_eq {s u : State} (h : Inv s) (hcfg : u.cfg = s.cfg) (hp : u.pc = s.pc)
    (hw : u.wire = s.wire) (hf : u.fault = s.fault) (hr : pointReady u = pointReady s)
    (hm : u.mem.wf = true) : Inv u := by
  refine ⟨fun n => hcfg ▸ h.config (hp ▸ n), hr.trans h.point, ?_, ?_, hm⟩
  · simpa only [wireReady, hw, hp] using h.row
  · simpa only [faultReady, hf, hp] using h.faults

/-- The schedule is no part of the invariant (R157). -/
theorem Inv.sched {s : State} (h : Inv s) (rest : List Turn) : Inv { s with sched := rest } :=
  h.of_eq rfl rfl rfl rfl rfl h.memory

/-- Reset leaves an idle block, or under an invalid configuration one in FAULT (R142, R163). -/
theorem inv_applyReset {s : State} (h : s.mem.wf = true) : Inv (applyReset s) := by
  have memory : (applyReset s).mem.wf = true := by simpa using h
  cases hc : configValid s.cfg with
  | true =>
    refine Serving.inv_idle ⟨by simpa using hc, by simp, ?_, memory⟩ (by simp [hc]) (by simp)
    simp only [applyReset_fault, hc, if_true]
    exact faultMild_clear
  | false =>
    refine ⟨fun n => absurd (by simp [hc]) n, by simp [pointReady, hc], by simp [wireReady], ?_, memory⟩
    simp [faultReady, hc, faultConfig]

/-- A turn of the requester, the chip or reset keeps the invariant. -/
theorem inv_agentTurn {s : State} (h : Inv s) (a : Turn) : Inv (agentTurn a s) := by
  have memory := agentTurn_wf a h.memory
  cases a with
  | block => exact h
  | request | take | answer | poke | advance => exact h.of_eq rfl rfl rfl rfl rfl memory
  | consume =>
    refine h.of_eq (chipConsume_cfg s) (chipConsume_pc s) (chipConsume_wire s) (chipConsume_fault s) ?_ memory
    show pointReady (chipConsume s) = _
    rcases chipConsume_cases s with e | ⟨_, _, -, -, -, e⟩ <;> rw [e]
    rfl
  | reset => exact inv_applyReset h.memory

/-- From a state that meets the invariant a step of every agent answers one that meets it. -/
theorem safe_step {s : State} (h : Inv s) : Safe (step s) := by
  unfold step
  split
  · exact safe_blockStep h
  · exact safe_blockStep (h.sched _)
  · exact ⟨_, rfl, inv_agentTurn (h.sched _) _⟩

end Sys2Proof.Machine

namespace Sys2Proof
open Machine

/-- Settles O54: a step answers one state only, and from the invariant it answers one that meets it
(`safe_step`). -/
theorem everyStepKeepsTheInvariant : Obligations.EveryStepKeepsTheInvariant := by
  intro s t h hs
  obtain ⟨u, hu, hi⟩ := safe_step h
  obtain rfl : u = t := by simpa [hs] using hu.symm
  exact hi

/-- Settles O55: from the invariant a step answers (`safe_step`). -/
theorem noLatchIsReadBeforeItIsWritten : Obligations.NoLatchIsReadBeforeItIsWritten := by
  intro s h
  obtain ⟨t, ht, -⟩ := safe_step h
  exact ⟨t, ht⟩

/-- Settles O53: a block that reset leaves idle holds no latch the invariant needs (R45). -/
theorem invariantHoldsAtReset : Obligations.InvariantHoldsAtReset := by
  have initial : ∀ c, configValid c = true → Inv (State.initial c) := fun c hc =>
    Serving.inv_idle ⟨hc, rfl, faultMild_clear, rfl⟩ rfl rfl
  exact ⟨initial Config.tc (by decide), initial⟩

end Sys2Proof
end

section
/-! SUPPORT. The bus trace (spec/10_state.md R31, spec/30_encoding.md R70): it stays a sequence of
transactions that agrees with chip-select, because every step of every agent either leaves both alone or takes
one bus event at its place. -/
namespace Sys2Proof.Machine

theorem busOpen_append (b : Bool) (l m : List BusEvent) :
    busOpen b (l ++ m) = (busOpen b l).bind fun c => busOpen c m := by
  induction l generalizing b with
  | nil => simp [busOpen]
  | cons e l ih => cases b <;> cases e <;> simp [busOpen, ih]

section
variable {s t : State} (h : s.wellFramed)
include h

theorem wellFramed_of_eq (ht : t.trace = s.trace) (hc : t.cs = s.cs) : t.wellFramed := by
  rw [State.wellFramed, ht, hc]
  exact h

/-- One more event, at its place. -/
theorem wellFramed_event {e : BusEvent} (ht : t.trace = s.trace ++ [e])
    (he : busOpen s.cs [e] = some t.cs) : t.wellFramed := by
  rw [State.wellFramed, ht, busOpen_append, h]
  exact he

theorem wellFramed_select (hc : s.cs = false) : (select s).wellFramed :=
  wellFramed_event h rfl (by rw [hc]; rfl)

theorem wellFramed_exchange (hc : s.cs = true) (bytes : List Byte) (cap i : Nat) (rx : List Byte)
    (o : Byte) : (exchange bytes cap i rx o s).wellFramed :=
  wellFramed_event h rfl (by rw [exchange_cs, hc]; rfl)

theorem wellFramed_deselect (hc : s.cs = true) : (deselect s).wellFramed :=
  wellFramed_event h rfl (by rw [hc]; rfl)

theorem wellFramed_after (a : After s t) : t.wellFramed := wellFramed_of_eq h a.kept.trace a.kept.cs

/-- A step of a request operation. -/
theorem wellFramed_acts (a : Acts s t) : t.wellFramed := by
  cases a with
  | stopped fault same => exact same ▸ h
  | refused idle same => exact same ▸ wellFramed_of_eq h rfl rfl
  | accept idle after => exact wellFramed_after h after
  | select busy cs same => exact same ▸ wellFramed_select h cs
  | exchange busy bytes cap i rx o cs txs txfrom txpos latch byte same =>
    exact same ▸ wellFramed_exchange h cs bytes cap i rx o
  | deselect busy cs after => exact wellFramed_after (wellFramed_deselect h cs) after

/-- A step of a transaction without a request. -/
theorem wellFramed_bareEvent {u : State} (hu : Entered s u) (e : BareEvent u t) : t.wellFramed := by
  have hu : u.wellFramed := by
    rcases hu with rfl | ⟨bytes, cap, rfl⟩
    · exact h
    · exact wellFramed_of_eq h rfl rfl
  cases e with
  | select cs same => exact same ▸ wellFramed_select hu cs
  | exchange bytes cap i rx o cs txs txpos byte same =>
    exact same ▸ wellFramed_exchange hu cs bytes cap i rx o
  | deselect cs same => exact same ▸ wellFramed_of_eq (wellFramed_deselect hu cs) rfl rfl

theorem wellFramed_exec {i : Instr} (he : exec i s = .next t) : t.wellFramed := by
  cases hw : i.isWire with
  | false => exact wellFramed_acts h (exec_acts hw he)
  | true =>
    obtain rfl | ⟨u, hu, e⟩ := exec_wire_acts hw he
    · exact h
    · exact wellFramed_bareEvent h hu e

theorem wellFramed_blockStep (hb : blockStep s = .next t) : t.wellFramed := by
  cases blockStep_cases hb with
  | still same why => exact same ▸ h
  | refused r rest idle bare port x decode next => exact next ▸ wellFramed_of_eq h rfl rfl
  | accepted r rest i idle bare port decode run =>
    exact wellFramed_exec (s := takeRequest r rest s) (wellFramed_of_eq h rfl rfl) run
  | flight r i busy live bare latched decode run => exact wellFramed_exec h run
  | wire bytes i live placed decode run => exact wellFramed_exec h run

/-- Reset ends a transaction in flight with DESEL (R164). -/
theorem wellFramed_applyReset : (applyReset s).wellFramed := by
  cases hc : s.cs with
  | false => exact wellFramed_of_eq h (by simp [hc]) (by simp [hc])
  | true => exact wellFramed_of_eq (wellFramed_deselect h hc) (by simp [hc]) (by simp)

theorem wellFramed_agentTurn (a : Turn) : (agentTurn a s).wellFramed := by
  cases a with
  | block => exact h
  | request | take | answer | poke | advance => exact wellFramed_of_eq h rfl rfl
  | consume => exact wellFramed_of_eq h (chipConsume_trace s) (chipConsume_cs s)
  | reset => exact wellFramed_applyReset h

end

end Sys2Proof.Machine

namespace Sys2Proof
open Machine

/-- Settles O56, by the agent that takes the step. -/
theorem busTraceStaysFramed : Obligations.BusTraceStaysFramed := by
  intro s t h hs
  obtain ⟨rest, -, hb⟩ | ⟨a, rest, -, -, rfl⟩ := step_cases hs
  · exact wellFramed_blockStep (s := { s with sched := rest }) h hb
  · exact wellFramed_agentTurn (s := { s with sched := rest }) h a

end Sys2Proof
end

section
/-! SUPPORT. What a step leaves unchanged, delivers and adds to the fault register, for every instruction
(spec/10_state.md R23 to R27, R33, spec/20_memory.md R52): read off what the step does (`Acts`, and `BareEvent`
for a transaction without a request). -/
namespace Sys2Proof.Machine

/-! ## The surroundings -/

theorem sameAround_refl (s : State) : sameAround s s := ⟨rfl, rfl, rfl, rfl, rfl, rfl, rfl, rfl, rfl⟩

theorem Kept.sameAround {u t : State} (k : Kept u t) : sameAround u t :=
  ⟨k.cfg, k.reqs, k.op, k.addr, k.data, k.inbytes, k.inwords, k.consumed, k.sched⟩

theorem sameAround_acts {s t : State} (a : Acts s t) : sameAround s t := by
  cases a with
  | stopped fault same => exact same ▸ sameAround_refl s
  | refused idle same => exact same ▸ sameAround_refl s
  | accept idle after => exact after.kept.sameAround
  | select busy cs same => exact same ▸ sameAround_refl s
  | exchange busy bytes cap i rx o cs txs txfrom txpos latch byte same => exact same ▸ sameAround_refl s
  | deselect busy cs after => exact after.kept.sameAround

theorem wire_acts {s t : State} (a : Acts s t) : t.wire = s.wire := by
  cases a with
  | stopped fault same => exact same ▸ rfl
  | refused idle same => exact same ▸ rfl
  | accept idle after => exact after.kept.wire
  | select busy cs same => exact same ▸ rfl
  | exchange busy bytes cap i rx o cs txs txfrom txpos latch byte same => exact same ▸ rfl
  | deselect busy cs after => exact after.kept.wire

/-! ## Chip memory (R52) -/

/-- The exchange of a byte stores at the address `busStore` names. -/
theorem busStore_exchange {s : State} {bytes : List Byte} {i : Nat} {o : Byte} (hc : s.cs = true)
    (hb : s.txs = some bytes) (hi : s.txpos = some i) (ho : bytes[i]? = some o) :
    busStore s = storeAddr (bytes.take i) := by
  have hlt : i < bytes.length := (List.getElem?_eq_some_iff.1 ho).1
  simp only [busStore, hc, hb, hi, hlt, if_true]

theorem sameMemory_of_eq {s t : State} (hm : t.mem = s.mem) (hw : t.woSeen = s.woSeen) : sameMemory s t :=
  ⟨fun x _ => by rw [hm], .inl hw⟩

theorem sameMemory_select {s : State} (hc : s.cs = false) : sameMemory s (select s) :=
  ⟨fun _ _ => rfl, .inr ⟨hc, rfl⟩⟩

theorem sameMemory_exchange {s : State} {bytes : List Byte} {i : Nat} {o : Byte} (cap : Nat)
    (rx : List Byte) (hc : s.cs = true) (hb : s.txs = some bytes) (hi : s.txpos = some i)
    (ho : bytes[i]? = some o) : sameMemory s (exchange bytes cap i rx o s) :=
  ⟨fun _ hx => chipStore_read_other _ _ _ (busStore_exchange hc hb hi ho ▸ hx), .inl rfl⟩

theorem sameMemory_acts {s t : State} (a : Acts s t) : sameMemory s t := by
  cases a with
  | stopped fault same => exact same ▸ sameMemory_of_eq rfl rfl
  | refused idle same => exact same ▸ sameMemory_of_eq rfl rfl
  | accept idle after => exact sameMemory_of_eq after.kept.mem after.kept.woSeen
  | select busy cs same => exact same ▸ sameMemory_select cs
  | exchange busy bytes cap i rx o cs txs txfrom txpos latch byte same =>
    exact same ▸ sameMemory_exchange cap rx cs txs txpos byte
  | deselect busy cs after => exact sameMemory_of_eq after.kept.mem after.kept.woSeen

/-! ## Transactions without a request (log 9) -/

/-- What no step of a transaction without a request changes. -/
def Unasked (s t : State) : Prop :=
  sameAround s t ∧ sameRing s t ∧ sameText s t ∧ t.fault = s.fault ∧ t.results = s.results ∧
    t.resp = s.resp

theorem unasked_refl (s : State) : Unasked s s :=
  ⟨sameAround_refl s, ⟨rfl, rfl, rfl, rfl, rfl⟩, ⟨rfl, rfl, rfl, rfl⟩, rfl, rfl, rfl⟩

theorem unasked_bareEvent {s u t : State} (hu : Entered s u) (e : BareEvent u t) : Unasked s t := by
  have entered : Unasked s u := by
    obtain rfl | ⟨bytes, cap, rfl⟩ := hu
    · exact unasked_refl _
    · exact unasked_refl s
  cases e with
  | select cs same => exact same ▸ entered
  | exchange bytes cap i rx o cs txs txpos byte same => exact same ▸ entered
  | deselect cs same => exact same ▸ entered

/-- The first exchange of a transaction stores nothing: no marker is sent yet (R71). -/
theorem chipStore_nil (m : Memory) (o : Byte) : chipStore m [] o = m := rfl

theorem sameMemory_bareEvent {s u t : State} (hu : Entered s u) (e : BareEvent u t) : sameMemory s t := by
  rcases hu with rfl | ⟨tx, c, rfl⟩
  · cases e with
    | select cs same => exact same ▸ sameMemory_select cs
    | exchange bytes cap i rx o cs txs txpos byte same =>
      exact same ▸ sameMemory_exchange cap rx cs txs txpos byte
    | deselect cs same => exact same ▸ sameMemory_of_eq rfl rfl
  · cases e with
    | select cs same => exact same ▸ ⟨fun _ _ => rfl, .inr ⟨cs, rfl⟩⟩
    | exchange bytes cap i rx o cs txs txpos byte same =>
      obtain rfl : i = 0 := by simpa using txpos.symm
      exact same ▸ sameMemory_of_eq (chipStore_nil _ o) rfl
    | deselect cs same => exact same ▸ sameMemory_of_eq rfl rfl

theorem exec_unasked {i : Instr} {s t : State} (hw : i.isWire = true) (h : exec i s = .next t) :
    Unasked s t ∧ sameMemory s t := by
  obtain rfl | ⟨u, hu, e⟩ := exec_wire_acts hw h
  · exact ⟨unasked_refl _, sameMemory_of_eq rfl rfl⟩
  · exact ⟨unasked_bareEvent hu e, sameMemory_bareEvent hu e⟩

/-- No instruction touches its surroundings. -/
theorem exec_sameAround {i : Instr} {s t : State} (h : exec i s = .next t) : sameAround s t := by
  cases hw : i.isWire with
  | false => exact sameAround_acts (exec_acts hw h)
  | true =>
    obtain ⟨⟨around, -⟩, -⟩ := exec_unasked hw h
    exact around

/-! ## The fault register (R33) -/

theorem After.fault {u t : State} (a : After u t) :
    t.fault = u.fault ∨ t.fault = u.fault ||| faultDivergence ∧ t.pc = .fault := by
  cases a.ends with
  | goes bytes row txs txfrom txpos rx results resp fault idle stopped => exact .inl fault
  | completes r results resp fault idle txs => exact .inl fault
  | faults r results resp fault stopped txs => exact .inr ⟨fault, stopped⟩

/-- A request sets no fault bit but the one of fault entry, or of its refusal at ACCEPT (R140, R141). -/
theorem exec_fault {i : Instr} {s t : State} (hw : i.isWire = false) (h : exec i s = .next t) :
    t.fault = s.fault ∨ t.fault = s.fault ||| faultDivergence ∧ t.pc = .fault ∨
      t.fault = s.fault ||| faultIllegal ∧ i.wf = false := by
  have computed : ∀ u, u.fault = s.fault → After u t → t.fault = s.fault ∨
      t.fault = s.fault ||| faultDivergence ∧ t.pc = .fault ∨
        t.fault = s.fault ||| faultIllegal ∧ i.wf = false := by
    intro u hu a
    obtain e | ⟨e, hp⟩ := a.fault
    · exact .inl (e.trans hu)
    · exact .inr (.inl ⟨hu ▸ e, hp⟩)
  rcases exec_runs hw h with (⟨-, ha⟩ | ⟨k, hk, hr, -⟩ | ⟨-, rfl⟩) | ⟨-, rfl, hwf⟩
  · exact computed s rfl ha
  · rw [hr] at h
    rcases xferStep_cases h with ⟨-, rfl⟩ | ⟨-, -, -, -, -, -, -, -, -, -, -, rfl⟩ | ⟨-, -, -, -, -, -, ht⟩
    · exact .inl rfl
    · exact .inl rfl
    · exact computed (deselect s) rfl (hk _ _ ht)
  · exact .inl rfl
  · exact .inr (.inr ⟨rfl, hwf⟩)

/-- The fault register gains at most ILLEGAL_REQUEST or POINTER_DIVERGENCE. -/
def FaultGrows (s t : State) : Prop :=
  t.fault = s.fault ∨ t.fault = s.fault ||| faultDivergence ∨ t.fault = s.fault ||| faultIllegal

theorem faultGrows_exec {i : Instr} {s t : State} (h : exec i s = .next t) : FaultGrows s t := by
  cases hw : i.isWire with
  | false =>
    obtain e | ⟨e, -⟩ | ⟨e, -⟩ := exec_fault hw h
    · exact .inl e
    · exact .inr (.inl e)
    · exact .inr (.inr e)
  | true =>
    obtain ⟨⟨-, -, -, e, -⟩, -⟩ := exec_unasked hw h
    exact .inl e

theorem faultGrows_blockStep {s t : State} (h : blockStep s = .next t) : FaultGrows s t := by
  cases blockStep_cases h with
  | still same why => exact .inl (same ▸ rfl)
  | refused r rest idle bare port x decode next => exact .inr (.inr (next ▸ rfl))
  | accepted r rest i idle bare port decode run => exact faultGrows_exec (s := takeRequest r rest s) run
  | flight r i busy live bare latched decode run => exact faultGrows_exec run
  | wire bytes i live placed decode run => exact faultGrows_exec run

/-- No agent but the block and reset touches the fault register. -/
theorem agentTurn_fault {a : Turn} (h : a ≠ .reset) (s : State) : (agentTurn a s).fault = s.fault := by
  cases a with
  | block | request | take | answer | poke | advance => rfl
  | consume => exact chipConsume_fault s
  | reset => contradiction

/-- Bits set stay set, and the reserved bit is not set. -/
theorem FaultGrows.sticky {s t : State} (h : FaultGrows s t) :
    t.fault &&& s.fault = s.fault ∧ (s.fault.getLsbD 3 = false → t.fault.getLsbD 3 = false) := by
  have grown : ∀ b : BitVec 4, b.getLsbD 3 = false → t.fault = s.fault ||| b →
      t.fault &&& s.fault = s.fault ∧ (s.fault.getLsbD 3 = false → t.fault.getLsbD 3 = false) := by
    intro b hb e
    refine ⟨?_, fun h3 => by rw [e, BitVec.getLsbD_or, h3, hb]; rfl⟩
    apply BitVec.eq_of_getLsbD_eq
    intro i _
    rw [e, BitVec.getLsbD_and, BitVec.getLsbD_or]
    cases s.fault.getLsbD i <;> simp
  obtain e | e | e := h
  · exact grown 0#4 (by decide) (by rw [e, BitVec.or_zero])
  · exact grown faultDivergence (by decide) e
  · exact grown faultIllegal (by decide) e

/-! ## Results (R23, R32) -/

/-- One result and an end at IDLE or FAULT, or none and the request goes on. -/
def OneResult (s t : State) : Prop :=
  (t.results = s.results ∧ t.resp = s.resp ∧ t.pc ≠ .idle ∧ t.pc ≠ .fault) ∨
    ∃ r, t.results = s.results ++ [r] ∧ t.resp = s.resp ++ [r] ∧ (t.pc = .idle ∨ t.pc = .fault)

theorem After.oneResult {u t : State} (a : After u t) : OneResult u t := by
  cases a.ends with
  | goes bytes row txs txfrom txpos rx results resp fault idle stopped =>
    exact .inl ⟨results, resp, idle, stopped⟩
  | completes r results resp fault idle txs => exact .inr ⟨r, results, resp, .inl idle⟩
  | faults r results resp fault stopped txs => exact .inr ⟨r, results, resp, .inr stopped⟩

theorem oneResult_acts {s t : State} (hf : s.pc ≠ .fault) (a : Acts s t) : OneResult s t := by
  cases a with
  | stopped fault same => contradiction
  | refused idle same => subst same; exact .inr ⟨_, rfl, rfl, .inl rfl⟩
  | accept idle after => exact after.oneResult
  | select busy cs same => exact same ▸ .inl ⟨rfl, rfl, busy, hf⟩
  | exchange busy bytes cap i rx o cs txs txfrom txpos latch byte same =>
    exact same ▸ .inl ⟨rfl, rfl, busy, hf⟩
  | deselect busy cs after => exact after.oneResult

/-! ## The counters (R115, R129, R133) -/

/-- The latches of the text-command sequencer and the count of attempts are the same. -/
def Counted (s t : State) : Prop := sameText s t ∧ t.attempts = s.attempts

theorem counted_refl (s : State) : Counted s s := ⟨⟨rfl, rfl, rfl, rfl⟩, rfl⟩

/-- One bus event with a frame that SEL and an exchange meet, or the computation of the DESEL step. -/
theorem xferStep_frame {R : State → Prop} {k : State → Out} {s t : State} (h : xferStep k s = .next t)
    (sel : R (select s)) (x : ∀ bytes cap i rx o, R (exchange bytes cap i rx o s)) :
    R t ∨ k (deselect s) = .next t := by
  rcases xferStep_cases h with ⟨-, rfl⟩ | ⟨-, -, -, -, -, -, -, -, -, -, -, rfl⟩ | ⟨-, -, -, -, -, -, hk⟩
  · exact .inl sel
  · exact .inl (x _ _ _ _ _)
  · exact .inr hk

/-- One bus event counts nothing. -/
theorem xferStep_counted {k : State → Out} {s t : State} (h : xferStep k s = .next t) :
    Counted s t ∨ k (deselect s) = .next t :=
  xferStep_frame h (counted_refl s) fun _ _ _ _ _ => counted_refl s

/-- An attempt counts nothing; its operation does, where the attempt ends (R107, R115). -/
theorem attempt_counted {word : State → (Word → Out) → Out} {outcome : Verdict → State → Out} {s t : State}
    (hw : Gives word) (h : attempt word outcome s = .next t) :
    Counted s t ∨ ∃ v u, Counted s u ∧ outcome v u = .next t := by
  rcases attempt_cases h with ⟨-, rfl⟩ | ⟨-, hx⟩ | ⟨-, hx⟩ | ⟨-, hx⟩ | ⟨-, hx⟩
  · exact .inl (counted_refl _)
  · obtain hc | hk := xferStep_counted hx
    · exact .inl hc
    · obtain ⟨rx, -, hk⟩ := readLatch_next hk
      cases hk
      exact .inl (counted_refl s)
  · obtain hc | hk := xferStep_counted hx
    · exact .inl hc
    · obtain ⟨rx, -, hk⟩ := readLatch_next hk
      obtain ⟨ro, -, hk⟩ := readLatch_next hk
      obtain ⟨-, rfl⟩ | ⟨f, -, -, hk⟩ | ⟨f, -, -, hk⟩ := decideAttempt_cases hk
      · exact .inl (counted_refl s)
      · obtain ⟨w, hk⟩ := hw _ _ _ hk
        cases hk
        exact .inl (counted_refl s)
      · exact .inr ⟨_, { latchWo rx ro (deselect s) with free := some f }, counted_refl s, hk⟩
  · obtain hc | hk := xferStep_counted hx
    · exact .inl hc
    · obtain ⟨wo, -, hk⟩ := readLatch_next hk
      cases hk
      exact .inl (counted_refl s)
  · obtain hc | hk := xferStep_counted hx
    · exact .inl hc
    · exact .inr ⟨_, deselect s, counted_refl s, hk⟩

theorem tryenqOutcome_counted {v : Verdict} {u t : State} (h : tryenqOutcome v u = .next t) :
    Counted u t := by
  obtain ⟨wo, -, h⟩ := readLatch_next h
  cases v <;> cases h <;> exact counted_refl u

theorem enqOutcome_sameText {v : Verdict} {u t : State} (h : retry enqFinish v u = .next t) :
    sameText u t := by
  obtain ⟨n, -, h⟩ := readLatch_next h
  cases v with
  | enqueued => cases h; exact ⟨rfl, rfl, rfl, rfl⟩
  | rejected =>
    simp only at h
    split at h <;> cases h <;> exact ⟨rfl, rfl, rfl, rfl⟩

theorem sameText_trans {s u t : State} (h : sameText s u) (k : sameText u t) : sameText s t := by
  obtain ⟨h1, h2, h3, h4⟩ := h
  obtain ⟨k1, k2, k3, k4⟩ := k
  exact ⟨k1.trans h1, k2.trans h2, k3.trans h3, k4.trans h4⟩

/-- TRYENQ makes one attempt and counts none (R114). -/
theorem exec_tryenq_counted {w : Word} {s t : State} (h : exec (.tryenq w) s = .next t) : Counted s t := by
  by_cases hp : s.pc = .idle
  · rw [exec_tryenq_accept hp] at h
    cases h
    exact counted_refl s
  · rw [exec_tryenq_busy hp] at h
    obtain hc | ⟨v, u, ⟨ht, ha⟩, ho⟩ := attempt_counted (gives_const w) h
    · exact hc
    · obtain ⟨ht', ha'⟩ := tryenqOutcome_counted ho
      exact ⟨sameText_trans ht ht', ha'.trans ha⟩

/-- ENQ leaves the text latches alone (R116). -/
theorem exec_enq_sameText {w : Word} {s t : State} (h : exec (.enq w) s = .next t) : sameText s t := by
  by_cases hp : s.pc = .idle
  · by_cases hb : s.cfg.retryBudget = 0
    · rw [exec_enq_zero hp w hb] at h
      cases h
      exact ⟨rfl, rfl, rfl, rfl⟩
    · rw [exec_enq_accept hp w hb] at h
      cases h
      exact ⟨rfl, rfl, rfl, rfl⟩
  · rw [exec_enq_busy hp] at h
    obtain ⟨ht, -⟩ | ⟨v, u, ⟨ht, -⟩, ho⟩ := attempt_counted (gives_const w) h
    · exact ht
    · exact sameText_trans ht (enqOutcome_sameText ho)

/-- IDLE counts nothing and computes no occupancy (R118). -/
def Compared (s t : State) : Prop :=
  sameText s t ∧ t.attempts = s.attempts ∧ t.occ = s.occ ∧ t.free = s.free ∧ t.fault = s.fault

theorem compared_refl (s : State) : Compared s s := ⟨⟨rfl, rfl, rfl, rfl⟩, rfl, rfl, rfl, rfl⟩

theorem exec_idle_compared {s t : State} (h : exec .idle s = .next t) : Compared s t := by
  have h' : execIdle s = .next t := h
  have event : ∀ {k : State → Out}, xferStep k s = .next t →
      Compared s t ∨ k (deselect s) = .next t := fun hx =>
    xferStep_frame hx (compared_refl s) fun _ _ _ _ _ => compared_refl s
  cases hp : s.pc with
  | idle | fault =>
    simp only [execIdle, hp] at h'
    cases h'
    exact compared_refl s
  | iro =>
    obtain hc | hk := event ((exec_idle_iro hp).symm.trans h)
    · exact hc
    · obtain ⟨rx, -, hk⟩ := readLatch_next hk
      cases hk
      exact compared_refl s
  | iwo =>
    obtain hc | hk := event ((exec_idle_iwo hp).symm.trans h)
    · exact hc
    · obtain ⟨rx, -, hk⟩ := readLatch_next hk
      obtain ⟨ro, -, hk⟩ := readLatch_next hk
      cases hk
      exact compared_refl s
  | fx | qro | qwo | qww | qwp =>
    simp only [execIdle, hp] at h'
    cases h'

/-- PACK has no bus event and writes no latch (R129, R131). -/
def Packed (s t : State) : Prop :=
  sameText s t ∧ sameRing s t ∧ sameEngine s t ∧ t.mem = s.mem ∧ t.trace = s.trace ∧ t.fault = s.fault

theorem packed_refl (s : State) : Packed s s :=
  ⟨⟨rfl, rfl, rfl, rfl⟩, ⟨rfl, rfl, rfl, rfl, rfl⟩, ⟨rfl, rfl, rfl, rfl, rfl⟩, rfl, rfl, rfl⟩

theorem exec_pack_packed {bs : List Byte} {s t : State} (h : exec (.pack bs) s = .next t) : Packed s t := by
  have h : execPack bs s = .next t := h
  unfold execPack at h
  split at h
  · cases h; exact packed_refl s
  · cases h; exact packed_refl _
  · cases h

/-- Of the five, only a TEXTCMD can be ill-formed (R84). -/
theorem textcmd_of_not_wf {i : Instr} (hf : i.isFraming = false) (hw : i.isWire = false)
    (h : i.wf = false) : ∃ ws bs, i = .textcmd ws bs ∧ textFits ws bs = false := by
  cases i with
  | textcmd ws bs =>
    refine ⟨ws, bs, rfl, Bool.eq_false_iff.2 fun e => ?_⟩
    simp [Instr.wf, Instr.illFormed, e] at h
  | tryenq | enq | idle | pack => cases h
  | rdb | wrb | rd8 | rd16 | rd32 | wr8 | wr16 | wr32 | hostcmd | wake | chkid => cases hf
  | wireRead | wireWrite | wireHostcmd | wireHostcmdM11 | wireWake => cases hw

/-! ## Waiting requests (R24) -/

theorem agentTurn_reqs {a : Turn} (h : ∀ r, a ≠ .request r) (s : State) :
    (agentTurn a s).reqs = s.reqs := by
  cases a with
  | request r => exact absurd rfl (h r)
  | block | take | answer | poke | advance => rfl
  | consume => exact chipConsume_reqs s
  | reset => exact applyReset_reqs s

theorem exec_reqs {i : Instr} {s t : State} (h : exec i s = .next t) : t.reqs = s.reqs := by
  obtain ⟨-, e, -⟩ := exec_sameAround h
  exact e

end Sys2Proof.Machine

namespace Sys2Proof
open Machine

/-- Settles O31: what holds of all five is read off what a step does, the rest by the operation. -/
theorem ringAndPayloadFrame : Obligations.RingAndPayloadFrame := by
  intro i s t hf hw h
  have a := exec_acts hw h
  refine ⟨sameAround_acts a, wire_acts a, sameMemory_acts a, ?_, ?_, ?_, ?_, ?_⟩
  · obtain e | e | ⟨e, hi⟩ := exec_fault hw h
    · exact .inl e
    · exact .inr (.inl e)
    · exact .inr (.inr ⟨e, textcmd_of_not_wf hf hw hi⟩)
  · rintro w rfl
    exact exec_tryenq_counted h
  · rintro w rfl
    exact exec_enq_sameText h
  · rintro rfl
    exact exec_idle_compared h
  · rintro bs rfl
    exact exec_pack_packed h

/-- Settles O41, by the bus event the step takes. -/
theorem wireFrame : Obligations.WireFrame := by
  intro i s t hw h
  obtain ⟨⟨around, ring, text, fault, results, resp⟩, memory⟩ := exec_unasked hw h
  exact ⟨around, ring, text, memory, fault, results, resp⟩

/-- Settles O48: the block only adds bits 0 and 1, and no other agent but reset writes the register. -/
theorem faultBitsAreSticky : Obligations.FaultBitsAreSticky := by
  intro s t h hr
  obtain ⟨rest, -, hb⟩ | ⟨a, rest, hs, -, rfl⟩ := step_cases h
  · exact (faultGrows_blockStep hb).sticky
  · have ha : a ≠ .reset := by
      rintro rfl
      simp [hs] at hr
    exact FaultGrows.sticky (.inl (agentTurn_fault ha { s with sched := rest }))

/-- Settles O49, by what the block's step takes from the port and by the agents' turns. -/
theorem requestsWaitTheirTurn : Obligations.RequestsWaitTheirTurn := by
  intro s
  refine ⟨by simp [State.reqReady], fun t h => ?_, fun r => rfl, fun a ha => agentTurn_reqs ha s⟩
  cases blockStep_cases h with
  | still same why =>
    subst same
    refine ⟨fun hp hw => ?_, fun _ => rfl⟩
    obtain hf | ⟨-, -, hr⟩ := why
    · simp [hp] at hf
    · simp [hr]
  | refused r rest idle bare port x decode next =>
    exact ⟨fun _ _ => by simp [next, port], fun hb => absurd hb (by simp [idle, bare])⟩
  | accepted r rest i idle bare port decode run =>
    exact ⟨fun _ _ => by simp [exec_reqs run, port], fun hb => absurd hb (by simp [idle, bare])⟩
  | flight r i busy live bare latched decode run =>
    exact ⟨fun hp => absurd hp busy, fun _ => exec_reqs run⟩
  | wire bytes i live placed decode run =>
    exact ⟨fun _ hw => by simp [placed] at hw, fun _ => exec_reqs run⟩

/-- Settles O50, by the case of the block's step; a request operation ends with one result or goes on. -/
theorem oneResultPerRequest : Obligations.OneResultPerRequest := by
  intro s t hw h
  have one : ∀ {i u}, i.isWire = false → u.pc ≠ .fault → exec i u = .next t → OneResult u t :=
    fun hi hf run => oneResult_acts hf (exec_acts hi run)
  suffices hor : OneResult s t ∨ t = s by
    obtain (⟨hr, hp, hi, hf⟩ | hr) | rfl := hor
    · exact .inl ⟨hr, hp, .inl ⟨hi, hf⟩⟩
    · exact .inr hr
    · exact .inl ⟨rfl, rfl, .inr rfl⟩
  cases blockStep_cases h with
  | still same why => exact .inr same
  | refused r rest idle bare port x decode next =>
    subst next
    exact .inl (.inr ⟨_, rfl, rfl, .inl rfl⟩)
  | accepted r rest i idle bare port decode run =>
    exact .inl (one (u := takeRequest r rest s) (decodeRequest_request decode) (by simp [idle]) run)
  | flight r i busy live bare latched decode run =>
    exact .inl (one (decodeRequest_request decode) live run)
  | wire bytes i live placed decode run => simp [hw] at placed

end Sys2Proof
end

section
/-! SUPPORT. The steps of a request and of a wire transaction as exact states (spec/10_state.md R31, R32,
spec/30_encoding.md R73 to R77, spec/40_framing.md R94 to R104), TEXTCMD with a zero budget
(spec/42_payload.md R133, R134), the values after reset (R45) and what a step runs (R24, R25). -/
namespace Sys2Proof.Machine

/-- At each of its program points an operation with a bus event takes one (R29, R32). -/
theorem exec_flight {i : Instr} {s : State}
    (h : i.isFraming = true ∧ s.pc = .fx ∨
      ((∃ w, i = .tryenq w) ∨ (∃ w, i = .enq w) ∨ (∃ ws bs, i = .textcmd ws bs)) ∧
        s.pc ∈ [Pc.qro, .qwo, .qww, .qwp] ∨ i = .idle ∧ s.pc ∈ [Pc.iro, .iwo]) :
    ∃ k, exec i s = xferStep k s := by
  rcases h with ⟨hi, hp⟩ | ⟨hi, hp⟩ | ⟨rfl, hp⟩
  · obtain ⟨finish, e⟩ := exec_framing_fx hi hp
    exact ⟨_, e⟩
  · have busy : s.pc ≠ .idle := by
      intro e
      simp [e] at hp
    obtain ⟨w, rfl⟩ | ⟨w, rfl⟩ | ⟨ws, bs, rfl⟩ := hi
    · rw [exec_tryenq_busy busy]
      exact attempt_flight hp
    · rw [exec_enq_busy busy]
      exact attempt_flight hp
    · rw [exec_textcmd_busy busy]
      exact attempt_flight hp
  · simp only [List.mem_cons, List.not_mem_nil, or_false] at hp
    obtain hp | hp := hp
    · exact ⟨_, exec_idle_iro hp⟩
    · exact ⟨_, exec_idle_iwo hp⟩

/-! ## Results of the framing operations -/

/-- The DESEL step of a one-transaction operation (R32). -/
theorem framing_delivers {bytes : List Byte} {cap : Nat} {finish : List Byte → Result} {rx : List Byte}
    {s : State} (h : atDesel .fx rx s) :
    framing bytes cap finish s = .next (resultState (finish rx) s) := by
  have ⟨hp, _, hrx, _⟩ := h
  rw [framing_fx hp, atDesel_run h]
  simp only [deliverRx, deselect_rx, hrx, readLatch_some]
  rfl

theorem framing_delivers_eq {bytes : List Byte} {cap : Nat} {finish : List Byte → Result} {rx : List Byte}
    {s : State} {r : Result} (h : atDesel .fx rx s) (hr : finish rx = r) :
    framing bytes cap finish s = .next (resultState r s) := by
  rw [framing_delivers h, hr]

/-- A device ID that is not the expected one is the result, with no match bit (R104). -/
theorem idValue_mismatch {b : Byte} (h : b ≠ 0x7C#8) : idValue b = b.setWidth 32 := by
  have hd : decide (b = deviceId) = false := decide_eq_false h
  apply BitVec.eq_of_toNat_eq
  have hb := b.isLt
  have hz : (0#23 ++ BitVec.ofBool false).toNat = 0 := by decide
  rw [idValue, hd, BitVec.toNat_append, hz, BitVec.toNat_setWidth, Nat.zero_shiftLeft, Nat.zero_or]
  omega

/-! ## Wire transactions -/

/-- SEL of a transaction without a request, its bytes put in the engine in the same step (R31, log 9). -/
theorem bareXfer_sel (bytes : List Byte) (cap : Nat) {s : State} (hp : s.pc = .idle) (hc : s.cs = false) :
    bareXfer bytes cap s = .next
      { loaded .fx bytes cap s with cs := true, trace := s.trace ++ [.sel], woSeen := chipWrite s } := by
  rw [bareXfer_idle hp, xferStep_select _ (by exact hc)]
  rfl

/-- In flight every wire transaction takes the bus event of its engine (R31). -/
theorem exec_wire_fx {i : Instr} {s : State} (hw : i.isWire = true) (hp : s.pc = .fx) :
    exec i s = xferStep releaseNext s := by
  obtain ⟨bytes, cap, -, he⟩ := exec_wire hw
  rw [he s, bareXfer_fx hp]

/-! ## A text command with a zero budget -/

theorem ofNat16_ne_zero {n : Nat} (h : 0 < n) (hn : n ≤ 65535) : BitVec.ofNat 16 n ≠ 0#16 := by
  intro e
  have := congrArg BitVec.toNat e
  simp at this
  omega

theorem textResult_gaveup {nd ng : BitVec 16} (h : ng ≠ 0#16) :
    textResult nd ng = plainResult .gaveup (ng ++ nd) := by
  simp [textResult, h]

/-- The whole command gives up in the step that starts its first word (R32, R133, R134). -/
theorem nextWord_zero {s : State} {ws : List Word} (hb : s.cfg.retryBudget = 0) (hpos : 0 < ws.length)
    (hm : ws.length ≤ 65535) :
    ∃ u, u.results = s.results ∧ nextWord (latchText ws s) = .next (complete
      (plainResult .gaveup (BitVec.ofNat 16 (if s.cfg.abortOnGaveup then 1 else ws.length) ++ 0#16)) u) := by
  obtain ⟨n, hn⟩ : ∃ n, ws.length = n + 1 := ⟨ws.length - 1, by omega⟩
  obtain ⟨u, hu, e⟩ := startWord_zero (s := latchText ws s) (i := 0#17) (n := n) hb rfl rfl rfl rfl
    (by simp [hn]) hm
  have hg : BitVec.ofNat 16 (if s.cfg.abortOnGaveup then 1 else ws.length) ≠ 0#16 :=
    ofNat16_ne_zero (by split <;> omega) (by split <;> omega)
  refine ⟨u, hu, ?_⟩
  rw [hn] at hg ⊢
  have hfuel : wordsLeft (latchText ws s) = n + 1 := by simp [wordsLeft, latchText, hn]
  rw [latchText_cfg, BitVec.zero_add, textResult_gaveup hg] at e
  rw [nextWord, hfuel, e]

/-- A computation that completes leaves the bus, the chip and the fault register alone. -/
theorem After.quiet {s t : State} (a : After s t) (hp : t.pc = .idle) :
    t.trace = s.trace ∧ t.mem = s.mem ∧ t.fault = s.fault := by
  obtain ⟨k, e⟩ := a
  refine ⟨k.trace, k.mem, ?_⟩
  cases e with
  | goes bytes row txs txfrom txpos rx results resp fault idle stopped => exact absurd hp idle
  | completes r results resp fault idle txs => exact fault
  | faults r results resp fault stopped txs => simp [hp] at stopped

end Sys2Proof.Machine

namespace Sys2Proof
open Machine

/-- Settles O13: at each program point the step is one bus event (`exec_flight`), SEL or an exchange. -/
theorem requestsMoveOneByteAStep : Obligations.RequestsMoveOneByteAStep := by
  intro i s h
  obtain ⟨k, e⟩ := exec_flight h
  refine ⟨fun hc => e.trans (xferStep_select k hc), ?_⟩
  intro bytes j cap rx o hc hb hj hcap hrx ho
  exact ⟨_, e.trans (xferStep_exchange k hc hb hj ho hcap hrx), rfl, hc, hb, rfl, hcap, rfl, rfl, rfl, rfl,
    rfl, rfl⟩

/-- Settles O14: the DESEL step delivers what the operation makes of the captured bytes
(`framing_delivers`). -/
theorem framingOperationsDeliver : Obligations.FramingOperationsDeliver := by
  intro s rx h
  have ⟨hp, _⟩ := h
  refine ⟨?_, ?_, ?_, ?_, ?_, ?_, ?_, ?_, ?_, ?_, ?_, ?_⟩
  · exact fun a n => framing_delivers h
  · rintro a b0 rfl
    exact framing_delivers_eq h (by rw [leWord_one]; rfl)
  · rintro a b0 b1 rfl
    exact framing_delivers_eq h (by rw [leWord_two]; rfl)
  · rintro a b0 b1 b2 b3 rfl
    exact framing_delivers_eq h (by rw [leWord_four]; rfl)
  · rintro rfl
    exact framing_delivers_eq h (by decide)
  · rintro b0 rfl hb
    exact framing_delivers_eq h (congrArg (plainResult .done) (idValue_mismatch hb))
  · exact fun a bs => (execWrb_busy (by simp [hp])).trans (framing_delivers h)
  · exact fun a v => framing_delivers h
  · exact fun a v => framing_delivers h
  · exact fun a v => framing_delivers h
  · exact fun c => framing_delivers h
  · exact framing_delivers h

/-- Settles O40: SEL with the row's bytes put in the engine, then the engine's events. -/
theorem wireTransactionsRun : Obligations.WireTransactionsRun := by
  intro s
  refine ⟨fun hp hc => ⟨fun a n => ?_, fun a bs => ?_, fun c => ?_, fun c => ?_, ?_⟩, ?_, ?_⟩
  · have hb : framePrefix (a.setWidth 24) 0b00#2 ++ [0x00#8] ++ List.replicate n 0x00#8 =
        txRead (a.setWidth 24) n := by simp [txRead, markRead]
    rw [hb]
    exact bareXfer_sel _ _ hp hc
  · have hl : 3 + bs.length = (txWrite (a.setWidth 24) bs).length := (txWrite_length _ _).symm
    rw [hl]
    exact bareXfer_sel _ _ hp hc
  · exact bareXfer_sel _ _ hp hc
  · exact bareXfer_sel _ _ hp hc
  · exact bareXfer_sel _ _ hp hc
  · intro i bytes k cap rx o hw hp hc hb hk hcap hrx ho
    exact ⟨_, (exec_wire_fx hw hp).trans (xferStep_exchange _ hc hb hk ho hcap hrx), hp, hc, hb, rfl, hcap,
      rfl, rfl, rfl, rfl, rfl⟩
  · intro rx i hw h
    have ⟨hp, _⟩ := h
    rw [exec_wire_fx hw hp, atDesel_run h]
    rfl

/-- Settles O42: in flight both steps are the same bus event of the same engine, and what the request computes
after DESEL touches neither the bus nor the chip. -/
theorem requestsRunTheirWireTransaction : Obligations.RequestsRunTheirWireTransaction := by
  intro i w s t bytes hi hp hf hb hd h
  rw [exec_wire_fx (decodeWire_wire hd) rfl]
  rcases exec_runs hi h with (⟨hp', -⟩ | ⟨k, hk, hr, -⟩ | ⟨hf', -⟩) | ⟨hp', -⟩
  · exact absurd hp' hp
  · rw [hr] at h
    rcases xferStep_cases h with ⟨hc, rfl⟩ | ⟨tx, cap, j, rx, o, hc, htx, hcap, hj, hrx, ho, rfl⟩ |
      ⟨tx, j, hc, htx, hj, ho, ht⟩
    · exact ⟨_, xferStep_select _ (by exact hc), rfl, rfl, rfl, rfl, rfl⟩
    · exact ⟨_, xferStep_exchange (s := { s with pc := .fx }) _ hc htx hj ho hcap hrx, rfl, rfl, rfl, rfl,
        rfl⟩
    · have k := (hk _ _ ht).kept
      exact ⟨_, xferStep_deselect (s := { s with pc := .fx }) _ hc htx hj ho, k.trace.symm, k.cs.symm,
        k.mem.symm, k.draws.symm, k.nfree.symm⟩
  · exact absurd hf' hf
  · exact absurd hp' hp

/-- Settles O36: every word of the command gives up in the ACCEPT step (`nextWord_zero`). -/
theorem textcmdWithZeroBudget : Obligations.TextcmdWithZeroBudget := by
  intro s ws bs hp hb hfit hz
  have hlen : (textWords ws bs).length = ws.length + (bs.length + 3) / 4 := textWords_length ws bs
  have hpos : 0 < (bs.length + 3) / 4 := packLen_pos hb
  have e := exec_textcmd_accept (ws := ws) hp (decide_eq_true hfit) hb
  obtain ⟨u, hu, hn⟩ := nextWord_zero (s := s) (ws := textWords ws bs) hz (by omega) (by omega)
  obtain ⟨trace, mem, fault⟩ := (computes_nextWord _ _ hn).quiet rfl
  refine ⟨_, e.trans hn, rfl, trace, mem, fault, ?_⟩
  rw [complete_results, hu, hlen]
  rfl

/-- Settles O46, by the definition of the block right after reset. -/
theorem resetValues : Obligations.ResetValues := by
  refine ⟨⟨Config.tc, rfl⟩, fun s => applyReset_cfg s, fun c => ?_⟩
  exact ⟨rfl, rfl, rfl, rfl, rfl, rfl, rfl, rfl, rfl, rfl, rfl, rfl, rfl, rfl, rfl, rfl, rfl, rfl, rfl, rfl,
    rfl, rfl, rfl, rfl⟩

/-- Settles O51, by where the block's next step comes from (`fetch`). -/
theorem stepRunsTheDecodedInstruction : Obligations.StepRunsTheDecodedInstruction := by
  intro s i
  have idle : s.sched = [] → step s = blockStep s := fun hs => by simp only [step, hs]
  refine ⟨?_, ?_, ?_, idle, ?_, ?_⟩
  · intro r rest hs hp hw hr hd
    exact (idle hs).trans (blockStep_accept hp hw hr hd)
  · intro op a d bs ws hs hi hf hw hop ha hd hb hws hdec
    have hl : latchedRequest s = .ok ⟨reqWord op a d, bs, ws⟩ := by
      simp only [latchedRequest, hop, ha, hd, hb, hws]
    exact (idle hs).trans (blockStep_flight hi hf hw hl hdec)
  · intro bytes hs hf hw hd
    exact (idle hs).trans (blockStep_wire hf hw hd)
  · intro rest hs
    simp only [step, hs]
  · intro a rest hs ha
    cases a with
    | block => contradiction
    | request | take | answer | poke | consume | advance | reset => simp only [step, hs]

end Sys2Proof
end

section
/-! SUPPORT. Addresses (spec/20_memory.md R49, R51): which bits of an address reach the bus, where a ring
pointer lands, and the pointer write of an attempt (spec/41_ring_buffer.md R113). -/
namespace Sys2Proof.Machine

/-! ## The bits that reach the bus (R49) -/

section
variable {a b : Addr} (h : a.setWidth 22 = b.setWidth 22)
include h

theorem txRead_congr (n : Nat) : txRead a n = txRead b n := by
  rw [txRead, txRead, framePrefix_congr markRead h]

theorem txWrite_congr (bs : List Byte) : txWrite a bs = txWrite b bs := by
  rw [txWrite, txWrite, framePrefix_congr markWrite h]

theorem framingRead_congr (n : Nat) (finish : List Byte → Result) (s : State) :
    framingRead a n finish s = framingRead b n finish s := by
  rw [framingRead, framingRead, txRead_congr h]

theorem framingWrite_congr (bs : List Byte) (v : Word) (s : State) :
    framingWrite a bs v s = framingWrite b bs v s := by
  rw [framingWrite, framingWrite, txWrite_congr h]

theorem execWrb_congr (bs : List Byte) (s : State) : execWrb a bs s = execWrb b bs s := by
  rw [execWrb, execWrb, framingWrite_congr h]

end

/-! ## The ring window (R51) -/

/-- A valid configuration has the ring window inside the chip's space (R10). -/
theorem configValid_window {c : Config} (h : configValid c = true) : c.cmdBufBase + 4095 < 2 ^ 22 := by
  simp only [configValid, Bool.and_eq_true, decide_eq_true_eq] at h
  obtain ⟨⟨⟨⟨⟨⟨⟨window, -⟩, -⟩, -⟩, -⟩, -⟩, -⟩, -⟩ := h
  exact window

/-- The sum of R51 fits the 24-bit address. -/
theorem ringAddr_toNat {c : Config} (h : c.cmdBufBase + 4095 < 2 ^ 22) (wo : Word) :
    (ringAddr c wo).toNat = c.cmdBufBase + wo.toNat % 4096 := by
  rw [ringAddr, BitVec.toNat_ofNat, ringSize]
  omega

/-- The ring address has the ring's period; 2^32 is a multiple of it. -/
theorem ringAddr_add_ringSize (c : Config) (wo : Word) : ringAddr c (wo + 4096#32) = ringAddr c wo := by
  have period : (wo + 4096#32).toNat % 4096 = wo.toNat % 4096 := by
    rw [BitVec.toNat_add, BitVec.toNat_ofNat]
    omega
  rw [ringAddr, ringAddr, ringSize, period]

/-! ## The pointer write (R113) -/

/-- The DESEL step of Q_WW, whatever the operation. -/
theorem attempt_qww_desel {word : State → (Word → Out) → Out} {outcome : Verdict → State → Out}
    {s : State} {rx : List Byte} {wo : Word} (h : atDesel .qww rx s) (hw : s.woL = some wo) :
    attempt word outcome s = .next
      (loaded .qwp
        (framePrefix (BitVec.ofNat 24 s.cfg.regCmdWrite) 0b10#2 ++
          [(wo + 4#32).setWidth 8, ((wo + 4#32) >>> 8).setWidth 8, ((wo + 4#32) >>> 16).setWidth 8,
            ((wo + 4#32) >>> 24).setWidth 8]) 7 (deselected s)) := by
  have ⟨hp, _⟩ := h
  rw [attempt_qww hp, atDesel_run h, afterWordWrite, deselect_woL, hw, readLatch_some, ← le4_eq]
  rfl

end Sys2Proof.Machine

namespace Sys2Proof
open Machine

/-- Settles O6: the first three bytes of the transactions are the same (`framePrefix_congr`), and nothing
else of an operation looks at its address. -/
theorem upperAddressBitsNeverReachTheBus : Obligations.UpperAddressBitsNeverReachTheBus := by
  intro a b h
  refine ⟨txRead_congr h, txWrite_congr h, fun s => ⟨fun n => ?_, fun bs => ?_, ?_, ?_, ?_, ?_, ?_, ?_⟩⟩
  · exact framingRead_congr h _ _ s
  · exact execWrb_congr h bs s
  · exact framingRead_congr h _ _ s
  · exact framingRead_congr h _ _ s
  · exact framingRead_congr h _ _ s
  · exact fun v => framingWrite_congr h _ _ s
  · exact fun v => framingWrite_congr h _ _ s
  · exact fun v => framingWrite_congr h _ _ s

/-- Settles O11, by the value of the ring address (`ringAddr_toNat`). -/
theorem ringAddressStaysInWindow : Obligations.RingAddressStaysInWindow := by
  intro c wo hc
  have window := configValid_window hc
  have value := ringAddr_toNat window wo
  exact ⟨value, by omega, by omega, by omega, ringAddr_add_ringSize c wo⟩

/-- Settles O25: in flight the three operations are the same attempt (`attempt_qww_desel`). -/
theorem pointerWriteFollowsWordWrite : Obligations.PointerWriteFollowsWordWrite := by
  intro s rx wo h hw i hi
  have ⟨hp, _⟩ := h
  have busy : s.pc ≠ .idle := by simp [hp]
  obtain ⟨w, rfl⟩ | ⟨w, rfl⟩ | ⟨ws, bs, rfl⟩ := hi
  · exact (exec_tryenq_busy busy w).trans (attempt_qww_desel h hw)
  · exact (exec_enq_busy busy w).trans (attempt_qww_desel h hw)
  · exact (exec_textcmd_busy busy ws bs).trans (attempt_qww_desel h hw)

end Sys2Proof
end

section
/-! SUPPORT. The chip's consuming turn (spec/41_ring_buffer.md R65, spec/60_exceptions.md R159), one equation
per case, and what it leaves of the two pointers. -/
namespace Sys2Proof.Machine

/-- A parameter inside the chip's space is the chip address it names. -/
theorem paramAddr_toNat {x : Nat} (h : x < chipSpace) : (paramAddr x).toNat = x := by
  rw [paramAddr, BitVec.toNat_ofNat]
  simp only [chipSpace] at h
  omega

/-- With a whole word between the pointers, a step of `read_offset` leaves 4 bytes fewer. -/
theorem occupied_advance {wo ro : Word} (h : 4 ≤ (occupied wo ro).toNat) :
    (occupied wo (advance ro)).toNat + 4 = (occupied wo ro).toNat := by
  simp only [occupied, advance, wordBytes] at h ⊢
  bv_omega

section
variable {s : State} {ro wo : Word} (hr : chipRead s = some ro) (hw : seenWrite s = some wo)
include hr hw

theorem chipConsume_of_lt (h : (occupied wo ro).toNat < 4) : chipConsume s = s := by
  simp only [chipConsume, hr, hw, h, if_true]

theorem chipConsume_of_le (h : 4 ≤ (occupied wo ro).toNat) :
    chipConsume s =
      { moveRead (advance ro) s with consumed := s.consumed ++ [ringWord s ro] } := by
  simp only [chipConsume, hr, hw, Nat.not_lt.2 h, if_false]

end

section
variable {s : State} (h : apart s.cfg)
include h

theorem moveRead_mem_apart (ro : Word) :
    (moveRead ro s).mem = s.mem.writeBytes s.cfg.regCmdRead (le4 ro) := by
  obtain ⟨-, -, -, fits, -⟩ := h
  rw [moveRead_mem, paramAddr_toNat (by omega)]

theorem chipRead_moveRead (ro : Word) : chipRead (moveRead ro s) = some ro := by
  have mem := moveRead_mem_apart h ro
  obtain ⟨-, -, -, fits, -⟩ := h
  rw [chipRead, mem, moveRead_cfg, paramAddr_toNat (by omega), Memory.readWord_le4_self _ _ _ fits]

/-- Moving `read_offset` does not touch `write_offset`. -/
theorem chipWrite_moveRead (ro : Word) : chipWrite (moveRead ro s) = chipWrite s := by
  have mem := moveRead_mem_apart h ro
  obtain ⟨registers, -, -, -, fits⟩ := h
  rw [chipWrite, chipWrite, mem, moveRead_cfg, paramAddr_toNat (by omega),
    Memory.readWord_le4_other _ _ _ _ (by omega)]

theorem seenWrite_moveRead (ro : Word) : seenWrite (moveRead ro s) = seenWrite s := by
  rw [seenWrite, seenWrite, moveRead_cs, moveRead_woSeen, chipWrite_moveRead h]

theorem moveRead_read_other (ro : Word) {x : Nat} (hx : ¬ inRegister s.cfg.regCmdRead x) :
    (moveRead ro s).mem.read x = s.mem.read x := by
  simp only [inRegister] at hx
  rw [moveRead_mem_apart h, Memory.read_writeBytes_other _ _ (by rw [le4_length]; omega)]

end

end Sys2Proof.Machine

namespace Sys2Proof
open Machine

/-- Settles O60: with a whole word the turn is a move of `read_offset` (`chipConsume_of_le`), with none it is
nothing. -/
theorem chipConsumesInOrder : Obligations.ChipConsumesInOrder := by
  intro s ro wo hap hr hw
  refine ⟨chipConsume_of_lt hr hw, fun hword => ?_⟩
  have turn : agentTurn .consume s = _ := chipConsume_of_le hr hw hword
  rw [turn]
  refine ⟨chipRead_moveRead hap _, (seenWrite_moveRead hap _).trans hw, occupied_advance hword,
    fun fits => ?_, fun x hx => moveRead_read_other hap _ hx⟩
  have whole : ro.toNat % ringSize + 4 ≤ ringSize := by
    simp only [ringSize]
    omega
  simp only [ringWord, if_pos whole]

end Sys2Proof
end

section
/-! SUPPORT. A framing operation from its request to its result with the answers forced (spec/40_framing.md
R94 to R104, spec/60_exceptions.md R153, R162): ACCEPT, SEL, one step a byte and DESEL, said once for every
operation of one transaction. -/
namespace Sys2Proof.Machine

/-! ## The latched request -/

theorem latchedRequest_takeRequest (r : Request) (rest : List Request) (s : State) :
    latchedRequest (takeRequest r rest s) = .ok r := by
  simp only [latchedRequest, takeRequest_op, takeRequest_addr, takeRequest_data, takeRequest_inbytes,
    takeRequest_inwords, reqWord_fields]

theorem Engaged.latchedRequest {s u : State} (g : Engaged s u) : latchedRequest u = latchedRequest s := by
  simp only [Machine.latchedRequest, g.op, g.addr, g.data, g.inbytes, g.inwords]

theorem step_of_sched_nil {s : State} (h : s.sched = []) : step s = blockStep s := by
  simp only [step, h]

/-! ## Exchanges that store nothing -/

/-- Nothing is stored before the three address bytes were sent (R71). -/
theorem storeAddr_of_short {sent : List Byte} (h : sent.length < 3) : storeAddr sent = none :=
  if_neg fun ⟨_, long⟩ => absurd long (Nat.not_le.2 h)

/-- A transaction of three bytes leaves the chip alone. -/
theorem exchanges_mem_of_le_three (bytes : List Byte) (cap : Nat) (s : State) {n : Nat} (h : n ≤ 3) :
    (exchanges bytes cap n s).mem = s.mem := by
  induction n with
  | zero => rfl
  | succ n ih =>
    have nowhere : storeAddr (bytes.take n) = none := storeAddr_of_short (by rw [List.length_take]; omega)
    rw [exchanges_succ]
    simp only [exchange, chipStore, nowhere, ih (by omega)]

/-! ## From the request to the result -/

/-- `s` after ACCEPT of the request `r`, whose operation is one transaction of `bytes`. -/
def begun (bytes : List Byte) (cap : Nat) (r : Request) (later : List Request) (s : State) : State :=
  goto .fx (startXfer bytes cap (takeRequest r later s))

section
variable {s : State} {r : Request} {i : Instr} {later : List Request} {bytes : List Byte} {cap : Nat}
  {finish : List Byte → Result} (hd : decodeRequest r = .ok i) (hs : s.sched = []) (hw : s.wire = none)
  (hx : ∀ w, w.cfg = s.cfg → exec i w = framing bytes cap finish w)
include hd hs hw hx

/-- ACCEPT of an operation of one transaction (R24, R32). -/
theorem step_begun (hp : s.pc = .idle) (hr : s.reqs = r :: later) :
    step s = .next (begun bytes cap r later s) := by
  rw [step_of_sched_nil hs, blockStep_accept hp hw hr hd]
  exact (hx (takeRequest r later s) rfl).trans (framing_idle hp)

/-- From ACCEPT to the DESEL step every step is one bus event (R31, R32). -/
theorem step_of_begun {w : State} (g : Engaged (begun bytes cap r later s) w) :
    step w = xferStep (deliverRx finish) w := by
  have fx : w.pc = .fx := g.pc
  have latched : latchedRequest w = .ok r := g.latchedRequest.trans (latchedRequest_takeRequest r later s)
  rw [step_of_sched_nil (g.sched.trans hs),
    blockStep_flight (by simp [fx]) (by simp [fx]) (g.wire.trans hw) latched hd]
  exact (hx w g.cfg).trans (framing_fx fx)

/-- From ACCEPT to the result: SEL, one step a byte and DESEL, with every answer forced (R153). -/
theorem begun_run {d : List Byte} {rest : List (Option Byte)} (hc : s.cs = false)
    (hdr : s.draws = d.map some ++ rest) (hl : d.length = bytes.length) :
    runSteps (bytes.length + 2) (begun bytes cap r later s) = .next (complete (finish (d.drop cap))
      (deselect (exchanges bytes cap bytes.length (select (begun bytes cap r later s))))) := by
  have events : ∀ w, Engaged (begun bytes cap r later s) w → _ := fun w => step_of_begun hd hs hw hx
  have run := engine_run events hc rfl rfl rfl rfl
  have g := (engaged_select (begun bytes cap r later s)).trans (engaged_exchanges bytes cap bytes.length _)
  obtain ⟨cs, pos, -⟩ :=
    exchanges_engine bytes cap bytes.length (s := select (begun bytes cap r later s)) rfl rfl rfl
  obtain ⟨-, rx, -⟩ := exchanges_forced bytes cap d rest (s := select (begun bytes cap r later s)) hdr hl rfl
    bytes.length (Nat.le_refl _)
  rw [List.take_of_length_le (Nat.le_of_eq hl)] at rx
  refine (runSteps_add (n := 1) run).trans (runSteps_one ?_)
  rw [events _ g, xferStep_deselect _ cs g.txs pos (by simp), deliverRx, deselect_rx, rx, readLatch_some]

end

section
variable {s : State} {r : Request} {i : Instr} {d : List Byte}
  (hd : decodeRequest r = .ok i) (ho : offered r d s)
include hd ho

/-- An operation that is one transaction of `bytes` is served in three steps more than it sends bytes, and
its result is made of the answers from index `cap` on. -/
theorem framing_served {bytes : List Byte} {cap : Nat} {finish : List Byte → Result} {m : Memory}
    (hx : ∀ w, w.cfg = s.cfg → exec i w = framing bytes cap finish w) (hl : d.length = bytes.length)
    (hm : ∀ w, w.mem = s.mem → (exchanges bytes cap bytes.length w).mem = m) :
    served (bytes.length + 3) (busEvents bytes d) (finish (d.drop cap)) m s := by
  obtain ⟨idle, quiet, sched, bare, port, rest, draws⟩ := ho
  obtain ⟨later, reqs⟩ : ∃ later, s.reqs = r :: later := List.head?_eq_some_iff.1 port
  have accept := runSteps_one (step_begun hd sched bare hx idle reqs)
  have run := (runSteps_add accept).trans (begun_run hd sched bare hx quiet draws.symm hl)
  rw [show 1 + (bytes.length + 2) = bytes.length + 3 by omega] at run
  obtain ⟨-, -, trace⟩ := exchanges_forced bytes cap d rest (s := select (begun bytes cap r later s))
    draws.symm hl rfl bytes.length (Nat.le_refl _)
  rw [List.take_length, List.take_of_length_le (Nat.le_of_eq hl)] at trace
  have g := (engaged_select (begun bytes cap r later s)).trans (engaged_exchanges bytes cap bytes.length _)
  refine ⟨_, run, rfl, rfl, ?_, ?_, ?_, g.fault, g.cfg, ?_, hm _ rfl⟩
  · rw [complete_trace, deselect_trace, trace, select_trace]
    simp only [busEvents, List.append_assoc, List.cons_append, List.nil_append]
    rfl
  · rw [complete_results, deselect_results, g.results]
    rfl
  · rw [complete_resp, deselect_resp, g.resp]
    rfl
  · rw [complete_reqs, deselect_reqs, g.reqs, reqs]
    rfl

/-- A read is served with chip memory as it was. -/
theorem framingRead_served {a : Addr} {n : Nat} {finish : List Byte → Result} {v : Result}
    (hx : ∀ w, w.cfg = s.cfg → exec i w = framingRead a n finish w) (hl : d.length = n + 4)
    (hv : finish (d.drop 4) = v) : served (n + 7) (busEvents (txRead a n) d) v s.mem s := by
  have h := framing_served hd ho hx (hl.trans (txRead_length a n).symm)
    fun w hw => (exchanges_read_mem a n _ _ w).trans hw
  rwa [txRead_length, readCap, hv] at h

/-- A write is served with its bytes stored from the address on (R52). -/
theorem framingWrite_served {a : Addr} {bs : List Byte} {v : Word}
    (hx : ∀ w, exec i w = framingWrite a bs v w) (hl : d.length = bs.length + 3) :
    served (bs.length + 6) (busEvents (txWrite a bs) d) (plainResult .done v)
      (s.mem.writeBytes (a.setWidth 22).toNat bs) s := by
  have length : (txWrite a bs).length = bs.length + 3 := (txWrite_length a bs).trans (Nat.add_comm ..)
  have h := framing_served hd ho (fun w _ => hx w) (hl.trans length.symm)
    fun w hw => (exchanges_write_mem a bs _ w).trans (by rw [hw])
  rwa [length] at h

/-- A host command or a wake is served with chip memory as it was. -/
theorem framingShort_served {bytes : List Byte}
    (hx : ∀ w, exec i w = framing bytes 3 (fun _ => plainResult .done 0#32) w) (hb : bytes.length = 3)
    (hl : d.length = 3) : served 6 (busEvents bytes d) (plainResult .done 0#32) s.mem s := by
  have h := framing_served hd ho (fun w _ => hx w) (hl.trans hb.symm)
    fun w hw => (exchanges_mem_of_le_three bytes 3 w (Nat.le_of_eq hb)).trans hw
  rwa [hb] at h

end

/-! ## The operations' own forms -/

/-- A list that is admitted is not refused (R84). -/
theorem exec_wrb_of_lt {bs : List Byte} (h : bs.length < 2 ^ 32) (a : Addr) (s : State) :
    exec (.wrb a bs) s = framingWrite a bs (BitVec.ofNat 32 bs.length) s :=
  if_neg fun ⟨_, refused⟩ => absurd (decide_eq_true h) (Bool.eq_false_iff.1 refused)

theorem exec_wr8 (a : Addr) (v : BitVec 8) (s : State) :
    exec (.wr8 a v) s = framingWrite a [v] 0#32 s := by
  rw [← leBytes_one]
  rfl

theorem exec_wr16 (a : Addr) (v : BitVec 16) (s : State) :
    exec (.wr16 a v) s = framingWrite a [v.setWidth 8, (v >>> 8).setWidth 8] 0#32 s := by
  rw [← leBytes_two]
  rfl

theorem exec_wr32 (a : Addr) (v : Word) (s : State) :
    exec (.wr32 a v) s = framingWrite a
      [v.setWidth 8, (v >>> 8).setWidth 8, (v >>> 16).setWidth 8, (v >>> 24).setWidth 8] 0#32 s := by
  rw [← le4_eq]
  rfl

theorem exec_chkid {c : Config} {s : State} (h : s.cfg = c) :
    exec .chkid s =
      framingRead (paramAddr c.regId) 1 (fun rx => plainResult .done (idValue (rx.headD 0#8))) s := by
  rw [← h]
  rfl

/-- CHKID's value, for the expected device ID and for any other (R35, R104). -/
theorem idValue_eq (b : Byte) : idValue b = if b = 0x7C#8 then 0x17C#32 else b.setWidth 32 := by
  split
  case isTrue expected =>
    rw [expected]
    decide
  case isFalse other => exact idValue_mismatch other

end Sys2Proof.Machine

namespace Sys2Proof
open Machine

/-- Settles O16: an admitted WRB is one write (`framingWrite_served`). -/
theorem wrbServesEveryList : Obligations.WrbServesEveryList := by
  intro s r a bs d hd hfits hl ho
  exact framingWrite_served hd ho (exec_wrb_of_lt hfits a) hl

/-- Settles O17: each operation is one read, one write, or one transaction of three bytes. -/
theorem registerOperationsServed : Obligations.RegisterOperationsServed := by
  intro s r a d x0 x1 x2 x3 b0 b1 b2 b3
  refine ⟨fun hd ho => ?_, fun hd ho => ?_, fun hd ho => ?_, fun hd ho => ?_,
    fun ho => ⟨fun v hd hl => ?_, fun v hd hl => ?_, fun v hd hl => ?_, fun c hd hl => ?_, fun hd hl => ?_⟩⟩
  · exact framingRead_served hd ho (fun _ _ => rfl) rfl (congrArg (plainResult .done) (leWord_one b0))
  · exact framingRead_served hd ho (fun _ _ => rfl) rfl (congrArg (plainResult .done) (leWord_two b0 b1))
  · exact framingRead_served hd ho (fun _ _ => rfl) rfl
      (congrArg (plainResult .done) (leWord_four b0 b1 b2 b3))
  · exact framingRead_served hd ho (fun _ => exec_chkid) rfl (congrArg (plainResult .done) (idValue_eq b0))
  · exact framingWrite_served hd ho (exec_wr8 a v) hl
  · exact framingWrite_served hd ho (exec_wr16 a v) hl
  · exact framingWrite_served hd ho (exec_wr32 a v) hl
  · exact framingShort_served hd ho (fun _ => rfl) rfl hl
  · exact framingShort_served hd ho (fun _ => rfl) rfl hl

end Sys2Proof
end

section
/-! SUPPORT. The decoder of request words (spec/30_encoding.md R80 to R85), one equation for each operation of
R81: the word of an operation code and any two fields, with any two lists. -/
namespace Sys2Proof

/-- A narrow value put into a wide field and cut back is the value. -/
theorem setWidth_setWidth_self {w v : Nat} (h : w ≤ v) (x : BitVec w) : (x.setWidth v).setWidth w = x := by
  rw [BitVec.setWidth_setWidth_of_le x h, BitVec.setWidth_eq]

section
variable (a : Addr) (d : Word) (bs : List Byte) (ws : List Word)

theorem decodeRequest_rdb : decodeRequest ⟨reqWord 0x01#8 a d, bs, ws⟩ = .ok (.rdb a d) := by
  simp [decodeRequest]

theorem decodeRequest_wrb : decodeRequest ⟨reqWord 0x02#8 a d, bs, ws⟩ = .ok (.wrb a bs) := by
  simp [decodeRequest]

theorem decodeRequest_rd8 : decodeRequest ⟨reqWord 0x03#8 a d, bs, ws⟩ = .ok (.rd8 a) := by
  simp [decodeRequest]

theorem decodeRequest_rd16 : decodeRequest ⟨reqWord 0x04#8 a d, bs, ws⟩ = .ok (.rd16 a) := by
  simp [decodeRequest]

theorem decodeRequest_rd32 : decodeRequest ⟨reqWord 0x05#8 a d, bs, ws⟩ = .ok (.rd32 a) := by
  simp [decodeRequest]

theorem decodeRequest_wr8 : decodeRequest ⟨reqWord 0x06#8 a d, bs, ws⟩ = .ok (.wr8 a (d.setWidth 8)) := by
  simp [decodeRequest, BitVec.setWidth_eq_extractLsb']

theorem decodeRequest_wr16 : decodeRequest ⟨reqWord 0x07#8 a d, bs, ws⟩ = .ok (.wr16 a (d.setWidth 16)) := by
  simp [decodeRequest, BitVec.setWidth_eq_extractLsb']

theorem decodeRequest_wr32 : decodeRequest ⟨reqWord 0x08#8 a d, bs, ws⟩ = .ok (.wr32 a d) := by
  simp [decodeRequest]

theorem decodeRequest_hostcmd :
    decodeRequest ⟨reqWord 0x09#8 a d, bs, ws⟩ = .ok (.hostcmd (d.setWidth 8)) := by
  simp [decodeRequest, BitVec.setWidth_eq_extractLsb']

theorem decodeRequest_wake : decodeRequest ⟨reqWord 0x0A#8 a d, bs, ws⟩ = .ok .wake := by
  simp [decodeRequest]

theorem decodeRequest_chkid : decodeRequest ⟨reqWord 0x0B#8 a d, bs, ws⟩ = .ok .chkid := by
  simp [decodeRequest]

theorem decodeRequest_tryenq : decodeRequest ⟨reqWord 0x10#8 a d, bs, ws⟩ = .ok (.tryenq d) := by
  simp [decodeRequest]

theorem decodeRequest_enq : decodeRequest ⟨reqWord 0x11#8 a d, bs, ws⟩ = .ok (.enq d) := by
  simp [decodeRequest]

theorem decodeRequest_idle : decodeRequest ⟨reqWord 0x12#8 a d, bs, ws⟩ = .ok .idle := by
  simp [decodeRequest]

theorem decodeRequest_pack : decodeRequest ⟨reqWord 0x20#8 a d, bs, ws⟩ = .ok (.pack bs) := by
  simp [decodeRequest]

theorem decodeRequest_textcmd : decodeRequest ⟨reqWord 0x21#8 a d, bs, ws⟩ = .ok (.textcmd ws bs) := by
  simp [decodeRequest]

end

/-- What the word of an operation code and two fields decodes to, every request with those parts does. -/
theorem decodeRequest_of_parts {r : Request} {op : BitVec 8} {i : Instr}
    (h : decodeRequest ⟨reqWord op (reqAddr r.q) (reqData r.q), r.inbytes, r.inwords⟩ = .ok i)
    (ho : reqOp r.q = op) : decodeRequest r = .ok i := by
  subst ho
  rwa [reqWord_fields] at h

/-- A code that is none of R81 is rejected by name (R84). -/
theorem decodeRequest_reserved {r : Request} (h : reqOp r.q ∉ Machine.allOps) :
    decodeRequest r = .error (.reservedOp (reqOp r.q)) := by
  simp only [Machine.allOps, Machine.framingOps, List.cons_append, List.nil_append, List.mem_cons,
    List.not_mem_nil, or_false, not_or] at h
  simp [decodeRequest, h]

end Sys2Proof
end

section
/-! SUPPORT. The decoder of the wire space (spec/30_encoding.md R70 to R79, R89), one equation for each row,
and the first bytes of a transaction: the marker tells the kinds apart (R72, R78), and the source's arithmetic
gives the three address bytes (R71). -/
namespace Sys2Proof.Machine

/-! ## The rows -/

theorem allZero_replicate (n : Nat) : allZero (List.replicate n 0#8) = true := by
  simp [allZero]

/-- A read decodes to its address on the wire and its count (R73). -/
theorem decodeWire_txRead (a : Addr) (n : Nat) :
    decodeWire (txRead a n) = .ok (.wireRead (a.setWidth 22) n) := by
  have zeros : allZero (0#8 :: List.replicate n 0#8) = true := allZero_replicate (n + 1)
  have unlike : markRead ≠ markWrite := by decide
  simp only [txRead, framePrefix, List.cons_append, List.nil_append, decodeWire, prefixMarker_append,
    prefixAddr_framePrefix, unlike, zeros, List.length_replicate, if_true, if_false]

/-- A write decodes to its address on the wire and its data (R74). -/
theorem decodeWire_txWrite (a : Addr) (s : List Byte) :
    decodeWire (txWrite a s) = .ok (.wireWrite (a.setWidth 22) s) := by
  simp only [txWrite, framePrefix, List.cons_append, List.nil_append, decodeWire, prefixMarker_append,
    prefixAddr_framePrefix, if_true]

/-- Marker 01 and two zero bytes are a host command (R75). -/
theorem decodeWire_host {b : Byte} (h : prefixMarker b = markHost) :
    decodeWire [b, 0#8, 0#8] = .ok (.wireHostcmd (b.setWidth 6)) := by
  simp [decodeWire, h, markHost, markWrite, markRead, allZero, BitVec.setWidth_eq_extractLsb']

/-- Marker 11 and two zero bytes are a host command with bit 7 of its code set (R77). -/
theorem decodeWire_host_reserved {b : Byte} (h : prefixMarker b = markReserved) :
    decodeWire [b, 0#8, 0#8] = .ok (.wireHostcmdM11 (b.setWidth 6)) := by
  simp [decodeWire, h, markReserved, markHost, markWrite, markRead, allZero,
    BitVec.setWidth_eq_extractLsb']

/-- Three zero bytes are a wake (R76). -/
theorem decodeWire_txWake : decodeWire txWake = .ok .wireWake := rfl

/-! ## Markers -/

/-- The marker a host command is sent with: 01, or 11 for a code with bit 7 set (R75, R77). -/
def hostMarker (code : Byte) : BitVec 2 := if code.getLsbD 7 then markReserved else markHost

/-- The OR of R75 sets bit 6 and leaves bit 7. -/
theorem prefixMarker_or (code : Byte) : prefixMarker (code ||| 0x40#8) = hostMarker code := by
  have or_one : ∀ m : BitVec 2, m ||| 0b01#2 = if m.getLsbD 1 then markReserved else markHost := by decide
  have top : (prefixMarker code).getLsbD 1 = code.getLsbD 7 := by simp [prefixMarker]
  calc prefixMarker (code ||| 0x40#8)
    _ = prefixMarker code ||| 0b01#2 := BitVec.extractLsb'_or
    _ = hostMarker code := by rw [or_one, top, hostMarker]

/-- A host command decodes to the row of its marker (R75, R77). -/
theorem decodeWire_txHost (code : Byte) :
    decodeWire (txHost code) =
      .ok (if code.getLsbD 7 then .wireHostcmdM11 ((code ||| 0x40#8).setWidth 6)
        else .wireHostcmd ((code ||| 0x40#8).setWidth 6)) := by
  have marker := prefixMarker_or code
  cases h : code.getLsbD 7 with
  | true => exact decodeWire_host_reserved (by rw [marker, hostMarker, h]; rfl)
  | false => exact decodeWire_host (by rw [marker, hostMarker, h]; rfl)

/-- The marker in the first byte of a transaction, where it has one. -/
def firstMarker (bytes : List Byte) : Option (BitVec 2) := bytes.head?.map prefixMarker

theorem firstMarker_txRead (a : Addr) (n : Nat) : firstMarker (txRead a n) = some markRead :=
  congrArg some (prefixMarker_append _ _)

theorem firstMarker_txWrite (a : Addr) (s : List Byte) : firstMarker (txWrite a s) = some markWrite :=
  congrArg some (prefixMarker_append _ _)

theorem firstMarker_txHost (code : Byte) : firstMarker (txHost code) = some (hostMarker code) :=
  congrArg some (prefixMarker_or code)

theorem firstMarker_txWake : firstMarker txWake = some markRead := rfl

/-- Bit 0 of a host command's marker is set, and of no other kind's. -/
theorem hostMarker_bit_zero (code : Byte) : (hostMarker code).getLsbD 0 = true := by
  rw [hostMarker]
  split <;> rfl

/-- A host command has the marker of no other kind (R72, R77). -/
theorem hostMarker_ne {m : BitVec 2} (h : m.getLsbD 0 = false) (code : Byte) : m ≠ hostMarker code := by
  rintro rfl
  exact Bool.false_ne_true (h.symm.trans (hostMarker_bit_zero code))

/-- Transactions of different markers begin with different bytes. -/
theorem head_ne_of_marker {x y : List Byte} {m m' : BitVec 2} (hx : firstMarker x = some m)
    (hy : firstMarker y = some m') (h : m ≠ m') : x.head? ≠ y.head? := by
  intro e
  rw [firstMarker, e] at hx
  exact h (Option.some.inj (hx.symm.trans hy))

/-! ## The address bytes in the source's arithmetic (R71) -/

/-- The first byte: the marker ORed to the six address bits the mask leaves. -/
theorem marker_append_eq_or (m : BitVec 2) (x : Addr) :
    m ++ x.setWidth 6 = x.setWidth 8 &&& 0x3F#8 ||| (m ++ 0#6) := by
  have mask : 0x3F#8 = 0#2 ++ BitVec.allOnes 6 := rfl
  have byte : x.setWidth 8 = x.extractLsb' 6 2 ++ x.setWidth 6 := by
    rw [BitVec.setWidth_eq_extractLsb' (by decide), BitVec.setWidth_eq_extractLsb' (by decide)]
    exact (BitVec.extractLsb'_append_extractLsb'_eq_extractLsb' (start₂ := 6) (len₁ := 6) (len₂ := 2)
      rfl).symm
  rw [byte, mask, BitVec.and_append, BitVec.or_append, BitVec.and_zero, BitVec.and_allOnes, BitVec.zero_or,
    BitVec.or_zero]

/-- The three address bytes, shifted, masked and ORed. -/
theorem framePrefix_eq (a : Addr) (m : BitVec 2) :
    framePrefix a m =
      [(a >>> 16).setWidth 8 &&& 0x3F#8 ||| (m ++ 0#6), (a >>> 8).setWidth 8, a.setWidth 8] := by
  have slice : ∀ k n, a.extractLsb' k n = (a >>> k).setWidth n := fun _ _ =>
    BitVec.setWidth_ushiftRight_eq_extractLsb.symm
  rw [framePrefix, slice, slice, slice, marker_append_eq_or]
  rfl

end Sys2Proof.Machine
end

section
/-! SUPPORT. The statements about the encodings (spec/30_encoding.md R71 to R89), from the equations of the two
decoders. -/
namespace Sys2Proof
open Machine

/-- Settles O1, by the instruction: the sixteen operations by the equations of the request decoder, the five
wire rows by those of the wire decoder. -/
theorem decodeOfEncodeIsInstruction : Obligations.DecodeOfEncodeIsInstruction := by
  intro i
  cases i with
  | rdb a n => exact decodeRequest_rdb a n [] []
  | wrb a bs => exact decodeRequest_wrb a 0#32 bs []
  | rd8 a => exact decodeRequest_rd8 a 0#32 [] []
  | rd16 a => exact decodeRequest_rd16 a 0#32 [] []
  | rd32 a => exact decodeRequest_rd32 a 0#32 [] []
  | wr8 a v =>
    have h := decodeRequest_wr8 a (v.setWidth 32) [] []
    rwa [setWidth_setWidth_self (by decide)] at h
  | wr16 a v =>
    have h := decodeRequest_wr16 a (v.setWidth 32) [] []
    rwa [setWidth_setWidth_self (by decide)] at h
  | wr32 a v => exact decodeRequest_wr32 a v [] []
  | hostcmd c =>
    have h := decodeRequest_hostcmd 0#24 (c.setWidth 32) [] []
    rwa [setWidth_setWidth_self (by decide)] at h
  | wake => exact decodeRequest_wake 0#24 0#32 [] []
  | chkid => exact decodeRequest_chkid 0#24 0#32 [] []
  | tryenq w => exact decodeRequest_tryenq 0#24 w [] []
  | enq w => exact decodeRequest_enq 0#24 w [] []
  | idle => exact decodeRequest_idle 0#24 0#32 [] []
  | pack bs => exact decodeRequest_pack 0#24 0#32 bs []
  | textcmd ws bs => exact decodeRequest_textcmd 0#24 0#32 bs ws
  | wireRead a n =>
    have h := decodeWire_txRead (a.setWidth 24) n
    rwa [setWidth_setWidth_self (by decide)] at h
  | wireWrite a bs =>
    have h := decodeWire_txWrite (a.setWidth 24) bs
    rwa [setWidth_setWidth_self (by decide)] at h
  | wireHostcmd c =>
    have h := decodeWire_host (prefixMarker_append markHost c)
    rwa [BitVec.setWidth_append_eq_right] at h
  | wireHostcmdM11 c =>
    have h := decodeWire_host_reserved (prefixMarker_append markReserved c)
    rwa [BitVec.setWidth_append_eq_right] at h
  | wireWake => exact decodeWire_txWake

/-- Settles O4, by the equation of each row. -/
theorem sentBytesDecodeAsTheirRow : Obligations.SentBytesDecodeAsTheirRow := fun a n s code =>
  ⟨decodeWire_txRead a n, decodeWire_txWrite a s, decodeWire_txHost code, decodeWire_txWake⟩

/-- Settles O5: the first bytes differ because their markers do (`head_ne_of_marker`). -/
theorem onlyWakeAndReadShareAFirstByte : Obligations.OnlyWakeAndReadShareAFirstByte := by
  intro a a' n s code
  have read := firstMarker_txRead a n
  have write := fun x => firstMarker_txWrite x s
  have host := firstMarker_txHost code
  have wake := firstMarker_txWake
  refine ⟨rfl, rfl, by simp, ?_, ?_, ?_, ?_, ?_⟩
  · exact head_ne_of_marker read (write a') (by decide)
  · exact head_ne_of_marker read host (hostMarker_ne rfl code)
  · exact head_ne_of_marker (write a) host (hostMarker_ne rfl code)
  · exact head_ne_of_marker (write a) wake (by decide)
  · exact head_ne_of_marker host wake (hostMarker_ne rfl code).symm

/-- Settles O7: the first three bytes are the address bytes of R71 (`framePrefix_eq`). -/
theorem addressPrefixBytes : Obligations.AddressPrefixBytes := fun a _ _ =>
  ⟨framePrefix_eq a markWrite, framePrefix_eq a markRead⟩

/-- Settles O2, by the equations of the request decoder. -/
theorem opcodeSelectsOperation : Obligations.OpcodeSelectsOperation := fun a d bs ws =>
  ⟨decodeRequest_rdb a d bs ws, decodeRequest_wrb a d bs ws, decodeRequest_rd8 a d bs ws,
    decodeRequest_rd16 a d bs ws, decodeRequest_rd32 a d bs ws, decodeRequest_wr8 a d bs ws,
    decodeRequest_wr16 a d bs ws, decodeRequest_wr32 a d bs ws, decodeRequest_hostcmd a d bs ws,
    decodeRequest_wake a d bs ws, decodeRequest_chkid a d bs ws, decodeRequest_tryenq a d bs ws,
    decodeRequest_enq a d bs ws, decodeRequest_idle a d bs ws, decodeRequest_pack a d bs ws,
    decodeRequest_textcmd a d bs ws⟩

/-- Settles O3: a request is the word of its own fields (`decodeRequest_of_parts`), so each operation code has
the reading O2 gives it. -/
theorem everyRequestWordHasOneReading : Obligations.EveryRequestWordHasOneReading := by
  intro r
  obtain ⟨rdb, wrb, rd8, rd16, rd32, wr8, wr16, wr32, hostcmd, wake, chkid, tryenq, enq, idle, pack,
    textcmd⟩ := opcodeSelectsOperation (reqAddr r.q) (reqData r.q) r.inbytes r.inwords
  have listed (h : reqOp r.q ∈ allOps) :
      ∃ i, decodeRequest r = .ok i ∧ i.opcode = some (reqOp r.q) ∧ i.isWire = false := by
    obtain ⟨i, hi⟩ := decodeRequest_of_mem h
    exact ⟨i, hi, (decodeRequest_opcode hi).symm, decodeRequest_request hi⟩
  exact ⟨listed, decodeRequest_reserved, decodeRequest_of_parts rdb, decodeRequest_of_parts wrb,
    decodeRequest_of_parts rd8, decodeRequest_of_parts rd16, decodeRequest_of_parts rd32,
    decodeRequest_of_parts wr8, decodeRequest_of_parts wr16, decodeRequest_of_parts wr32,
    decodeRequest_of_parts hostcmd, decodeRequest_of_parts wake, decodeRequest_of_parts chkid,
    decodeRequest_of_parts tryenq, decodeRequest_of_parts enq, decodeRequest_of_parts idle,
    decodeRequest_of_parts pack, decodeRequest_of_parts textcmd⟩

/-- Settles O8: each request of CMD is the ENQ of its word. -/
theorem cmdExpandsToEnqs : Obligations.CmdExpandsToEnqs := by
  intro ws
  rw [cmdRequests, List.map_map]
  exact List.map_congr_left fun w _ => decodeRequest_enq 0#24 w [] []

/-- Settles O52, by running the decoder on the words of the table. -/
theorem tableWordsDecode : Obligations.TableWordsDecode := by
  unfold Obligations.TableWordsDecode
  decide

end Sys2Proof
end

section
/-! SUPPORT. The bytes in the engine (spec/30_encoding.md R77, R89): a step of the block leaves them as they
were or sets up a transaction of one of the rows, a turn of another agent leaves them or clears them. -/
namespace Sys2Proof.Machine

/-- The bytes the block sends are always a row of the wire space. -/
theorem IsRow.decodes {bytes : List Byte} (h : IsRow bytes) : ∃ i, decodeWire bytes = .ok i := by
  obtain ⟨a, n, rfl⟩ | ⟨a, s, rfl⟩ | ⟨c, rfl⟩ | rfl := h
  · exact ⟨_, decodeWire_txRead a n⟩
  · exact ⟨_, decodeWire_txWrite a s⟩
  · exact ⟨_, decodeWire_txHost c⟩
  · exact ⟨_, decodeWire_txWake⟩

/-- The engine holds what it held, or the bytes of a row. -/
def KeepsRow (s t : State) : Prop := t.txs = s.txs ∨ ∃ bytes, IsRow bytes ∧ t.txs = some bytes

theorem KeepsRow.engineRow {s t : State} (k : KeepsRow s t) (h : s.engineRow) : t.engineRow := by
  obtain e | ⟨bytes, row, e⟩ := k
  · rwa [State.engineRow, e]
  · intro b hb
    obtain rfl : bytes = b := Option.some.inj (e.symm.trans hb)
    exact row.decodes

theorem keepsRow_after {s t : State} (a : After s t) : KeepsRow s t := by
  cases a.ends with
  | goes bytes row txs txfrom txpos rx results resp fault idle stopped => exact .inr ⟨bytes, row, txs⟩
  | completes r results resp fault idle txs => exact .inl txs
  | faults r results resp fault stopped txs => exact .inl txs

/-- A step of a request operation. -/
theorem keepsRow_acts {s t : State} (a : Acts s t) : KeepsRow s t := by
  cases a with
  | stopped fault same => exact .inl (same ▸ rfl)
  | refused idle same => exact .inl (same ▸ rfl)
  | accept idle after => exact keepsRow_after after
  | select busy cs same => exact .inl (same ▸ rfl)
  | exchange busy bytes cap i rx o cs txs txfrom txpos latch byte same => exact .inl (same ▸ rfl)
  | deselect busy cs after => exact keepsRow_after (s := deselect s) after

/-- No bus event of a transaction without a request changes its bytes. -/
theorem xferStep_releaseNext_txs {s t : State} (h : xferStep releaseNext s = .next t) : t.txs = s.txs := by
  obtain ⟨-, rfl⟩ | ⟨bytes, cap, i, rx, o, -, -, -, -, -, -, rfl⟩ | ⟨bytes, i, -, -, -, -, h⟩ :=
    xferStep_cases h
  · rfl
  · rfl
  · cases h
    rfl

/-- A step of a transaction without a request: at IDLE the bytes of its row are put in the engine. -/
theorem keepsRow_bareXfer {bytes : List Byte} {cap : Nat} {s t : State} (row : IsRow bytes)
    (h : bareXfer bytes cap s = .next t) : KeepsRow s t := by
  obtain ⟨-, rfl⟩ | ⟨-, hx⟩ | ⟨-, hx⟩ := bareXfer_cases h
  · exact .inl rfl
  · exact .inr ⟨bytes, row, xferStep_releaseNext_txs hx⟩
  · exact .inl (xferStep_releaseNext_txs hx)

theorem keepsRow_exec {i : Instr} {s t : State} (h : exec i s = .next t) : KeepsRow s t := by
  cases hw : i.isWire with
  | false => exact keepsRow_acts (exec_acts hw h)
  | true =>
    obtain ⟨bytes, cap, row, he⟩ := exec_wire hw
    exact keepsRow_bareXfer row ((he s).symm.trans h)

theorem keepsRow_blockStep {s t : State} (h : blockStep s = .next t) : KeepsRow s t := by
  cases blockStep_cases h with
  | still same why => exact .inl (same ▸ rfl)
  | refused r rest idle bare port x decode next => exact .inl (next ▸ rfl)
  | accepted r rest i idle bare port decode run => exact keepsRow_exec (s := takeRequest r rest s) run
  | flight r i busy live bare latched decode run => exact keepsRow_exec run
  | wire bytes i live placed decode run => exact keepsRow_exec run

/-- A turn of another agent leaves the bytes; reset clears them (R45, R163). -/
theorem engineRow_agentTurn {s : State} (h : s.engineRow) (a : Turn) : (agentTurn a s).engineRow := by
  cases a with
  | block | request | take | answer | poke | advance => exact h
  | consume => exact KeepsRow.engineRow (.inl (chipConsume_txs s)) h
  | reset =>
    intro bytes hb
    simp [agentTurn] at hb

end Sys2Proof.Machine

namespace Sys2Proof
open Machine

/-- Settles O57, by the agent that takes the step. -/
theorem engineHoldsOnlyWireRows : Obligations.EngineHoldsOnlyWireRows := by
  intro s t h hs
  obtain ⟨rest, -, hb⟩ | ⟨a, rest, -, -, rfl⟩ := step_cases hs
  · exact (keepsRow_blockStep hb).engineRow h
  · exact engineRow_agentTurn (s := { s with sched := rest }) h a

end Sys2Proof
end

section
/-! SUPPORT. Refusals at ACCEPT (spec/30_encoding.md R84, spec/60_exceptions.md R140). -/
namespace Sys2Proof.Machine

/-- A refusal at IDLE as an exact state: one fault bit and one result, nothing else. -/
theorem refuse_idle {s : State} (h : s.pc = .idle) :
    refuse s =
      { s with
        fault := s.fault ||| 0b0001#4, results := s.results ++ [⟨.illegal, 0#32, [], []⟩],
        resp := s.resp ++ [⟨.illegal, 0#32, [], []⟩] } := by
  cases s
  cases h
  rfl

/-- A WRB of too many bytes is refused (R84). -/
theorem exec_wrb_refused {s : State} (hp : s.pc = .idle) {bs : List Byte} (hf : wrbFits bs = false)
    (a : Addr) : exec (.wrb a bs) s = .next (refuse s) :=
  if_pos ⟨hp, hf⟩

end Sys2Proof.Machine

namespace Sys2Proof
open Machine

/-- Settles O43: each of the three is answered by `refuse`, whose state `refuse_idle` writes out. -/
theorem illegalRequestsRefused : Obligations.IllegalRequestsRefused := by
  intro s
  refine ⟨fun r ho hr => ?_, fun hp => ⟨fun a bs hl => ?_, fun ws bs hl => ?_⟩⟩
  · obtain ⟨idle, -, sched, bare, port, -⟩ := ho
    obtain ⟨later, reqs⟩ : ∃ later, s.reqs = r :: later := List.head?_eq_some_iff.1 port
    have run := blockStep_reserved idle bare reqs (decodeRequest_reserved hr)
    exact ⟨_, (step_of_sched_nil sched).trans run, rfl, rfl, rfl, rfl, rfl, by rw [reqs]; rfl⟩
  · rw [exec_wrb_refused hp (decide_eq_false (by omega)), refuse_idle hp]
  · have long : ¬ ws.length + packLen bs.length ≤ 65535 := Nat.not_le.2 hl
    rw [exec_textcmd_refused hp (decide_eq_false long), refuse_idle hp]

end Sys2Proof
end

section
/-! SUPPORT. The frame and the ACCEPT states of the eleven framing operations (spec/40_framing.md R94 to R105):
each is one transaction, or a WRB refused at ACCEPT (R84). -/
namespace Sys2Proof.Machine

/-! ## What a framing operation leaves unchanged -/

theorem isWire_of_isFraming {i : Instr} (h : i.isFraming = true) : i.isWire = false := by
  cases i with
  | wireRead | wireWrite | wireHostcmd | wireHostcmdM11 | wireWake => cases h
  | _ => rfl

/-- A step of a framing operation is the refusal of a WRB (R84) or a step of its transaction. -/
theorem exec_framing {i : Instr} (hi : i.isFraming = true) (s : State) :
    (∃ a bs, i = .wrb a bs ∧ wrbFits bs = false ∧ s.pc = .idle) ∧ exec i s = .next (refuse s) ∨
      ∃ bytes cap finish, exec i s = framing bytes cap finish s := by
  cases i with
  | wrb a bs =>
    by_cases refused : s.pc = .idle ∧ wrbFits bs = false
    · exact .inl ⟨⟨a, bs, rfl, refused.2, refused.1⟩, if_pos refused⟩
    · exact .inr ⟨_, _, _, if_neg refused⟩
  | rdb | rd8 | rd16 | rd32 | wr8 | wr16 | wr32 | hostcmd | wake | chkid => exact .inr ⟨_, _, _, rfl⟩
  | tryenq | enq | idle | pack | textcmd => cases hi
  | wireRead | wireWrite | wireHostcmd | wireHostcmdM11 | wireWake => cases hi

/-- The latches of the ring controller and of the text-command sequencer are the same (R105). -/
def SameSequencers (s t : State) : Prop := sameRing s t ∧ sameText s t

theorem sameSequencers_refl (s : State) : SameSequencers s s :=
  ⟨⟨rfl, rfl, rfl, rfl, rfl⟩, ⟨rfl, rfl, rfl, rfl⟩⟩

/-- One transaction touches neither the other controllers' latches nor the fault register (R105). -/
theorem framing_frame {bytes : List Byte} {cap : Nat} {finish : List Byte → Result} {s t : State}
    (h : framing bytes cap finish s = .next t) : SameSequencers s t ∧ t.fault = s.fault := by
  have same := sameSequencers_refl s
  obtain ⟨-, rfl⟩ | ⟨-, rfl⟩ | ⟨-, event⟩ := framing_cases h
  · exact ⟨same, rfl⟩
  · exact ⟨same, rfl⟩
  · obtain frame | desel :=
      xferStep_frame (R := fun u => SameSequencers s u ∧ u.fault = s.fault) event ⟨same, rfl⟩
        fun _ _ _ _ _ => ⟨same, rfl⟩
    · exact frame
    · obtain ⟨rx, -, desel⟩ := readLatch_next desel
      cases desel
      exact ⟨same, rfl⟩

/-- The ACCEPT step of a request has no bus event (R32). -/
theorem acts_idle_quiet {s t : State} (a : Acts s t) (hp : s.pc = .idle) :
    t.mem = s.mem ∧ t.trace = s.trace := by
  cases a with
  | stopped fault same => exact same ▸ ⟨rfl, rfl⟩
  | refused idle same => exact same ▸ ⟨rfl, rfl⟩
  | accept idle after => exact ⟨after.kept.mem, after.kept.trace⟩
  | select busy cs same => exact absurd hp busy
  | exchange busy bytes cap i rx o cs txs txfrom txpos latch byte same => exact absurd hp busy
  | deselect busy cs after => exact absurd hp busy

/-! ## ACCEPT (R94 to R104) -/

/-- ACCEPT of an operation that is one transaction of `bytes`, captured from `cap` on. -/
theorem framing_accept {bytes : List Byte} {cap : Nat} {finish : List Byte → Result} {s : State}
    (hp : s.pc = .idle) : framing bytes cap finish s = .next (loaded .fx bytes cap s) :=
  framing_idle hp

/-- ACCEPT of a write, which captures nothing (R30). -/
theorem framingWrite_accept {s : State} (hp : s.pc = .idle) (a : Addr) (bs : List Byte) (v : Word) :
    framingWrite a bs v s = .next (loaded .fx (framePrefix a 0b10#2 ++ bs) (3 + bs.length) s) := by
  rw [← txWrite_length a bs]
  exact framing_accept hp

end Sys2Proof.Machine

namespace Sys2Proof
open Machine

/-- Settles O15: an RDB is one read of its count (`framingRead_served`). -/
theorem rdbServesEveryCount : Obligations.RdbServesEveryCount := fun _ _ _ _ _ hd hl ho =>
  framingRead_served hd ho (fun _ _ => rfl) hl rfl

/-- Settles O18: what holds of every request is read off what its step does (`Acts`); the latches of the other
controllers and the fault register are left by the refusal of a WRB and by a transaction (`framing_frame`). -/
theorem framingFrame : Obligations.FramingFrame := by
  intro i s t hi h
  have a := exec_acts (isWire_of_isFraming hi) h
  have own : SameSequencers s t ∧ (t.fault = s.fault ∨
      (∃ a bs, i = .wrb a bs ∧ wrbFits bs = false ∧ s.pc = .idle) ∧ t.fault = s.fault ||| 0b0001#4) := by
    obtain ⟨refused, e⟩ | ⟨bytes, cap, finish, e⟩ := exec_framing hi s
    · cases e.symm.trans h
      exact ⟨sameSequencers_refl s, .inr ⟨refused, rfl⟩⟩
    · obtain ⟨same, fault⟩ := framing_frame (e.symm.trans h)
      exact ⟨same, .inl fault⟩
  obtain ⟨⟨ring, text⟩, fault⟩ := own
  exact ⟨sameAround_acts a, ring, text, wire_acts a, sameMemory_acts a, fault, acts_idle_quiet a⟩

/-- Settles O12: each operation is its transaction, set up at IDLE (`framing_accept`), and a WRB of an admitted
list is not refused. -/
theorem framingOperationsAccept : Obligations.FramingOperationsAccept := by
  intro s hp
  have write := framingWrite_accept hp
  refine ⟨fun a n => ?rdb, fun a => ?rd8, fun a => ?rd16, fun a => ?rd32, ?chkid, fun a bs hl => ?wrb,
    fun a v => ?wr8, fun a v => ?wr16, fun a v => ?wr32, fun c => ?hostcmd, ?wake⟩
  case rdb | rd8 | rd16 | rd32 | chkid | hostcmd | wake => exact framing_accept hp
  case wrb => exact (exec_wrb_of_lt hl a s).trans (write a bs _)
  case wr8 => exact (exec_wr8 a v s).trans (write a _ _)
  case wr16 => exact (exec_wr16 a v s).trans (write a _ _)
  case wr32 => exact (exec_wr32 a v s).trans (write a _ _)

end Sys2Proof
end

section
/-! SUPPORT. The ring controller one step at a time (spec/41_ring_buffer.md R107 to R118): which occupancies are
accepted, and the DESEL step of each program point of an attempt, of a retry and of IDLE as an exact state. -/
namespace Sys2Proof.Machine

/-! ## Free space and acceptance (R108 to R111) -/

/-- Up to a full ring the policy has no say (R109). -/
theorem freeOf_of_le {occ : Word} (p : DivergencePolicy) (h : occ.toNat ≤ 4096) :
    freeOf p occ = some (4096#32 - occ) :=
  if_pos h

theorem not_le_ringSize {occ : Word} (h : 4097 ≤ occ.toNat) : ¬ occ.toNat ≤ ringSize := by
  simp only [ringSize]
  omega

theorem freeOf_fault {occ : Word} (h : 4097 ≤ occ.toNat) : freeOf .fault occ = none :=
  if_neg (not_le_ringSize h)

theorem freeOf_reject {occ : Word} (h : 4097 ≤ occ.toNat) : freeOf .reject occ = some 0#32 :=
  if_neg (not_le_ringSize h)

/-- The policy `wrap32` takes the difference at every occupancy (R109). -/
theorem freeOf_wrap32 (occ : Word) : freeOf .wrap32 occ = some (4096#32 - occ) := by
  by_cases h : occ.toNat ≤ 4096
  · exact freeOf_of_le .wrap32 h
  · exact if_neg h

/-- Up to a full ring the difference does not wrap. -/
theorem free_toNat {occ : Word} (h : occ.toNat ≤ 4096) : (4096#32 - occ).toNat = 4096 - occ.toNat := by
  bv_omega

/-- Above a full ring the wrapped difference is never small (R177). -/
theorem wrapped_free_roomy {occ : Word} (h : 4097 ≤ occ.toNat) : 4 < (4096#32 - occ).toNat := by
  bv_omega

/-! ## Latch reads and the ring write -/

/-- A latch read goes on with the value the latch holds. -/
theorem readLatch_of_eq {α : Type} {l : Latch} {v : Option α} {a : α} (h : v = some a) (k : α → Out) :
    readLatch l v k = k a := by
  rw [h, readLatch_some]

/-- The ring write of a word, its transaction written out (R112). -/
theorem startRingWrite_eq (w wo : Word) (s : State) :
    startRingWrite w wo s =
      loaded .qww
        (framePrefix (ringAddr s.cfg wo) 0b10#2 ++
          [w.setWidth 8, (w >>> 8).setWidth 8, (w >>> 16).setWidth 8, (w >>> 24).setWidth 8]) 7 s := by
  rw [startRingWrite, le4_eq]
  rfl

/-! ## The DESEL steps of an attempt (R107) -/

/-- The latches of an attempt that saw the pointers `wo` and `ro` and found `f` bytes free (R108, R109). -/
def measured (wo ro f : Word) (s : State) : State :=
  { s with woL := some wo, occ := some (wo - ro), free := some f }

section
variable {word : State → (Word → Out) → Out} {outcome : Verdict → State → Out} {s : State} {rx : List Byte}

/-- The DESEL step of Q_RO. -/
theorem attempt_qro_desel (h : atDesel .qro rx s) :
    attempt word outcome s = .next (latchRo rx (deselect s)) := by
  have ⟨hp, _, hrx, _⟩ := h
  rw [attempt_qro hp, atDesel_run h, afterRo, readLatch_of_eq (by exact hrx)]

/-- The DESEL step of Q_WP. -/
theorem attempt_qwp_desel (h : atDesel .qwp rx s) :
    attempt word outcome s = outcome .enqueued (deselect s) := by
  have ⟨hp, _⟩ := h
  rw [attempt_qwp hp, atDesel_run h]

section
variable {ro wo : Word} (h : atDesel .qwo rx s) (hro : s.roL = some ro) (hwo : wo = leWord rx)
include h hro hwo

/-- The DESEL step of Q_WO, before the decision. -/
theorem attempt_qwo_desel :
    attempt word outcome s = decideAttempt word wo (wo - ro) outcome (latchWo rx ro (deselect s)) := by
  have ⟨hp, _, hrx, _⟩ := h
  rw [attempt_qwo hp, atDesel_run h, afterWo, readLatch_of_eq (by exact hrx),
    readLatch_of_eq (by exact hro), hwo]
  rfl

/-- Diverged pointers under a policy that gives no free space (R109, R141). -/
theorem attempt_diverged (hf : freeOf s.cfg.policy (wo - ro) = none) :
    attempt word outcome s =
      .next (enterFault faultDivergence true (latchWo rx ro (deselect s))) := by
  rw [attempt_qwo_desel h hro hwo]
  exact decideAttempt_diverged hf

section
variable {f : Word} (hf : freeOf s.cfg.policy (wo - ro) = some f)
include hf

/-- Room for the word (R110, R112). -/
theorem attempt_roomy (room : 4 < f.toNat) :
    attempt word outcome s = word (measured wo ro f (deselect s))
      fun w => .next (startRingWrite w wo (measured wo ro f (deselect s))) := by
  rw [attempt_qwo_desel h hro hwo, decideAttempt_roomy (s := latchWo rx ro (deselect s)) hf room, hwo]
  rfl

/-- No room for the word (R111). -/
theorem attempt_full (full : f.toNat ≤ 4) :
    attempt word outcome s = outcome .rejected (measured wo ro f (deselect s)) := by
  rw [attempt_qwo_desel h hro hwo, decideAttempt_full (s := latchWo rx ro (deselect s)) hf full, hwo]
  rfl

end

end

end

/-! ## The three operations that enqueue -/

/-- In flight each of the three is an attempt (R107). -/
theorem exec_enqueues {i : Instr} {s : State} (busy : s.pc ≠ .idle)
    (hi : (∃ w, i = .tryenq w) ∨ (∃ w, i = .enq w) ∨ ∃ ws bs, i = .textcmd ws bs) :
    ∃ word outcome, exec i s = attempt word outcome s := by
  obtain ⟨w, rfl⟩ | ⟨w, rfl⟩ | ⟨ws, bs, rfl⟩ := hi
  · exact ⟨_, _, exec_tryenq_busy busy w⟩
  · exact ⟨_, _, exec_enq_busy busy w⟩
  · exact ⟨_, _, exec_textcmd_busy busy ws bs⟩

/-- `w` is the word that the operation `i` is enqueueing in `s`. -/
def Enqueues (w : Word) (i : Instr) (s : State) : Prop :=
  i = .tryenq w ∨ i = .enq w ∨
    ∃ ws bs l k, i = .textcmd ws bs ∧ s.words = some l ∧ s.widx = some k ∧ l[k.toNat]? = some w

/-- The word of a text command is the one its index names (R107). -/
theorem currentWord_of {s : State} {l : List Word} {k : BitVec 17} {w : Word} (hl : s.words = some l)
    (hk : s.widx = some k) (hw : l[k.toNat]? = some w) (go : Word → Out) : currentWord s go = go w := by
  simp only [currentWord, hl, hk, readLatch_some, hw]

/-- In flight the operation is an attempt to enqueue its word, whatever the attempt has latched. -/
theorem Enqueues.exec {w : Word} {i : Instr} {s : State} (hi : Enqueues w i s) (busy : s.pc ≠ .idle) :
    ∃ word outcome, exec i s = attempt word outcome s ∧
      ∀ u : State, u.words = s.words → u.widx = s.widx → ∀ go, word u go = go w := by
  obtain rfl | rfl | ⟨ws, bs, l, k, rfl, hl, hk, hw⟩ := hi
  · exact ⟨_, _, exec_tryenq_busy busy w, fun _ _ _ _ => rfl⟩
  · exact ⟨_, _, exec_enq_busy busy w, fun _ _ _ _ => rfl⟩
  · exact ⟨_, _, exec_textcmd_busy busy ws bs,
      fun u words widx => currentWord_of (words.trans hl) (widx.trans hk) hw⟩

/-- An accepted attempt of any of the three sets up the ring write of its word (R112). -/
theorem Enqueues.writes {w ro wo f : Word} {i : Instr} {s : State} {rx : List Byte} (hi : Enqueues w i s)
    (h : atDesel .qwo rx s) (hro : s.roL = some ro) (hwo : wo = leWord rx)
    (hf : freeOf s.cfg.policy (wo - ro) = some f) (room : 4 < f.toNat) :
    Machine.exec i s = .next
      { loaded .qww
          (framePrefix (ringAddr s.cfg wo) 0b10#2 ++
            [w.setWidth 8, (w >>> 8).setWidth 8, (w >>> 16).setWidth 8, (w >>> 24).setWidth 8]) 7
          (deselected s)
        with woL := some wo, occ := some (wo - ro), free := some f } := by
  have ⟨hp, _⟩ := h
  obtain ⟨word, outcome, run, gives⟩ := hi.exec (by simp [hp])
  rw [run, attempt_roomy h hro hwo hf room, gives (measured wo ro f (deselect s)) rfl rfl,
    startRingWrite_eq]
  rfl

/-! ## How a request ends -/

/-- A request that completes in its ACCEPT step stays at IDLE (R32). -/
theorem complete_idle {s : State} (h : s.pc = .idle) (r : Result) : complete r s = deliver r s := by
  cases s
  cases h
  rfl

/-- TRYENQ reports the pointer of its rejected attempt (R114). -/
theorem exec_tryenq_full {s : State} {rx : List Byte} {ro wo f : Word} (h : atDesel .qwo rx s)
    (hro : s.roL = some ro) (hwo : wo = leWord rx) (hf : freeOf s.cfg.policy (wo - ro) = some f)
    (full : f.toNat ≤ 4) (w : Word) :
    exec (.tryenq w) s = .next
      { resultState ⟨.rejected, wo, [], []⟩ s
        with woL := some wo, occ := some (wo - ro), free := some f } := by
  have ⟨hp, _⟩ := h
  rw [exec_tryenq_busy (by simp [hp]), attempt_full h hro hwo hf full]
  rfl

/-! ## A word given up (R133, R134) -/

section
variable {s : State} {ws : List Word} {k : BitVec 17} {nd ng : BitVec 16} (hw : s.words = some ws)
  (hk : s.widx = some k) (hd : s.ndeliv = some nd) (hg : s.ngaveup = some ng)

include hd in
/-- Of the two counts only that of the words given up moves. -/
theorem countWord_gaveup :
    countWord false k nd ng s = { s with widx := some (k + 1#17), ngaveup := some (ng + 1#16) } := by
  cases s
  cases hd
  rfl

include hw hk hd hg

/-- The command ends with the word. -/
theorem wordDone_gaveup_ends {again : State → Out}
    (ends : (k + 1#17).toNat = ws.length ∨ s.cfg.abortOnGaveup = true) :
    wordDone again false s = .next (complete (textResult nd (ng + 1#16))
      { s with widx := some (k + 1#17), ngaveup := some (ng + 1#16) }) := by
  rw [wordDone_ends false hd hg hk hw (ends.imp_right fun abort => ⟨rfl, abort⟩), countWord_gaveup hd]
  rfl

/-- The next word starts with a fresh budget. -/
theorem wordDone_gaveup_goes (hb : s.cfg.retryBudget ≠ 0) (left : (k + 1#17).toNat < ws.length)
    (stays : s.cfg.abortOnGaveup = false) :
    wordDone nextWord false s = .next (startAttempt
      { s with widx := some (k + 1#17), ngaveup := some (ng + 1#16), attempts := some 0#16 }) := by
  have more : ¬ ((k + 1#17).toNat = ws.length ∨ false = false ∧ s.cfg.abortOnGaveup = true) := by
    rw [stays]
    rintro (last | ⟨-, abort⟩)
    · omega
    · cases abort
  rw [wordDone_goes false hd hg hk hw more, countWord_gaveup hd,
    nextWord_starts (by exact hb) (by exact hw) rfl left]

end

end Sys2Proof.Machine

namespace Sys2Proof
open Machine

/-- Settles O9: up to 4096 the free space is the difference, under every policy (`freeOf_of_le`); above it each
policy has its own. -/
theorem occupancyDecidesAcceptance : Obligations.OccupancyDecidesAcceptance := by
  intro p occ
  refine ⟨fun roomy => ?_, fun low high => ?_, fun diverged => ⟨?_, ?_, ?_⟩⟩
  · have value := free_toNat (occ := occ) (by omega)
    exact ⟨_, freeOf_of_le p (by omega), value, accepts_eq_true (by omega)⟩
  · have value := free_toNat high
    exact ⟨_, freeOf_of_le p high, value, accepts_eq_false (by omega)⟩
  · rintro rfl
    exact freeOf_fault diverged
  · rintro rfl
    exact ⟨_, freeOf_reject diverged, rfl, rfl⟩
  · rintro rfl
    exact ⟨_, freeOf_wrap32 occ, rfl, accepts_eq_true (wrapped_free_roomy diverged)⟩

/-- Settles O10: neither the difference of the pointers nor its growth by 4 wraps below 4096. -/
theorem acceptedWordKeepsHeadroom : Obligations.AcceptedWordKeepsHeadroom := by
  intro wo ro ro' seen forward
  have grows : (occupied (advance wo) ro').toNat = (occupied wo ro').toNat + 4 := by
    simp only [occupied, advance, wordBytes] at seen forward ⊢
    bv_omega
  exact ⟨grows, by omega⟩

/-- Settles O19, by the ACCEPT step of each operation. -/
theorem ringOperationsAccept : Obligations.RingOperationsAccept := by
  intro s hp
  refine ⟨fun w => exec_tryenq_accept hp w, fun w hb => exec_enq_accept hp w hb, fun w hb => ?zero,
    exec_idle_accept hp⟩
  case zero =>
    rw [exec_enq_zero hp w hb, complete_idle (by exact hp)]
    rfl

/-- Settles O20: in flight the three operations are the same attempt (`attempt_qro_desel`). -/
theorem attemptLatchesReadOffset : Obligations.AttemptLatchesReadOffset := by
  intro s b0 b1 b2 b3 h i hi
  have ⟨hp, _⟩ := h
  obtain ⟨word, outcome, run⟩ := exec_enqueues (s := s) (by simp [hp]) hi
  rw [run, attempt_qro_desel h, latchRo, leWord_four]
  rfl

/-- Settles O21: at most 4091 bytes occupied are more than 4 free (`free_toNat`). -/
theorem roomyAttemptWritesTheWord : Obligations.RoomyAttemptWritesTheWord := by
  intro s rx ro wo w h hro hwo roomy i hi
  have value := free_toNat (occ := wo - ro) (by omega)
  exact Enqueues.writes hi h hro hwo (freeOf_of_le _ (by omega)) (by omega)

/-- Settles O22: 4092 bytes occupied or more, up to a full ring, are at most 4 free (`free_toNat`). -/
theorem fullRingRejectsTryenq : Obligations.FullRingRejectsTryenq := by
  intro s rx ro wo w h hro hwo low high
  have value := free_toNat high
  exact exec_tryenq_full h hro hwo (freeOf_of_le _ high) (by omega) w

/-- Settles O23: the policy gives no free space (`freeOf_fault`), whatever the operation. -/
theorem divergedPointersEnterFault : Obligations.DivergedPointersEnterFault := by
  intro s rx ro wo h hro hwo diverged policy i hi
  have ⟨hp, _⟩ := h
  obtain ⟨word, outcome, run⟩ := exec_enqueues (s := s) (by simp [hp]) hi
  rw [run, attempt_diverged h hro hwo (policy ▸ freeOf_fault diverged), hwo]
  rfl

/-- Settles O24: `reject` counts no byte as free (`freeOf_reject`), and the wrapped difference of `wrap32` is more
than 4 (`wrapped_free_roomy`). -/
theorem otherPoliciesOnDivergence : Obligations.OtherPoliciesOnDivergence := by
  intro s rx ro wo w h hro hwo diverged
  refine ⟨fun policy => ?reject, fun policy i hi => ?wrap32⟩
  case reject =>
    exact exec_tryenq_full h hro hwo (policy ▸ freeOf_reject diverged) (by decide) w
  case wrap32 =>
    exact Enqueues.writes hi h hro hwo (policy ▸ freeOf_wrap32 _) (wrapped_free_roomy diverged)

/-- Settles O26, by the completion handlers of the two operations. -/
theorem acceptedWordCompletes : Obligations.AcceptedWordCompletes := by
  intro s rx wo w n h
  have ⟨hp, _⟩ := h
  have busy : s.pc ≠ .idle := by simp [hp]
  refine ⟨fun hw => ?tryenq, fun hn => ?enq⟩
  case tryenq =>
    rw [exec_tryenq_busy busy, attempt_qwp_desel h, tryenqOutcome, readLatch_of_eq (by exact hw)]
    rfl
  case enq =>
    rw [exec_enq_busy busy, attempt_qwp_desel h, retry_enqueued (s := deselect s) hn]
    rfl

/-- Settles O27: a rejected attempt goes to the retry state machine (`retry_gaveup`, `retry_again`). -/
theorem enqRetriesUpToBudget : Obligations.EnqRetriesUpToBudget := by
  intro s rx ro wo w f n h hro hwo hn hf full
  have ⟨hp, _⟩ := h
  rw [exec_enq_busy (by simp [hp]), attempt_full h hro hwo hf full]
  refine ⟨fun last => ?last, fun more => ?more⟩
  case last =>
    rw [retry_gaveup (s := measured wo ro f (deselect s)) hn last]
    rfl
  case more =>
    rw [retry_again (s := measured wo ro f (deselect s)) hn more]
    rfl

/-- Settles O28, by the DESEL step of each of its two reads. -/
theorem idleComparesRawPointers : Obligations.IdleComparesRawPointers := by
  intro s b0 b1 b2 b3
  refine ⟨fun h => ?iro, fun ro h hro => ?iwo⟩
  case iro =>
    have ⟨hp, _, hrx, _⟩ := h
    rw [exec_idle_iro hp, atDesel_run h, afterIdleRo, readLatch_of_eq (by exact hrx), leWord_four]
    rfl
  case iwo =>
    have ⟨hp, _, hrx, _⟩ := h
    rw [exec_idle_iwo hp, atDesel_run h, afterIdleWo, readLatch_of_eq (by exact hrx),
      readLatch_of_eq (by exact hro), leWord_four]
    rfl

/-- Settles O38: below the budget the attempt is made again (`retry_again`), at it the word is counted as given up
and the command ends (`wordDone_gaveup_ends`) or starts its next word (`wordDone_gaveup_goes`). -/
theorem textcmdGivesUpWord : Obligations.TextcmdGivesUpWord := by
  intro s rx l k nd ng n ro wo f ws bs h hro hwo hf full hl hk hd hg hn hb
  have ⟨hp, _⟩ := h
  rw [exec_textcmd_busy (by simp [hp]), attempt_full h hro hwo hf full, textOutcome]
  refine ⟨fun more => ?again, fun last => ?counted⟩
  case again =>
    rw [retry_again (s := measured wo ro f (deselect s)) hn more]
    rfl
  case counted =>
    rw [retry_gaveup (s := measured wo ro f (deselect s)) hn last]
    refine ⟨fun ends => ?ends, fun left stays => ?goes⟩
    case ends =>
      rw [wordDone_gaveup_ends (by exact hl) (by exact hk) (by exact hd) (by exact hg) (by exact ends)]
      rfl
    case goes =>
      rw [wordDone_gaveup_goes (by exact hl) (by exact hk) (by exact hd) (by exact hg) (by exact hb)
        (by exact left) (by exact stays)]
      rfl

end Sys2Proof
end

section
/-! SUPPORT. Attempts against a chip that answers from its memory and does not move (spec/41_ring_buffer.md R107
to R116, spec/60_exceptions.md R156, R158, R162): nineteen steps from the set-up of an attempt to its decision,
seventeen from an accepted decision to the completion, and what the two writes leave in chip memory. -/
namespace Sys2Proof.Machine

/-! ## The two writes of an accepted word (R112, R113) -/

/-- Chip memory after the word `w` and the advanced pointer were written. -/
def ringStored (c : Config) (wo w : Word) (m : Memory) : Memory :=
  (m.writeBytes (c.cmdBufBase + wo.toNat % 4096) (le4 w)).writeBytes c.regCmdWrite (le4 (advance wo))

theorem ringStored_other (c : Config) (wo w : Word) (m : Memory) {x : Nat}
    (hp : ¬ inRegister c.regCmdWrite x) (hr : ¬ inRegister (c.cmdBufBase + wo.toNat % 4096) x) :
    (ringStored c wo w m).read x = m.read x := by
  simp only [inRegister] at hp hr
  rw [ringStored, Memory.read_writeBytes_other _ _ (by rw [le4_length]; omega),
    Memory.read_writeBytes_other _ _ (by rw [le4_length]; omega)]

section
variable {c : Config} (ha : apart c) (wo w : Word) (m : Memory)
include ha

theorem ringStored_pointer : (ringStored c wo w m).readWord c.regCmdWrite = some (advance wo) := by
  obtain ⟨-, -, -, -, fits⟩ := ha
  exact Memory.readWord_le4_self _ _ _ fits

section
variable (aligned : wo.toNat % 4 = 0)
include aligned

/-- An aligned word lies inside the ring window, so the pointer write is apart from it. -/
theorem ringStored_word (window : c.cmdBufBase + 4095 < 2 ^ 22) :
    (ringStored c wo w m).readWord (c.cmdBufBase + wo.toNat % 4096) = some w := by
  obtain ⟨-, -, separate, -, -⟩ := ha
  simp only [ringSize] at separate
  rw [ringStored, Memory.readWord_le4_other _ _ _ _ (by omega),
    Memory.readWord_le4_self _ _ _ (by simp only [chipSpace]; omega)]

theorem ringStored_readOffset : (ringStored c wo w m).readWord c.regCmdRead = m.readWord c.regCmdRead := by
  obtain ⟨registers, separate, -, -, -⟩ := ha
  simp only [ringSize] at separate
  rw [ringStored, Memory.readWord_le4_other _ _ _ _ (by omega), Memory.readWord_le4_other _ _ _ _ (by omega)]

end

end

/-! ## Parameters as chip addresses -/

/-- A register inside the chip's space is reached over the bus at the address its parameter names (R49). -/
theorem paramAddr_wire {x : Nat} (h : x + 4 ≤ chipSpace) : ((paramAddr x).setWidth 22).toNat = x := by
  rw [BitVec.toNat_setWidth, paramAddr_toNat (by omega)]
  exact Nat.mod_eq_of_lt (by simp only [chipSpace] at h; omega)

/-- A ring address inside the window is reached over the bus (R51). -/
theorem ringAddr_wire {c : Config} (window : c.cmdBufBase + 4095 < 2 ^ 22) (wo : Word) :
    ((ringAddr c wo).setWidth 22).toNat = c.cmdBufBase + wo.toNat % 4096 := by
  rw [BitVec.toNat_setWidth, ringAddr_toNat window]
  omega

section
variable {s : State} (ha : apart s.cfg)
include ha

theorem chipRead_eq : chipRead s = s.mem.readWord s.cfg.regCmdRead := by
  obtain ⟨-, -, -, fits, -⟩ := ha
  rw [chipRead, paramAddr_toNat (by omega)]

theorem chipWrite_eq : chipWrite s = s.mem.readWord s.cfg.regCmdWrite := by
  obtain ⟨-, -, -, -, fits⟩ := ha
  rw [chipWrite, paramAddr_toNat (by omega)]

end

section
variable {s t : State} {wo w : Word} (ha : apart s.cfg) (cfg : t.cfg = s.cfg)
  (stored : t.mem = ringStored s.cfg wo w s.mem)
include ha cfg stored

theorem chipWrite_stored : chipWrite t = some (advance wo) := by
  rw [chipWrite_eq (cfg ▸ ha), cfg, stored, ringStored_pointer ha]

theorem chipRead_stored (aligned : wo.toNat % 4 = 0) : chipRead t = chipRead s := by
  rw [chipRead_eq (cfg ▸ ha), cfg, stored, ringStored_readOffset ha wo w s.mem aligned, chipRead_eq ha]

end

/-- A valid budget fits the 16-bit count of attempts (R10, R25). -/
theorem configValid_budget {c : Config} (h : configValid c = true) : c.retryBudget ≤ 65535 := by
  simp only [configValid, Bool.and_eq_true, decide_eq_true_eq] at h
  obtain ⟨⟨-, budget⟩, -⟩ := h
  exact budget

/-! ## An attempt from its set-up to its decision -/

theorem runSteps_trans {m n : Nat} {s t u : State} (h : runSteps m s = .next t) (k : runSteps n t = .next u) :
    runSteps (m + n) s = .next u :=
  (runSteps_add h).trans k

/-- In `u` the request `r`, offered in `s`, begins an attempt, and no byte of the chip has changed. -/
structure Attempting (r : Request) (s u : State) : Prop where
  service : InService r s u
  setUp : SetUp .qro (txRead (paramAddr s.cfg.regCmdRead) 4) readCap u
  mem : u.mem = s.mem

/-- An attempt set up, whether by ACCEPT or by a retry (R107, R117). -/
theorem attempting_startAttempt {r : Request} {s v : State} (h : InService r s v) (hc : v.cs = false)
    (hm : v.mem = s.mem) : Attempting r s (startAttempt v) :=
  ⟨{ h with }, ⟨rfl, hc, by rw [← h.cfg]; rfl, rfl, rfl, rfl⟩, hm⟩

/-- `v` stands before the DESEL step of Q_WO of the attempt that `u` begins. -/
structure AtDecision (r : Request) (s u v : State) : Prop where
  run : runSteps 19 u = .next v
  service : InService r s v
  mem : v.mem = s.mem
  attempts : v.attempts = u.attempts
  events : v.trace.length = u.trace.length + 19

/-- The latches of an attempt are no concern of the request in service. -/
theorem InService.measured {r : Request} {s v : State} (h : InService r s v) (ro wo f : Word) :
    InService r s (measured wo ro f (deselect v)) :=
  { h with }

section
variable {r : Request} {s u : State} {i : Instr} {word : State → (Word → Out) → Out}
  {outcome : Verdict → State → Out} (hd : decodeRequest r = .ok i)
  (hx : ∀ w, w.pc ≠ .idle → exec i w = attempt word outcome w) (ha : apart s.cfg)
include hd hx ha

section
variable {ro wo : Word} (h : Attempting r s u) (hro : chipRead s = some ro) (hwo : chipWrite s = some wo)
include h hro hwo

/-- Both pointers are read and latched (R107, R156). -/
theorem Attempting.decides :
    ∃ v, AtDecision r s u v ∧ step v = decideAttempt word wo (wo - ro) outcome
      { deselect v with woL := some wo, occ := some (wo - ro) } := by
  rw [chipRead_eq ha] at hro
  rw [chipWrite_eq ha] at hwo
  obtain ⟨-, -, -, fitsR, fitsW⟩ := ha
  obtain ⟨a, runA, gA, serviceA, stepA, eventsA, memA, dA, rxA, valueA⟩ :=
    h.service.readPhase (k := afterRo) hd (by decide) (by decide) h.setUp
      (fun w hp => (hx w (by simp [hp])).trans (attempt_qro hp)) (by rw [paramAddr_wire fitsR, h.mem, hro])
  have latch : Machine.step a = .next (latchRo dA (deselect a)) :=
    stepA.trans (readLatch_of_eq (by exact rxA) _)
  have service : InService r s (latchRo dA (deselect a)) := { serviceA with }
  obtain ⟨b, runB, gB, serviceB, stepB, eventsB, memB, dB, rxB, valueB⟩ :=
    service.readPhase (p := .qwo) (a := paramAddr s.cfg.regCmdWrite) (k := afterWo word outcome) (x := wo) hd
      (by decide) (by decide) ⟨rfl, rfl, by rw [← serviceA.cfg]; rfl, rfl, rfl, rfl⟩
      (fun w hp => (hx w (by simp [hp])).trans (attempt_qwo hp))
      (by rw [paramAddr_wire fitsW, ← hwo, ← h.mem, ← memA]; rfl)
  have events : (latchRo dA (deselect a)).trace.length = a.trace.length + 1 := List.length_append
  refine ⟨b, ⟨runSteps_trans (runSteps_trans runA (runSteps_one latch)) runB, serviceB,
    memB.trans (memA.trans h.mem), gB.attempts.trans gA.attempts, by omega⟩, ?_⟩
  rw [stepB, afterWo, readLatch_of_eq (by exact rxB), readLatch_of_eq (by exact gB.roL), valueA, valueB,
    latchWo, valueB]
  rfl

/-- With room for the word its ring write is set up (R110, R112). -/
theorem Attempting.accepted (room : (wo - ro).toNat ≤ 4091) :
    ∃ v, AtDecision r s u v ∧ step v = word (measured wo ro (4096#32 - (wo - ro)) (deselect v))
      fun w => .next (startRingWrite w wo (measured wo ro (4096#32 - (wo - ro)) (deselect v))) := by
  have value := free_toNat (occ := wo - ro) (by omega)
  obtain ⟨v, at_v, next⟩ := h.decides hd hx ha hro hwo
  exact ⟨v, at_v, next.trans (decideAttempt_roomy (freeOf_of_le _ (by omega)) (by omega))⟩

/-- On a full ring the operation is told of the rejection (R111). -/
theorem Attempting.rejected (low : 4092 ≤ (wo - ro).toNat) (high : (wo - ro).toNat ≤ 4096) :
    ∃ v, AtDecision r s u v ∧
      step v = outcome .rejected (measured wo ro (4096#32 - (wo - ro)) (deselect v)) := by
  have value := free_toNat high
  obtain ⟨v, at_v, next⟩ := h.decides hd hx ha hro hwo
  exact ⟨v, at_v, next.trans (decideAttempt_full (freeOf_of_le _ high) (by omega))⟩

end

/-- From the ring write to the completion: the word, then the advanced pointer (R112, R113). -/
theorem InService.stores {w wo : Word} (window : s.cfg.cmdBufBase + 4095 < 2 ^ 22) (h : InService r s u)
    (hl : SetUp .qww (txWrite (ringAddr s.cfg wo) (le4 w)) 7 u) (hwo : u.woL = some wo) :
    ∃ v, runSteps 17 u = .next v ∧ InService r s v ∧ v.woL = some wo ∧
      v.mem = ringStored s.cfg wo w u.mem ∧ Machine.step v = outcome .enqueued (deselect v) := by
  obtain ⟨-, -, -, -, fits⟩ := ha
  obtain ⟨a, runA, gA, serviceA, stepA, memA⟩ :=
    h.writePhase (k := afterWordWrite) hd (by decide) (by decide) hl
      (fun w hp => (hx w (by simp [hp])).trans (attempt_qww hp))
  rw [ringAddr_wire window] at memA
  have woA : a.woL = some wo := gA.woL.trans hwo
  have pointer : Machine.step a = .next (startPointerWrite wo (deselect a)) :=
    stepA.trans (readLatch_of_eq (by exact woA) _)
  have service : InService r s (startPointerWrite wo (deselect a)) := { serviceA with }
  obtain ⟨b, runB, gB, serviceB, stepB, memB⟩ :=
    service.writePhase (p := .qwp) (a := paramAddr s.cfg.regCmdWrite) (b := advance wo)
      (k := outcome .enqueued) hd (by decide) (by decide) ⟨rfl, rfl, by rw [← serviceA.cfg]; rfl, rfl, rfl, rfl⟩
      (fun w hp => (hx w (by simp [hp])).trans (attempt_qwp hp))
  rw [paramAddr_wire fits] at memB
  refine ⟨b, runSteps_trans (runSteps_trans runA (runSteps_one pointer)) runB, serviceB, gB.woL.trans woA,
    memB.trans ?_, stepB⟩
  rw [ringStored, ← memA]
  rfl

end

/-! ## TRYENQ with room for its word (R114) -/

/-- From its attempt on TRYENQ takes 38 steps to the result, and the two writes are all that chip memory sees. -/
theorem Attempting.enqueues {r : Request} {s u : State} {w ro wo : Word}
    (hd : decodeRequest r = .ok (.tryenq w)) (ha : apart s.cfg) (window : s.cfg.cmdBufBase + 4095 < 2 ^ 22)
    (h : Attempting r s u) (hro : chipRead s = some ro) (hwo : chipWrite s = some wo)
    (room : (wo - ro).toNat ≤ 4091) :
    ∃ t, runSteps 38 u = .next t ∧ t.pc = .idle ∧ t.fault = s.fault ∧ t.cfg = s.cfg ∧
      t.results = s.results ++ [plainResult .enqueued (advance wo)] ∧ t.mem = ringStored s.cfg wo w s.mem := by
  have flight := fun (u : State) (busy : u.pc ≠ .idle) => exec_tryenq_busy busy w
  obtain ⟨v, ⟨reads, service, mem, -, -⟩, decision⟩ := h.accepted hd flight ha hro hwo room
  obtain ⟨t, writes, service, woL, stored, next⟩ :=
    InService.stores (u := startRingWrite w wo (measured wo ro (4096#32 - (wo - ro)) (deselect v))) hd flight
      ha window { service with } ⟨rfl, rfl, by rw [← service.cfg]; rfl, rfl, rfl, rfl⟩ rfl
  have completion : Machine.step t = .next (complete (plainResult .enqueued (advance wo)) (deselect t)) :=
    next.trans (readLatch_of_eq (by exact woL) _)
  have run := runSteps_trans reads (runSteps_trans (runSteps_one decision)
    (runSteps_trans writes (runSteps_one completion)))
  exact ⟨_, run, rfl, service.fault, service.cfg, congrArg (· ++ [_]) service.results,
    stored.trans (congrArg _ mem)⟩

/-! ## ENQ on a ring that never drains (R115, R116) -/

/-- A count of attempts as the value of a result (R116). -/
theorem setWidth_of_toNat {n : BitVec 16} {k : Nat} (h : n.toNat = k) : n.setWidth 32 = BitVec.ofNat 32 k := by
  rw [← h, BitVec.ofNat_toNat]

/-- The count of attempts does not wrap below the largest budget (R10, R115). -/
theorem count_succ {n : BitVec 16} (h : n.toNat < 65535) : (n + 1#16).toNat = n.toNat + 1 := by
  rw [BitVec.toNat_add, BitVec.toNat_ofNat]
  omega

/-- `t` is `s` at IDLE after it delivered `v`, with the fault register and chip memory as they were. -/
structure Ended (s : State) (v : Result) (t : State) : Prop where
  pc : t.pc = .idle
  fault : t.fault = s.fault
  results : t.results = s.results ++ [v]
  mem : t.mem = s.mem

/-- A request in service that completes. -/
theorem InService.ended {r : Request} {s u : State} (h : InService r s u) (hm : u.mem = s.mem) (v : Result) :
    Ended s v (complete v u) :=
  ⟨rfl, h.fault, by rw [complete_results, h.results], hm⟩

section
variable {r : Request} {s : State} {w ro wo : Word} (hd : decodeRequest r = .ok (.enq w)) (ha : apart s.cfg)
  (hro : chipRead s = some ro) (hwo : chipWrite s = some wo) (low : 4092 ≤ (wo - ro).toNat)
  (high : (wo - ro).toNat ≤ 4096)
include hd ha hro hwo low high

/-- One rejected attempt, counted in twenty steps and twenty bus events: ENQ gives up at the budget and begins
its next attempt below it. -/
theorem Attempting.counts {u : State} {n : BitVec 16} (h : Attempting r s u) (hn : u.attempts = some n) :
    ∃ x, InService r s x ∧ x.cs = false ∧ x.mem = s.mem ∧ x.attempts = some (n + 1#16) ∧
      x.trace.length = u.trace.length + 20 ∧
      ((n + 1#16).toNat = s.cfg.retryBudget →
        runSteps 20 u = .next (complete (plainResult .gaveup ((n + 1#16).setWidth 32)) x)) ∧
      ((n + 1#16).toNat ≠ s.cfg.retryBudget → runSteps 20 u = .next (startAttempt x)) := by
  obtain ⟨v, ⟨run, service, mem, attempts, events⟩, next⟩ :=
    h.rejected hd (fun _ busy => exec_enq_busy busy w) ha hro hwo low high
  have count : (measured wo ro (4096#32 - (wo - ro)) (deselect v)).attempts = some n := attempts.trans hn
  have length : (deselect v).trace.length = v.trace.length + 1 := List.length_append
  have budget : v.cfg.retryBudget = s.cfg.retryBudget := congrArg _ service.cfg
  refine ⟨{ measured wo ro (4096#32 - (wo - ro)) (deselect v) with attempts := some (n + 1#16) },
    { service with }, rfl, mem, rfl, (by simp only [measured]; omega), fun last => ?_, fun more => ?_⟩
  · exact runSteps_trans run (runSteps_one (next.trans (retry_gaveup count (last.trans budget.symm))))
  · exact runSteps_trans run (runSteps_one (next.trans (retry_again count fun e => more (e.trans budget))))

/-- With `m + 1` attempts left every one is rejected. -/
theorem Attempting.gives_up (fits : s.cfg.retryBudget ≤ 65535) (m : Nat) {u : State} {n : BitVec 16}
    (h : Attempting r s u) (hn : u.attempts = some n) (left : n.toNat + (m + 1) = s.cfg.retryBudget) :
    ∃ t, runSteps (20 * (m + 1)) u = .next t ∧
      Ended s (plainResult .gaveup (BitVec.ofNat 32 s.cfg.retryBudget)) t ∧
      t.trace.length = u.trace.length + 20 * (m + 1) := by
  induction m generalizing u n with
  | zero =>
    obtain ⟨x, service, -, mem, -, events, gaveup, -⟩ := h.counts hd ha hro hwo low high hn
    have counted := count_succ (n := n) (by omega)
    have last : (n + 1#16).toNat = s.cfg.retryBudget := by omega
    have run := gaveup last
    rw [setWidth_of_toNat last] at run
    exact ⟨_, run, service.ended mem _, events⟩
  | succ m ih =>
    obtain ⟨x, service, cs, mem, count, events, -, again⟩ := h.counts hd ha hro hwo low high hn
    have counted := count_succ (n := n) (by omega)
    obtain ⟨t, run, ended, length⟩ :=
      ih (attempting_startAttempt service cs mem) count (by omega)
    rw [show (startAttempt x).trace = x.trace from rfl, events] at length
    refine ⟨t, ?_, ended, by omega⟩
    rw [show 20 * (m + 1 + 1) = 20 + 20 * (m + 1) by omega]
    exact runSteps_trans (again (by omega)) run

end

end Sys2Proof.Machine

namespace Sys2Proof
open Machine

/-- Settles O30: ACCEPT, then one rejected attempt after another (`Attempting.gives_up`). -/
theorem enqGivesUpOnAFullStillChip : Obligations.EnqGivesUpOnAFullStillChip := by
  intro s r w ro wo hd ho hdr valid ha hro hwo low high hb
  obtain ⟨accept, service, idle⟩ := inService_accept hd ho hdr
  obtain ⟨-, quiet, -⟩ := ho
  rw [exec_enq_accept idle w hb] at accept
  obtain ⟨m, budget⟩ := Nat.exists_eq_add_one_of_ne_zero hb
  have begins : Attempting r s (startAttempt { takeRequest r s.reqs.tail s with attempts := some 0#16 }) :=
    attempting_startAttempt { service with } quiet rfl
  obtain ⟨t, run, ended, events⟩ :=
    begins.gives_up hd ha hro hwo low high (configValid_budget valid) m rfl (by simp [budget])
  rw [← budget] at run events
  rw [Nat.add_comm]
  exact ⟨t, runSteps_trans (runSteps_one accept) run, ended.pc, ended.fault, ended.results, events, ended.mem⟩

/-- Settles O29: with room the two writes are all that chip memory sees (`Attempting.enqueues`), and they leave
what `ringStored` does; on a full ring the rejected attempt is the whole request (`Attempting.rejected`). -/
theorem tryenqOnAStillChip : Obligations.TryenqOnAStillChip := by
  intro s r w ro wo hd ho hdr valid ha hro hwo
  obtain ⟨accept, service, idle⟩ := inService_accept hd ho hdr
  obtain ⟨-, quiet, -⟩ := ho
  rw [exec_tryenq_accept idle w] at accept
  have begins := attempting_startAttempt service quiet rfl
  refine ⟨fun room aligned => ?stored, fun low high => ?rejected⟩
  case stored =>
    have window := configValid_window valid
    obtain ⟨t, run, pc, fault, cfg, results, mem⟩ := begins.enqueues hd ha window hro hwo room
    have readOffset := (chipRead_stored ha cfg mem aligned).trans hro
    have writeOffset := chipWrite_stored ha cfg mem
    have headroom := acceptedWordKeepsHeadroom wo ro ro room (Nat.le_refl _)
    refine ⟨t, runSteps_trans (runSteps_one accept) run, pc, fault, results, ?word, readOffset, writeOffset,
      ⟨_, ?occupied, headroom.2⟩, fun x pointer ring => ?other⟩
    case word => rw [mem, ringStored_word ha wo w s.mem aligned window]
    case occupied => rw [chipOccupied, readOffset, writeOffset]
    case other => rw [mem, ringStored_other s.cfg wo w s.mem pointer ring]
  case rejected =>
    obtain ⟨v, ⟨run, service, mem, -, -⟩, next⟩ :=
      begins.rejected hd (fun _ busy => exec_tryenq_busy busy w) ha hro hwo low high
    obtain ⟨pc, fault, results, mem⟩ := (service.measured ro wo _).ended mem (plainResult .rejected wo)
    exact ⟨_, runSteps_trans (runSteps_one accept) (runSteps_trans run (runSteps_one next)),
      pc, fault, results, mem⟩

end Sys2Proof
end

section
/-! SUPPORT. The packer (spec/42_payload.md R124 to R128, R135): it takes four bytes a word, a word that is not
filled is filled with zero bytes, and the bytes of the packed words are the payload and those zero bytes. -/
namespace Sys2Proof.Machine

/-! ## Byte lists as numbers (R14) -/

theorem leVal_zeros (n : Nat) : leVal (List.replicate n 0#8) = 0 := by
  induction n with
  | zero => rfl
  | succ n ih => rw [List.replicate_succ, leVal, ih, BitVec.toNat_zero]

theorem leVal_append_zeros (s : List Byte) (n : Nat) : leVal (s ++ List.replicate n 0#8) = leVal s := by
  induction s with
  | nil => exact leVal_zeros n
  | cons b s ih => simp only [List.cons_append, leVal, ih]

theorem leVal_lt (s : List Byte) : leVal s < 256 ^ s.length := by
  induction s with
  | nil => decide
  | cons b s ih =>
    have := b.isLt
    simp only [leVal, List.length_cons, Nat.pow_succ]
    omega

theorem leBytes_leVal (s : List Byte) : leBytes s.length (leVal s) = s := by
  induction s with
  | nil => rfl
  | cons b s ih =>
    have low : BitVec.ofNat 8 (b.toNat + 256 * leVal s) = b := by
      apply BitVec.eq_of_toNat_eq
      rw [BitVec.toNat_ofNat, Nat.add_mul_mod_self_left, Nat.mod_eq_of_lt b.isLt]
    have high : (b.toNat + 256 * leVal s) / 256 = leVal s := by
      have := b.isLt
      omega
    simp only [List.length_cons, leVal, leBytes, low, high, ih]

/-- Four bytes are the bytes of their word. -/
theorem le4_leWord_of_length {s : List Byte} (four : s.length = 4) : le4 (leWord s) = s := by
  have fits : leVal s < 2 ^ 32 := by
    have := leVal_lt s
    rwa [four] at this
  rw [le4, leWord, BitVec.toNat_ofNat, Nat.mod_eq_of_lt fits, ← four, leBytes_leVal]

/-! ## A word of at most four bytes (R125, R126) -/

/-- The four bytes of a word, the missing ones zero. -/
def fillWord (s : List Byte) : List Byte := [s.getD 0 0#8, s.getD 1 0#8, s.getD 2 0#8, s.getD 3 0#8]

/-- Filling appends the missing zero bytes. -/
theorem fillWord_eq_append {s : List Byte} (short : s.length ≤ 4) :
    fillWord s = s ++ List.replicate (4 - s.length) 0#8 := by
  match s, short with
  | [], _ | [_], _ | [_, _], _ | [_, _, _], _ | [_, _, _, _], _ => rfl

theorem leWord_fillWord {s : List Byte} (short : s.length ≤ 4) : leWord (fillWord s) = leWord s := by
  rw [fillWord_eq_append short, leWord, leVal_append_zeros, leWord]

/-- The word of at most four bytes, each byte past their end 0. -/
theorem leWord_getD {s : List Byte} (short : s.length ≤ 4) :
    leWord s = s.getD 3 0#8 ++ s.getD 2 0#8 ++ s.getD 1 0#8 ++ s.getD 0 0#8 := by
  rw [← leWord_fillWord short, fillWord, leWord_four]

/-- The bytes of the word of at most four bytes are these and the missing zero bytes. -/
theorem le4_leWord {s : List Byte} (short : s.length ≤ 4) : le4 (leWord s) = fillWord s := by
  rw [← leWord_fillWord short, le4_leWord_of_length rfl]

/-! ## The packed words -/

/-- The packer makes a word of the first four bytes, or of all where they are fewer, and goes on after them. -/
theorem pack_of_ne_nil {s : List Byte} (h : s ≠ []) : pack s = leWord (s.take 4) :: pack (s.drop 4) := by
  fun_cases pack s with
  | case1 => rfl
  | case2 => contradiction
  | case3 | case4 | case5 => rfl

theorem pack_getElem? {s : List Byte} {i : Nat} (h : 4 * i < s.length) :
    (pack s)[i]? = some (leWord ((s.drop (4 * i)).take 4)) := by
  induction i generalizing s with
  | zero =>
    rw [pack_of_ne_nil (List.ne_nil_of_length_pos h)]
    rfl
  | succ i ih =>
    have left : 4 * i < (s.drop 4).length := by
      rw [List.length_drop]
      omega
    rw [pack_of_ne_nil (List.ne_nil_of_length_pos (by omega)), List.getElem?_cons_succ, ih left, List.drop_drop,
      Nat.mul_succ, Nat.add_comm]

/-- Byte `k` of word `i` is byte `4i + k` of the payload. -/
theorem word_getD (s : List Byte) (i : Nat) {k : Nat} (h : k < 4) :
    ((s.drop (4 * i)).take 4).getD k 0#8 = s.getD (4 * i + k) 0#8 := by
  simp only [List.getD_eq_getElem?_getD, List.getElem?_take_of_lt h, List.getElem?_drop]

/-! ## Unpacking (R135) -/

theorem unpack_cons (w : Word) (ws : List Word) : unpack (w :: ws) = le4 w ++ unpack ws := rfl

theorem unpack_pack (s : List Byte) : unpack (pack s) = s ++ List.replicate ((4 - s.length % 4) % 4) 0#8 := by
  fun_induction pack s with
  | case1 b0 b1 b2 b3 s ih =>
    have same : (b0 :: b1 :: b2 :: b3 :: s).length % 4 = s.length % 4 := by
      simp only [List.length_cons]
      omega
    rw [unpack_cons, le4_leWord_of_length rfl, ih, same]
    rfl
  | case2 => rfl
  | case3 | case4 | case5 =>
    rw [unpack_cons, le4_leWord (by simp only [List.length_cons, List.length_nil]; decide)]
    rfl

end Sys2Proof.Machine

namespace Sys2Proof
open Machine

/-- Settles O32: word `i` is made of the four bytes from `4i` on (`pack_getElem?`), or of fewer at the end, where
the missing ones count as 0 (`leWord_getD`). -/
theorem packWordsLittleEndian : Obligations.PackWordsLittleEndian := by
  intro s
  refine ⟨pack_length s, fun i hi => ?_⟩
  rw [pack_getElem? (by omega), leWord_getD (List.length_take_le 4 _), word_getD s i (by decide),
    word_getD s i (by decide), word_getD s i (by decide), word_getD s i (by decide)]
  rfl

/-- Settles O33: unpacking gives the payload back with its padding (`unpack_pack`), and the payload is what stands
before the padding. -/
theorem packedBytesComeBack : Obligations.PackedBytesComeBack := by
  refine ⟨unpack_pack, fun s t len words => ?_⟩
  have bytes := congrArg unpack words
  rw [unpack_pack, unpack_pack] at bytes
  exact List.append_inj_left bytes len

end Sys2Proof
end

section
/-! SUPPORT. The operations of the packer and of the text-command sequencer (spec/42_payload.md R129 to R133): the
number PACK reports, a delivered word counted, and the word sequence that no computation changes. -/
namespace Sys2Proof.Machine

theorem packValue_toNat {n : Nat} (h : n < 2 ^ 32) : (packValue n).toNat = n := by
  rw [packValue, if_pos h, BitVec.toNat_ofNat, Nat.mod_eq_of_lt h]

/-! ## A word delivered (R133) -/

section
variable {s : State} {ws : List Word} {k : BitVec 17} {nd ng : BitVec 16} (hw : s.words = some ws)
  (hk : s.widx = some k) (hd : s.ndeliv = some nd) (hg : s.ngaveup = some ng)

include hg in
/-- Of the two counts only that of the words delivered moves. -/
theorem countWord_delivered :
    countWord true k nd ng s = { s with widx := some (k + 1#17), ndeliv := some (nd + 1#16) } := by
  cases s
  cases hg
  rfl

include hw hk hd hg

/-- The command ends with its last word. -/
theorem wordDone_delivered_ends {again : State → Out} (last : (k + 1#17).toNat = ws.length) :
    wordDone again true s = .next (complete (textResult (nd + 1#16) ng)
      { s with widx := some (k + 1#17), ndeliv := some (nd + 1#16) }) := by
  rw [wordDone_ends true hd hg hk hw (.inl last), countWord_delivered hg]
  rfl

/-- The next word starts with a fresh budget. -/
theorem wordDone_delivered_goes (hb : s.cfg.retryBudget ≠ 0) (left : (k + 1#17).toNat < ws.length) :
    wordDone nextWord true s = .next (startAttempt
      { s with widx := some (k + 1#17), ndeliv := some (nd + 1#16), attempts := some 0#16 }) := by
  have more : ¬ ((k + 1#17).toNat = ws.length ∨ true = false ∧ s.cfg.abortOnGaveup = true) := by
    rintro (last | ⟨gaveup, -⟩)
    · omega
    · cases gaveup
  rw [wordDone_goes true hd hg hk hw more, countWord_delivered hg,
    nextWord_starts (by exact hb) (by exact hw) rfl left]

end

/-! ## The word sequence (R130) -/

/-- A computation that leaves the word sequence of a text command as it is. -/
def KeepsWords (k : State → Out) : Prop := ∀ u t, k u = .next t → t.words = u.words

theorem keepsWords_wordDone {again : State → Out} (ha : KeepsWords again) (b : Bool) :
    KeepsWords (wordDone again b) := by
  intro u t h
  obtain ⟨nd, hd, counts⟩ := readLatch_next h
  obtain ⟨ng, hg, counts⟩ := readLatch_next counts
  obtain ⟨i, hi, counts⟩ := readLatch_next counts
  obtain ⟨ws, hw, -⟩ := readLatch_next counts
  by_cases ends : (i + 1#17).toNat = ws.length ∨ b = false ∧ u.cfg.abortOnGaveup = true
  · rw [wordDone_ends b hd hg hi hw ends] at h
    cases h
    rfl
  · rw [wordDone_goes b hd hg hi hw ends] at h
    exact (ha _ _ h :)

theorem keepsWords_startWord (fuel : Nat) : KeepsWords (startWord fuel) := by
  induction fuel with
  | zero =>
    intro u t h
    cases h
  | succ fuel ih =>
    intro u t h
    simp only [startWord] at h
    split at h
    · exact (keepsWords_wordDone ih false _ _ h :)
    · cases h
      rfl

theorem keepsWords_nextWord : KeepsWords nextWord := fun u => keepsWords_startWord (wordsLeft u) u

theorem keepsWords_textOutcome (v : Verdict) : KeepsWords (textOutcome v) := by
  intro u t h
  have counted := keepsWords_wordDone keepsWords_nextWord
  obtain ⟨n, hn, -⟩ := readLatch_next h
  cases v with
  | enqueued =>
    rw [textOutcome, retry_enqueued hn] at h
    exact (counted true _ _ h :)
  | rejected =>
    by_cases last : (n + 1#16).toNat = u.cfg.retryBudget
    · rw [textOutcome, retry_gaveup hn last] at h
      exact (counted false _ _ h :)
    · rw [textOutcome, retry_again hn last] at h
      cases h
      rfl

/-- No step of a TEXTCMD after ACCEPT changes its word sequence. -/
theorem exec_textcmd_words {ws : List Word} {bs : List Byte} {s t : State} (busy : s.pc ≠ .idle)
    (h : exec (.textcmd ws bs) s = .next t) : t.words = s.words := by
  rw [exec_textcmd_busy busy] at h
  obtain ⟨⟨words, -⟩, -⟩ | ⟨v, u, ⟨⟨words, -⟩, -⟩, ends⟩ := attempt_counted gives_currentWord h
  · exact words
  · exact (keepsWords_textOutcome v u t ends).trans words

end Sys2Proof.Machine

namespace Sys2Proof
open Machine

/-- Settles O35: the empty payload is skipped (`exec_textcmd_skipped`); any other makes a first word
(`packLen_pos`), and with a budget its first attempt begins (`nextWord_starts`). -/
theorem textcmdAccepts : Obligations.TextcmdAccepts := by
  intro s ws bs hp hfit
  refine ⟨?skipped, fun hb budget => ?begun⟩
  case skipped =>
    rintro rfl
    rw [exec_textcmd_skipped hp (decide_eq_true hfit), complete_idle hp]
    rfl
  case begun =>
    have first : 0 < (textWords ws bs).length := by
      rw [textWords_length]
      exact Nat.add_pos_right _ (packLen_pos hb)
    rw [exec_textcmd_accept hp (decide_eq_true hfit) hb, 
      nextWord_starts (s := latchText (textWords ws bs) s) budget rfl rfl first]
    rfl

/-- Settles O37: the accepted attempt ends its word as delivered (`retry_enqueued`), and the command ends
(`wordDone_delivered_ends`) or starts its next word (`wordDone_delivered_goes`). -/
theorem textcmdCountsDeliveredWord : Obligations.TextcmdCountsDeliveredWord := by
  intro s rx l k nd ng n ws bs h hl hk hd hg hn hb
  have ⟨hp, _⟩ := h
  rw [exec_textcmd_busy (by simp [hp]), attempt_qwp_desel h, textOutcome, retry_enqueued (s := deselect s) hn]
  refine ⟨fun last => ?ends, fun left => ?goes⟩
  case ends =>
    rw [wordDone_delivered_ends (by exact hl) (by exact hk) (by exact hd) (by exact hg) last]
    rfl
  case goes =>
    rw [wordDone_delivered_goes (by exact hl) (by exact hk) (by exact hd) (by exact hg) (by exact hb) left]
    rfl

/-- Settles O39: ACCEPT latches the sequence and then only starts words, which keeps it (`keepsWords_nextWord`); in
flight nothing that an attempt or its end computes changes it (`exec_textcmd_words`). -/
theorem textcmdWordsAreFixed : Obligations.TextcmdWordsAreFixed := by
  intro s t ws bs h
  refine ⟨fun hp hb hfit => ?accept, fun busy => exec_textcmd_words busy h⟩
  case accept =>
    rw [exec_textcmd_accept hp (decide_eq_true hfit) hb] at h
    exact keepsWords_nextWord _ _ h

/-- Settles O34: at IDLE the result is delivered and nothing else changes (`complete_idle`). -/
theorem packCompletesAtOnce : Obligations.PackCompletesAtOnce := by
  intro s bs hp
  refine ⟨packValue (packLen bs.length), ?_, packValue_toNat⟩
  rw [exec_pack_accept hp, complete_idle hp]
  rfl

end Sys2Proof
end

section
/-! SUPPORT. Reset's check of the configuration and the program point FAULT (spec/60_exceptions.md R142 to R144):
what `configValid` asks, and what a turn of another agent leaves of the block. -/
namespace Sys2Proof.Machine

/-- A configuration is valid exactly if it meets each constraint of R10. -/
theorem configValid_iff {c : Config} : configValid c = true ↔
    c.cmdBufBase + 4095 < 2 ^ 22 ∧ c.regCmdRead < 2 ^ 22 ∧ c.regCmdWrite < 2 ^ 22 ∧ c.regId < 2 ^ 22 ∧
      c.regTouchTag < 2 ^ 22 ∧ c.regCmdRead ≠ c.regCmdWrite ∧ c.retryBudget ≤ 65535 ∧
      ∀ k, c.policy ≠ .unknown k := by
  simp only [configValid, Bool.and_eq_true, decide_eq_true_eq, and_assoc]
  cases c.policy <;> simp [chipSpace]

theorem step_reset {s : State} {rest : List Turn} (h : s.sched = .reset :: rest) :
    step s = .next (applyReset { s with sched := rest }) := by
  simp only [step, h, agentTurn]

/-- The program point, the fault register and the observation are the same (R47, R144). -/
def Halted (s t : State) : Prop :=
  t.pc = s.pc ∧ t.fault = s.fault ∧ t.results = s.results ∧ t.trace = s.trace

/-- No agent but the block and reset moves the program point or adds to the observation. -/
theorem halted_agentTurn {a : Turn} (h : a ≠ .reset) (s : State) : Halted s (agentTurn a s) := by
  cases a with
  | block | request | take | answer | poke | advance => exact ⟨rfl, rfl, rfl, rfl⟩
  | consume => exact ⟨chipConsume_pc s, chipConsume_fault s, chipConsume_results s, chipConsume_trace s⟩
  | reset => contradiction

/-- In FAULT no turn but reset moves the block (R144). -/
theorem halted_step {s t : State} (hp : s.pc = .fault) (h : step s = .next t)
    (hr : s.sched.head? ≠ some .reset) : Halted s t := by
  obtain ⟨rest, -, hb⟩ | ⟨a, rest, hs, -, rfl⟩ := step_cases h
  · cases hb.symm.trans (blockStep_fault (by exact hp))
    exact ⟨rfl, rfl, rfl, rfl⟩
  · have ha : a ≠ .reset := by
      rintro rfl
      simp [hs] at hr
    exact halted_agentTurn ha { s with sched := rest }

end Sys2Proof.Machine

namespace Sys2Proof
open Machine

/-- Settles O44: reset is released at the program point and with the fault bit that the check of the
configuration gives (`applyReset_pc`, `applyReset_fault`). -/
theorem resetChecksConfiguration : Obligations.ResetChecksConfiguration := by
  intro s rest h
  refine ⟨_, step_reset h, by simp, fun valid => ?valid, fun invalid => ?invalid⟩
  case valid =>
    have check : configValid s.cfg = true := configValid_iff.2 valid
    simp [State.reqReady, check]
  case invalid =>
    have check : configValid s.cfg = false := Bool.eq_false_iff.2 fun e => invalid (configValid_iff.1 e)
    simp [State.reqReady, check, faultConfig]

/-- Settles O47: the block's turn does nothing in FAULT (`blockStep_fault`), and no other but reset moves the
block (`halted_step`). -/
theorem faultLeftOnlyByReset : Obligations.FaultLeftOnlyByReset := by
  intro s hp
  refine ⟨fun hs => ?still, fun t h hr => ?left⟩
  case still => simp only [step, hs, blockStep_fault hp]
  case left =>
    obtain ⟨pc, fault, results, trace⟩ := halted_step hp h hr
    exact ⟨pc.trans hp, fault, results, trace, by simp [State.reqReady, pc, hp]⟩

end Sys2Proof
end

section
/-! SUPPORT. How many steps a request in flight may still take (spec/60_exceptions.md R162), as a number read off
the latches: what is left of its transaction, and the most that may follow it. The computations of a step are
followed to the states they end in. -/
namespace Sys2Proof.Machine

/-! ## The number of steps left -/

/-- The steps of the transaction in flight not yet taken, its DESEL step among them (R31). -/
def engineLeft (s : State) : Nat :=
  match s.txs, s.txpos with
  | some bytes, some i => bytes.length - i + if s.cs then 1 else 2
  | _, _ => 0

/-- The attempts that may follow the one in flight for the same word: none for TRYENQ (R114, R115). -/
def retriesLeft (s : State) : Nat :=
  match s.attempts with
  | some n => if s.op = some 0x10#8 then 0 else s.cfg.retryBudget - (n.toNat + 1)
  | none => 0

/-- The words of a text command after the one being enqueued (R133). -/
def wordsAfter (s : State) : Nat := if s.op = some 0x21#8 then wordsLeft s - 1 else 0

/-- The steps counted for what may follow the attempt in flight: 20 for each further attempt, which is what a
rejected one takes, and its bound for each further word (R162). -/
def laterSteps (s : State) : Nat := 20 * retriesLeft s + wordsAfter s * wordBound s.cfg.retryBudget

/-- The most steps that may follow the DESEL step of the transaction in flight: the read of a pointer takes ten
and the write of a word nine, so an attempt takes 38 where it is accepted and 20 where it is rejected. -/
def pointLeft (s : State) : Nat :=
  match s.pc with
  | .qro => 28 + laterSteps s
  | .qwo => 18 + laterSteps s
  | .qww => 9 + laterSteps s
  | .qwp => laterSteps s
  | .iro => 10
  | .idle | .fx | .iwo | .fault => 0

/-- The most steps a request in flight may still take. -/
def stepsLeft (s : State) : Nat := engineLeft s + pointLeft s

theorem engineLeft_eq {s : State} {bytes : List Byte} {i : Nat} (hb : s.txs = some bytes)
    (hi : s.txpos = some i) : engineLeft s = bytes.length - i + if s.cs then 1 else 2 := by
  simp only [engineLeft, hb, hi]

theorem engineLeft_pos {s : State} (h : engineReady s = true) : 0 < engineLeft s := by
  obtain ⟨bytes, -, i, -, hb, -, hi, -⟩ := engineReady_iff.1 h
  rw [engineLeft_eq hb hi]
  split <;> omega

/-- A transaction just set up takes SEL, one exchange a byte, and DESEL (R31). -/
theorem engineLeft_startXfer (p : Pc) (bytes : List Byte) (cap : Nat) (s : State) :
    engineLeft (goto p (startXfer bytes cap s)) ≤ bytes.length + 2 := by
  rw [engineLeft_eq (s := goto p (startXfer bytes cap s)) rfl rfl]
  split <;> omega

theorem engineLeft_startRead (p : Pc) (a : Addr) (n : Nat) (s : State) :
    engineLeft (startRead p a n s) ≤ n + 6 := by
  have := engineLeft_startXfer p (txRead a n) readCap s
  rwa [txRead_length] at this

theorem engineLeft_startWord (p : Pc) (a : Addr) (w : Word) (s : State) :
    engineLeft (startWrite p a (le4 w) s) ≤ 9 := by
  have := engineLeft_startXfer p (txWrite a (le4 w)) (txWrite a (le4 w)).length s
  rwa [txWrite_length, le4_length] at this

/-! ## The program points of an attempt set up (R107) -/

theorem stepsLeft_startAttempt (s : State) : stepsLeft (startAttempt s) ≤ 38 + laterSteps s := by
  have engine := engineLeft_startRead .qro (paramAddr s.cfg.regCmdRead) 4 s
  have point : pointLeft (startAttempt s) = 28 + laterSteps s := rfl
  rw [stepsLeft, point, startAttempt]
  omega

theorem stepsLeft_latchRo (rx : List Byte) (s : State) :
    stepsLeft (latchRo rx s) ≤ 28 + laterSteps s := by
  have engine := engineLeft_startRead .qwo (paramAddr s.cfg.regCmdWrite) 4 { s with roL := some (leWord rx) }
  have point : pointLeft (latchRo rx s) = 18 + laterSteps s := rfl
  rw [stepsLeft, point, latchRo]
  omega

theorem stepsLeft_startRingWrite (w wo : Word) (s : State) :
    stepsLeft (startRingWrite w wo s) ≤ 18 + laterSteps s := by
  have engine := engineLeft_startWord .qww (ringAddr s.cfg wo) w s
  have point : pointLeft (startRingWrite w wo s) = 9 + laterSteps s := rfl
  rw [stepsLeft, point, startRingWrite]
  omega

theorem stepsLeft_startPointerWrite (wo : Word) (s : State) :
    stepsLeft (startPointerWrite wo s) ≤ 9 + laterSteps s := by
  have engine := engineLeft_startWord .qwp (paramAddr s.cfg.regCmdWrite) (advance wo) s
  have point : pointLeft (startPointerWrite wo s) = laterSteps s := rfl
  rw [stepsLeft, point, startPointerWrite]
  omega

/-! ## Computations that end within a number of steps -/

/-- Where the computation goes on in flight, at most `n` steps are left. -/
def EndsWithin (n : Nat) (o : Out) : Prop :=
  ∀ t, o = .next t → t.pc ≠ .idle → t.pc ≠ .fault → stepsLeft t ≤ n

theorem EndsWithin.mono {m n : Nat} {o : Out} (h : EndsWithin m o) (hmn : m ≤ n) : EndsWithin n o :=
  fun t e hi hf => Nat.le_trans (h t e hi hf) hmn

theorem endsWithin_next {n : Nat} {t : State} (h : stepsLeft t ≤ n) : EndsWithin n (.next t) := by
  rintro _ ⟨⟩ - -
  exact h

theorem endsWithin_complete {n : Nat} (r : Result) (s : State) : EndsWithin n (.next (complete r s)) := by
  rintro _ ⟨⟩ hi -
  exact absurd rfl hi

theorem endsWithin_refuse {n : Nat} (s : State) : EndsWithin n (.next (refuse s)) := by
  rintro _ ⟨⟩ hi -
  exact absurd rfl hi

theorem endsWithin_fault {n : Nat} {t : State} (h : t.pc = .fault) : EndsWithin n (.next t) := by
  rintro _ ⟨⟩ - hf
  contradiction

theorem endsWithin_readLatch {α : Type} {n : Nat} {l : Latch} {v : Option α} {k : α → Out}
    (h : ∀ a, EndsWithin n (k a)) : EndsWithin n (readLatch l v k) := by
  intro t e
  obtain ⟨a, -, e⟩ := readLatch_next e
  exact h a t e

/-- One bus event is one step of those left; the DESEL step's computation ends within those of its program
point. -/
theorem endsWithin_xferStep {n : Nat} {k : State → Out} {s : State} (he : engineReady s = true)
    (hk : EndsWithin (pointLeft s) (k (deselect s))) (hn : stepsLeft s ≤ n + 1) :
    EndsWithin n (xferStep k s) := by
  intro t h hi hf
  rcases xferStep_cases h with ⟨hc, rfl⟩ | ⟨bytes, cap, i, rx, o, hc, hb, -, hpos, -, ho, rfl⟩ |
    ⟨-, -, hc, -, -, -, e⟩
  · obtain ⟨bytes, -, i, -, hb, -, hpos, -⟩ := engineReady_iff.1 he
    have point : pointLeft (select s) = pointLeft s := rfl
    have engine : engineLeft (select s) = bytes.length - i + 1 := engineLeft_eq hb hpos
    simp only [stepsLeft, engineLeft_eq hb hpos, hc, Bool.false_eq_true, if_false] at hn
    rw [stepsLeft, point, engine]
    omega
  · have point : pointLeft (exchange bytes cap i rx o s) = pointLeft s := rfl
    have engine := engineLeft_eq (s := exchange bytes cap i rx o s) hb rfl
    have inside : i < bytes.length := (List.getElem?_eq_some_iff.1 ho).1
    simp only [stepsLeft, engineLeft_eq hb hpos, hc, if_true] at hn
    simp only [stepsLeft, point, engine, exchange_cs, hc, if_true]
    omega
  · have after := hk t e hi hf
    have desel := engineLeft_pos he
    rw [stepsLeft] at hn
    omega

/-! ## Words and attempts (R115, R133) -/

theorem wordsLeft_eq {s : State} {ws : List Word} {i : BitVec 17} (hw : s.words = some ws)
    (hi : s.widx = some i) : wordsLeft s = ws.length - i.toNat := by
  simp only [wordsLeft, hw, hi]

/-- A text command's word with a fresh budget takes its bound and leaves the words after it (R133). -/
theorem laterSteps_fresh {s : State} (h : commanding s) :
    38 + laterSteps { s with attempts := some 0#16 } = wordsLeft s * wordBound s.cfg.retryBudget := by
  obtain ⟨-, -, hop, ht⟩ := h
  obtain ⟨ws, i, -, -, hw, hi, -, -, hlt, -⟩ := textReady_iff.1 ht
  obtain ⟨m, hm⟩ : ∃ m, ws.length - i.toNat = m + 1 := ⟨ws.length - i.toNat - 1, by omega⟩
  have later : laterSteps { s with attempts := some 0#16 } =
      20 * (s.cfg.retryBudget - 1) + m * wordBound s.cfg.retryBudget := by
    simp [laterSteps, retriesLeft, wordsAfter, wordsLeft, hop, hw, hi, hm]
  rw [later, wordsLeft_eq hw hi, hm, Nat.succ_mul m, wordBound]
  omega

/-- With a zero budget no word is tried: the command ends where it starts (R32, R133). -/
theorem endsWithin_nextWord_zero {n : Nat} {s : State} (h : commanding s) (hb : s.cfg.retryBudget = 0) :
    EndsWithin n (nextWord s) := by
  obtain ⟨-, -, -, ht⟩ := h
  obtain ⟨ws, i, nd, ng, hw, hi, hd, hg, hlt, hm, -⟩ := textReady_iff.1 ht
  obtain ⟨m, hl⟩ : ∃ m, ws.length - i.toNat = m + 1 := ⟨ws.length - i.toNat - 1, by omega⟩
  obtain ⟨u, -, e⟩ := startWord_zero hb hw hi hd hg (n := m) (by omega) hm
  rw [nextWord, wordsLeft_eq hw hi, hl, e]
  exact endsWithin_complete _ _

/-- From the start of a word on each word left takes at most its bound. -/
theorem endsWithin_nextWord {s : State} (h : commanding s) :
    EndsWithin (wordsLeft s * wordBound s.cfg.retryBudget) (nextWord s) := by
  have ⟨_, _, _, ht⟩ := h
  obtain ⟨ws, i, -, -, hw, hi, -, -, hlt, -⟩ := textReady_iff.1 ht
  by_cases hb : s.cfg.retryBudget = 0
  · exact endsWithin_nextWord_zero h hb
  · rw [nextWord_starts hb hw hi hlt, ← laterSteps_fresh h]
    exact endsWithin_next (stepsLeft_startAttempt _)

/-- After a word only the words after it are left. -/
theorem endsWithin_wordDone {s : State} (h : commanding s) (b : Bool) :
    EndsWithin (wordsAfter s * wordBound s.cfg.retryBudget) (wordDone nextWord b s) := by
  have ⟨_, _, hop, ht⟩ := h
  obtain ⟨ws, i, nd, ng, hw, hi, hd, hg, hlt, hm, -⟩ := textReady_iff.1 ht
  by_cases he : (i + 1#17).toNat = ws.length ∨ b = false ∧ s.cfg.abortOnGaveup = true
  · rw [wordDone_ends b hd hg hi hw he]
    exact endsWithin_complete _ _
  · have hs : (i + 1#17).toNat = i.toNat + 1 := by rw [BitVec.toNat_add]; simp; omega
    have left : wordsLeft (countWord b i nd ng s) = wordsAfter s := by
      rw [wordsLeft_eq (s := countWord b i nd ng s) hw rfl, wordsAfter, if_pos hop, wordsLeft_eq hw hi, hs]
      omega
    rw [wordDone_goes b hd hg hi hw he, ← left]
    exact endsWithin_nextWord (commanding_countWord b h hw hi hd hg fun e => he (.inl e))

/-- A rejected attempt that is not the last leaves one attempt fewer (R115). -/
theorem laterSteps_again {s : State} {n : BitVec 16} (hop : s.op ≠ some 0x10#8) (hn : s.attempts = some n)
    (more : (n + 1#16).toNat < s.cfg.retryBudget) (count : (n + 1#16).toNat = n.toNat + 1) :
    20 + laterSteps { s with attempts := some (n + 1#16) } = laterSteps s := by
  have words : wordsAfter { s with attempts := some (n + 1#16) } = wordsAfter s := rfl
  simp only [laterSteps, words, retriesLeft, hn, hop, if_false, count]
  omega

/-- The steps counted besides `laterSteps` for what may follow the verdict on an attempt: after a rejection the
last attempt may be accepted, and then it takes 18 more than the 20 counted for each. -/
def verdictLeft : Verdict → Nat
  | .enqueued => 0
  | .rejected => 18

/-- The completion handler of the operation `op` ends within the steps that the attempt leaves. -/
def OutcomeWithin (op : BitVec 8) (outcome : Verdict → State → Out) : Prop :=
  ∀ v s, enqueueing s = true → s.op = some op → s.cfg.retryBudget ≤ 65535 →
    EndsWithin (verdictLeft v + laterSteps s) (outcome v s)

theorem outcomeWithin_tryenq (op : BitVec 8) : OutcomeWithin op tryenqOutcome := by
  intro v s _ _ _
  refine endsWithin_readLatch fun wo => ?_
  cases v with
  | enqueued | rejected => exact endsWithin_complete _ _

/-- The retry state machine, where the word's end leaves only later words (R115). -/
theorem endsWithin_retry {finish : Bool → BitVec 16 → State → Out} {s : State} (ha : attemptsBelow s = true)
    (hop : s.op ≠ some 0x10#8) (hb : s.cfg.retryBudget ≤ 65535)
    (hf : ∀ b n m, EndsWithin (wordsAfter s * wordBound s.cfg.retryBudget)
      (finish b n { s with attempts := some m })) (v : Verdict) :
    EndsWithin (verdictLeft v + laterSteps s) (retry finish v s) := by
  obtain ⟨n, hn, hlt⟩ := attemptsBelow_iff.1 ha
  have ends : wordsAfter s * wordBound s.cfg.retryBudget ≤ verdictLeft v + laterSteps s := by
    rw [laterSteps]
    omega
  cases v with
  | enqueued =>
    rw [retry_enqueued hn]
    exact (hf _ _ _).mono ends
  | rejected =>
    by_cases last : (n + 1#16).toNat = s.cfg.retryBudget
    · rw [retry_gaveup hn last]
      exact (hf _ _ _).mono ends
    · have count : (n + 1#16).toNat = n.toNat + 1 := count_succ (by omega)
      rw [retry_again hn last, ← laterSteps_again hop hn (by omega) count]
      refine endsWithin_next (Nat.le_trans (stepsLeft_startAttempt _) ?_)
      rw [verdictLeft]
      omega

theorem outcomeWithin_enq : OutcomeWithin 0x11#8 (retry enqFinish) := by
  intro v s he hop hb
  exact endsWithin_retry (enqueueing_enq he hop) (by simp [hop]) hb (fun _ _ _ => endsWithin_complete _ _) v

theorem outcomeWithin_textcmd : OutcomeWithin 0x21#8 textOutcome := by
  intro v s he hop hb
  obtain ⟨ha, hc⟩ := enqueueing_textcmd he hop
  exact endsWithin_retry ha (by simp [hop]) hb
    (fun b _ m => endsWithin_wordDone (s := { s with attempts := some m }) hc b) v

/-! ## An attempt in flight (R107) -/

section
variable {word : State → (Word → Out) → Out} {outcome : Verdict → State → Out} {op : BitVec 8} {s : State}
  (hw : Gives word) (ho : OutcomeWithin op outcome) (h : enqueueing s = true) (hop : s.op = some op)
  (hb : s.cfg.retryBudget ≤ 65535)
include hw ho h hop hb

theorem endsWithin_decideAttempt (wo occ : Word) :
    EndsWithin (18 + laterSteps s) (decideAttempt word wo occ outcome s) := by
  intro t e
  obtain ⟨-, rfl⟩ | ⟨f, -, -, e⟩ | ⟨f, -, -, e⟩ := decideAttempt_cases e
  · exact endsWithin_fault rfl _ rfl
  · obtain ⟨w, e⟩ := hw _ _ _ e
    exact endsWithin_next (stepsLeft_startRingWrite w wo { s with free := some f }) t e
  · exact ho .rejected { s with free := some f } h hop hb t e

/-- A step of an attempt leaves one step fewer. -/
theorem endsWithin_attempt {n : Nat} (he : engineReady s = true) (hn : stepsLeft s ≤ n + 1) :
    EndsWithin n (attempt word outcome s) := by
  intro t e
  rcases attempt_cases e with ⟨hp, rfl⟩ | ⟨hp, e⟩ | ⟨hp, e⟩ | ⟨hp, e⟩ | ⟨hp, e⟩
  · exact endsWithin_fault hp _ rfl
  all_goals
    refine endsWithin_xferStep he ?_ hn t e
    simp only [pointLeft, hp]
  · exact endsWithin_readLatch fun rx => endsWithin_next (stepsLeft_latchRo rx (deselect s))
  · exact endsWithin_readLatch fun rx => endsWithin_readLatch fun ro =>
      endsWithin_decideAttempt (s := latchWo rx ro (deselect s)) hw ho h hop hb _ _
  · exact endsWithin_readLatch fun wo => endsWithin_next (stepsLeft_startPointerWrite wo (deselect s))
  · have := ho .enqueued (deselect s) h hop hb
    rwa [verdictLeft, Nat.zero_add] at this

end

/-! ## Every operation -/

/-- A step of a framing operation in flight (R94 to R104). -/
theorem endsWithin_framing {i : Instr} {s : State} {n : Nat} (hi : i.isFraming = true) (hp : s.pc = .fx)
    (he : engineReady s = true) (hn : stepsLeft s ≤ n + 1) : EndsWithin n (exec i s) := by
  obtain ⟨finish, e⟩ := exec_framing_fx hi hp
  rw [e]
  exact endsWithin_xferStep he (endsWithin_readLatch fun _ => endsWithin_complete _ _) hn

/-- A step of IDLE in flight (R118). -/
theorem endsWithin_idle_flight {s : State} {n : Nat} (hp : s.pc = .iro ∨ s.pc = .iwo)
    (he : engineReady s = true) (hn : stepsLeft s ≤ n + 1) : EndsWithin n (exec .idle s) := by
  rcases hp with hp | hp
  · rw [exec_idle_iro hp]
    refine endsWithin_xferStep he ?_ hn
    simp only [pointLeft, hp]
    exact endsWithin_readLatch fun rx => endsWithin_next (engineLeft_startRead _ _ _ _)
  · rw [exec_idle_iwo hp]
    exact endsWithin_xferStep he
      (endsWithin_readLatch fun _ => endsWithin_readLatch fun _ => endsWithin_complete _ _) hn

/-- A step of a request in flight leaves one step fewer, whatever byte it receives. -/
theorem endsWithin_flight {i : Instr} {s : State} {n : Nat} (st : Stands s) (hi : s.pc ≠ .idle)
    (he : engineReady s = true) (hb : s.cfg.retryBudget ≤ 65535) (ho : s.op = i.opcode)
    (hn : stepsLeft s ≤ n + 1) : EndsWithin n (exec i s) := by
  cases st with
  | framing hp o op among => exact endsWithin_framing (isFraming_of_opcode (ho.symm.trans op) among) hp he hn
  | ring point ready =>
    have codes := (enqueueing_iff.1 ready).2.2
    cases i with
    | tryenq w =>
      rw [exec_tryenq_busy hi]
      exact endsWithin_attempt (gives_const w) (outcomeWithin_tryenq _) ready ho hb he hn
    | enq w =>
      rw [exec_enq_busy hi]
      exact endsWithin_attempt (gives_const w) outcomeWithin_enq ready ho hb he hn
    | textcmd ws bs =>
      rw [exec_textcmd_busy hi]
      exact endsWithin_attempt gives_currentWord outcomeWithin_textcmd ready ho hb he hn
    | _ => simp [ho, Instr.opcode] at codes
  | idle point op =>
    cases i with
    | idle => exact endsWithin_idle_flight (point.imp_right And.left) he hn
    | _ => simp [op, Instr.opcode] at ho

/-! ## ACCEPT (R24, R32) -/

theorem endsWithin_framing_accept {bytes : List Byte} {cap n : Nat} {finish : List Byte → Result} {s : State}
    (hp : s.pc = .idle) (hn : bytes.length + 3 ≤ n + 1) : EndsWithin n (framing bytes cap finish s) := by
  rw [framing_idle hp]
  exact endsWithin_next (Nat.le_trans (engineLeft_startXfer .fx bytes cap s) (Nat.le_of_succ_le_succ hn))

/-- A WRB is refused, or it is one write (R84, R95). -/
theorem endsWithin_wrb_accept {a : Addr} {bs : List Byte} {s : State} {n : Nat} (hp : s.pc = .idle)
    (hn : stepBound s.cfg (.wrb a bs) ≤ n + 1) : EndsWithin n (exec (.wrb a bs) s) := by
  cases fits : wrbFits bs with
  | true =>
    rw [exec_wrb_of_lt (of_decide_eq_true fits)]
    refine endsWithin_framing_accept hp ?_
    simp only [stepBound, fits, if_true] at hn
    rw [txWrite_length]
    omega
  | false =>
    have refused : exec (.wrb a bs) s = .next (refuse s) := if_pos ⟨hp, fits⟩
    rw [refused]
    exact endsWithin_refuse s

theorem laterSteps_tryenq {s : State} (hop : s.op = some 0x10#8) : laterSteps s = 0 := by
  cases h : s.attempts <;> simp [laterSteps, retriesLeft, wordsAfter, hop, h]

theorem endsWithin_tryenq_accept {w : Word} {s : State} {n : Nat} (hp : s.pc = .idle)
    (hop : s.op = some 0x10#8) (hn : 39 ≤ n + 1) : EndsWithin n (exec (.tryenq w) s) := by
  have attempt := stepsLeft_startAttempt s
  rw [laterSteps_tryenq hop] at attempt
  rw [exec_tryenq_accept hp]
  exact endsWithin_next (by omega)

theorem endsWithin_enq_accept {w : Word} {s : State} {n : Nat} (hp : s.pc = .idle) (hop : s.op = some 0x11#8)
    (hn : stepBound s.cfg (.enq w) ≤ n + 1) : EndsWithin n (exec (.enq w) s) := by
  by_cases hb : s.cfg.retryBudget = 0
  · rw [exec_enq_zero hp w hb]
    exact endsWithin_complete _ _
  · have attempt := stepsLeft_startAttempt { s with attempts := some 0#16 }
    have later : laterSteps { s with attempts := some 0#16 } = 20 * (s.cfg.retryBudget - 1) := by
      simp [laterSteps, retriesLeft, wordsAfter, hop]
    simp only [stepBound, hb, if_false, wordBound] at hn
    rw [exec_enq_accept hp w hb]
    exact endsWithin_next (by omega)

/-- The latches of a text command that is neither refused nor skipped (R130, R133). -/
theorem commanding_latchText {s : State} {ws : List Word} {bs : List Byte} (hl : latched s = true)
    (hw : s.wire = none) (hop : s.op = some 0x21#8) (fits : textFits ws bs = true) (hb : bs ≠ []) :
    commanding (latchText (textWords ws bs) s) := by
  have first := packLen_pos hb
  have fits : ws.length + packLen bs.length ≤ 65535 := of_decide_eq_true fits
  have length := textWords_length ws bs
  have index : (0#17).toNat < (textWords ws bs).length := by
    rw [BitVec.toNat_zero]
    omega
  exact ⟨hl, hw, hop, textReady_iff.2 ⟨_, _, _, _, rfl, rfl, rfl, rfl, index, by omega, rfl⟩⟩

theorem endsWithin_textcmd_accept {ws : List Word} {bs : List Byte} {s : State} {n : Nat} (hp : s.pc = .idle)
    (hl : latched s = true) (hw : s.wire = none) (hop : s.op = some 0x21#8)
    (hn : stepBound s.cfg (.textcmd ws bs) ≤ n + 1) : EndsWithin n (exec (.textcmd ws bs) s) := by
  cases fits : textFits ws bs with
  | false =>
    rw [exec_textcmd_refused hp fits]
    exact endsWithin_refuse s
  | true =>
    by_cases hb : bs = []
    · subst hb
      rw [exec_textcmd_skipped hp fits]
      exact endsWithin_complete _ _
    · rw [exec_textcmd_accept hp fits hb]
      have hc := commanding_latchText hl hw hop fits hb
      by_cases budget : s.cfg.retryBudget = 0
      · exact endsWithin_nextWord_zero hc budget
      · simp only [stepBound, fits, hb, budget, Bool.true_eq_false, or_self, if_false] at hn
        have words : wordsLeft (latchText (textWords ws bs) s) = (textWords ws bs).length := rfl
        refine (endsWithin_nextWord hc).mono ?_
        rw [words, latchText_cfg]
        omega

/-- The ACCEPT step of a request leaves one step fewer than its bound. -/
theorem endsWithin_accept {i : Instr} {s : State} {n : Nat} (hp : s.pc = .idle) (hl : latched s = true)
    (hw : s.wire = none) (ho : s.op = i.opcode) (hi : i.isWire = false) (hn : stepBound s.cfg i ≤ n + 1) :
    EndsWithin n (exec i s) := by
  cases i with
  | wrb a bs => exact endsWithin_wrb_accept hp hn
  | rdb a k =>
    have length := txRead_length a k.toNat
    exact endsWithin_framing_accept hp (by rw [length]; exact hn)
  | rd8 | rd16 | rd32 | wr8 | wr16 | wr32 | hostcmd | wake | chkid => exact endsWithin_framing_accept hp hn
  | tryenq w => exact endsWithin_tryenq_accept hp ho hn
  | enq w => exact endsWithin_enq_accept hp ho hn
  | idle =>
    rw [exec_idle_accept hp]
    refine endsWithin_next ?_
    have engine := engineLeft_startRead .iro (paramAddr s.cfg.regCmdRead) 4 s
    have point : pointLeft (startRead .iro (paramAddr s.cfg.regCmdRead) 4 s) = 10 := rfl
    simp only [stepBound] at hn
    rw [stepsLeft, point]
    omega
  | pack bs =>
    rw [exec_pack_accept hp]
    exact endsWithin_complete _ _
  | textcmd ws bs => exact endsWithin_textcmd_accept hp hl hw ho hn
  | wireRead | wireWrite | wireHostcmd | wireHostcmdM11 | wireWake => cases hi

/-- The bound of every request counts its ACCEPT step. -/
theorem stepBound_pos (c : Config) (i : Instr) : 0 < stepBound c i := by
  cases i with
  | wrb | enq | textcmd =>
    simp only [stepBound]
    split <;> omega
  | _ => simp [stepBound]

end Sys2Proof.Machine
end

section
/-! SUPPORT. A request runs to its result (spec/60_exceptions.md R162, spec/10_state.md R23): each step of the block
leaves one step fewer, and when none is left the one result is delivered. -/
namespace Sys2Proof.Machine

/-- Within `n` steps, and after one at least, the block is at IDLE or FAULT with one more result, and the requests
`rest` wait. -/
def CompletesWithin (n : Nat) (rest : List Request) (s : State) : Prop :=
  ∃ k t, 1 ≤ k ∧ k ≤ n ∧ runSteps k s = .next t ∧ (t.pc = .idle ∨ t.pc = .fault) ∧
    t.results.length = s.results.length + 1 ∧ t.reqs = rest

/-- A request is in flight, the block has the next turn, and at most `n` steps are left. -/
structure Flying (n : Nat) (s : State) : Prop where
  inv : Inv s
  sched : s.sched = []
  bare : s.wire = none
  busy : s.pc ≠ .idle
  live : s.pc ≠ .fault
  left : stepsLeft s ≤ n

/-- One step with one result, or with none and a request in flight. -/
theorem completesWithin_step {n : Nat} {s t : State} {rest : List Request} (hs : step s = .next t)
    (one : OneResult s t) (hr : t.reqs = rest)
    (more : t.pc ≠ .idle → t.pc ≠ .fault → CompletesWithin n rest t) : CompletesWithin (n + 1) rest s := by
  obtain ⟨results, -, hi, hf⟩ | ⟨r, results, -, ends⟩ := one
  · obtain ⟨k, u, -, le, run, stop, count, reqs⟩ := more hi hf
    refine ⟨1 + k, u, by omega, by omega, runSteps_trans (runSteps_one hs) run, stop, ?_, reqs⟩
    rw [count, results]
  · refine ⟨1, t, Nat.le_refl 1, by omega, runSteps_one hs, ends, ?_, hr⟩
    rw [results, List.length_append, List.length_singleton]

/-- The block has the next turn in `s`, and its step is one of the request operation `i` from `u`: from `s`
itself, or at ACCEPT from `s` with the request latched (R24, R25). -/
structure Serves (i : Instr) (s u : State) : Prop where
  inv : Inv s
  run : step s = exec i u
  request : i.isWire = false
  live : u.pc ≠ .fault
  sched : u.sched = []
  bare : u.wire = none
  results : u.results = s.results
  resp : u.resp = s.resp

/-- A step that leaves at most `n` steps, where every request in flight with so many left completes in them. -/
theorem Serves.completes {i : Instr} {n : Nat} {s u : State} (h : Serves i s u) (within : EndsWithin n (exec i u))
    (fly : ∀ t, Flying n t → CompletesWithin n t.reqs t) : CompletesWithin (n + 1) u.reqs s := by
  obtain ⟨t, ht, inv⟩ := safe_step h.inv
  have run := h.run.symm.trans ht
  have acts := exec_acts h.request run
  obtain ⟨-, reqs, -, -, -, -, -, -, sched⟩ := sameAround_acts acts
  have one : OneResult s t := by
    have := oneResult_acts h.live acts
    rwa [OneResult, h.results, h.resp] at this
  refine completesWithin_step ht one reqs fun busy live => reqs ▸ fly t ?_
  exact ⟨inv, sched.trans h.sched, (wire_acts acts).trans h.bare, busy, live, within t run busy live⟩

/-- A request in flight steps its latched operation (R25). -/
theorem Flying.serves {n : Nat} {s : State} (h : Flying n s) :
    ∃ i, Serves i s s ∧ s.op = i.opcode := by
  obtain ⟨t, ht, -⟩ := safe_blockStep h.inv
  have hs : step s = blockStep s := by simp only [step, h.sched]
  cases blockStep_cases ht with
  | flight r i busy live bare latched decode run =>
    obtain ⟨op, a, d, bs, ws, hop, -, -, -, -, rfl⟩ := latchedRequest_ok latched
    have code : s.op = i.opcode := by rw [hop, ← decodeRequest_opcode decode, reqOp_reqWord]
    exact ⟨i, ⟨h.inv, hs.trans (ht.trans run.symm), decodeRequest_request decode, live, h.sched, bare, rfl, rfl⟩,
      code⟩
  | still same why =>
    obtain fault | ⟨idle, -⟩ := why
    · exact absurd fault h.live
    · exact absurd idle h.busy
  | refused r rest idle => exact absurd idle h.busy
  | accepted r rest i idle => exact absurd idle h.busy
  | wire bytes i live placed => simp [h.bare] at placed

/-- A request in flight completes within the steps it has left, by induction on their number. -/
theorem Flying.completes {n : Nat} {s : State} (h : Flying n s) : CompletesWithin n s.reqs s := by
  induction n generalizing s with
  | zero =>
    have desel := engineLeft_pos (engineReady_of_pointReady h.busy h.live h.inv.point)
    have left := h.left
    rw [stepsLeft] at left
    omega
  | succ n ih =>
    obtain ⟨i, serves, code⟩ := h.serves
    obtain ⟨-, stands⟩ := stands_of_pointReady h.busy h.live h.bare h.inv.point
    have engine := engineReady_of_pointReady h.busy h.live h.inv.point
    have budget := configValid_budget (h.inv.config h.live)
    exact serves.completes (endsWithin_flight stands h.busy engine budget code h.left) fun _ => ih

end Sys2Proof.Machine

namespace Sys2Proof
open Machine

/-- Settles O58: the ACCEPT step leaves one step fewer than the bound (`endsWithin_accept`), and in flight every
step leaves one fewer (`Flying.completes`). -/
theorem everyRequestCompletesWithinItsBound : Obligations.EveryRequestCompletesWithinItsBound := by
  intro s r i inv offer decode
  obtain ⟨hp, -, hs, hw, hr, -⟩ := offer
  obtain ⟨rest, port⟩ : ∃ rest, s.reqs = r :: rest := List.head?_eq_some_iff.1 hr
  obtain ⟨n, hn⟩ : ∃ n, stepBound s.cfg i = n + 1 :=
    Nat.exists_eq_succ_of_ne_zero (Nat.ne_of_gt (stepBound_pos s.cfg i))
  have accept : step s = exec i (takeRequest r rest s) := by
    simp only [step, hs, blockStep_accept hp hw port decode]
  have request := decodeRequest_request decode
  have serves : Serves i s (takeRequest r rest s) :=
    ⟨inv, accept, request, by simp [hp], hs, hw, rfl, rfl⟩
  rw [hn, port]
  exact serves.completes (endsWithin_accept hp rfl hw (decodeRequest_opcode decode) request (Nat.le_of_eq hn))
    fun _ => Flying.completes

end Sys2Proof
end

section
namespace Sys2Proof
open Machine

/-- Settles O45: the step is reset's turn (`step_reset`), and each conjunct is one rule of it: chip-select and the
bus event that ends a transaction (R164), the block's latches and result port (R163), then what reset does not
touch (R165). -/
theorem resetClearsBlockNotChip : Obligations.ResetClearsBlockNotChip := by
  intro s rest h
  refine ⟨applyReset { s with sched := rest }, step_reset h, applyReset_cs _, applyReset_trace _, ?_⟩
  exact ⟨applyReset_op _, applyReset_addr _, applyReset_data _, applyReset_inbytes _, applyReset_inwords _,
    applyReset_roL _, applyReset_woL _, applyReset_occ _, applyReset_free _, applyReset_attempts _,
    applyReset_words _, applyReset_widx _, applyReset_ndeliv _, applyReset_ngaveup _, applyReset_rx _,
    applyReset_txs _, applyReset_txfrom _, applyReset_txpos _, applyReset_wire _, applyReset_resp _,
    applyReset_results _, applyReset_mem _, applyReset_consumed _, applyReset_cfg _, applyReset_reqs _⟩

end Sys2Proof
end
